-- ==== Sys2Proof/Word.lean ====
section
/-! DEFINITION. The words of HUFFCORE: command and response words and the fields they carry
(00_scope.md R10, R12). All numbers are unsigned; bit 0 is the least significant bit. -/

namespace Sys2Proof

/-- A command word or a response word (`CMD_W` = `RSP_W` = 64; R10). -/
abbrev Word := BitVec 64

/-- A symbol, or a packed byte (`SYM_W` = `BYTE_W` = 8; R10). -/
abbrev Byte := BitVec 8

/-- A frequency count (`CNT_W` = 32; R10). -/
abbrev Count := BitVec 32

/-- A tree weight (`W_W` = 40; R10). -/
abbrev Weight := BitVec 40

/-- A reference into the node arena (`REF_W` = 9; R10). -/
abbrev Ref := BitVec 9

/-- The packer's bit counter and the unpacker's countdown (`BITCNT_W` = 48; R10). -/
abbrev BitCount := BitVec 48

/-- The operand field of a command word (30_encoding.md R70). -/
abbrev Arg := BitVec 56

/-- The value field of a response word (30_encoding.md R73). -/
abbrev Value := BitVec 56

end Sys2Proof
end

