-- ==== Sys2Proof/Syntax.lean ====
section
/-! DEFINITION. The commands of HUFFCORE (30_encoding.md R76), one constructor per row of
spec/opcode_table.json, with their operands as R71 and R72 give them: unsigned fields of exactly the
format's width, taken as they stand. -/

namespace Sys2Proof

/-- The 25 commands (R76). The operand widths of R71 are the widths of the types, so an operand out of
its field's range cannot be written. -/
inductive Instr where
  /-- SYS.NOP (R160) -/
  | sysNop
  /-- SYS.RESET (R161) -/
  | sysReset
  /-- SYS.STATUS (R162) -/
  | sysStatus
  /-- FC.CLR (R101) -/
  | fcClr
  /-- FC.PUT sym (R102) -/
  | fcPut (sym : Byte)
  /-- FC.GET sym (R103) -/
  | fcGet (sym : Byte)
  /-- PQ.CLR (R114) -/
  | pqClr
  /-- PQ.ADD w, ref (R115) -/
  | pqAdd (w : Weight) (ref : Ref)
  /-- PQ.REM (R116) -/
  | pqRem
  /-- PQ.LEN (R117) -/
  | pqLen
  /-- TB.BUILD (R121) -/
  | tbBuild
  /-- TB.ROOT (R122) -/
  | tbRoot
  /-- TB.WEIGHT ref (R123) -/
  | tbWeight (ref : Ref)
  /-- TB.LINK ref (R124) -/
  | tbLink (ref : Ref)
  /-- CA.ASSIGN (R133) -/
  | caAssign
  /-- CA.LEN sym (R134) -/
  | caLen (sym : Byte)
  /-- CA.BIT sym, idx (R135) -/
  | caBit (sym : Byte) (idx : Byte)
  /-- BP.CLR (R141) -/
  | bpClr
  /-- BP.PUT bit (R142) -/
  | bpPut (bit : BitVec 1)
  /-- BP.FLUSH (R143) -/
  | bpFlush
  /-- BP.COUNT (R144) -/
  | bpCount
  /-- BU.START count (R151) -/
  | buStart (count : BitCount)
  /-- BU.FEED byte, the byte in the `sym` field (R152) -/
  | buFeed (byte : Byte)
  /-- BU.NEXT (R153) -/
  | buNext
  /-- BU.REM (R154) -/
  | buRem
  deriving DecidableEq, Repr

/-- The 25 operations without their operands: what a mnemonic names (R76). -/
inductive Op where
  | sysNop | sysReset | sysStatus
  | fcClr | fcPut | fcGet
  | pqClr | pqAdd | pqRem | pqLen
  | tbBuild | tbRoot | tbWeight | tbLink
  | caAssign | caLen | caBit
  | bpClr | bpPut | bpFlush | bpCount
  | buStart | buFeed | buNext | buRem
  deriving DecidableEq, Repr

/-- The seven operand formats (R71). -/
inductive Format where
  /-- no operand -/
  | Z
  /-- `sym`, `arg[7:0]` -/
  | S
  /-- `w`, `arg[39:0]`, and `ref`, `arg[48:40]` -/
  | Q
  /-- `ref`, `arg[8:0]` -/
  | N
  /-- `sym`, `arg[7:0]`, and `idx`, `arg[15:8]` -/
  | SI
  /-- `bit`, `arg[0]` -/
  | T
  /-- `count`, `arg[47:0]` -/
  | K
  deriving DecidableEq, Repr

/-- The operation of a command. -/
def Instr.op : Instr → Op
  | .sysNop => .sysNop
  | .sysReset => .sysReset
  | .sysStatus => .sysStatus
  | .fcClr => .fcClr
  | .fcPut _ => .fcPut
  | .fcGet _ => .fcGet
  | .pqClr => .pqClr
  | .pqAdd _ _ => .pqAdd
  | .pqRem => .pqRem
  | .pqLen => .pqLen
  | .tbBuild => .tbBuild
  | .tbRoot => .tbRoot
  | .tbWeight _ => .tbWeight
  | .tbLink _ => .tbLink
  | .caAssign => .caAssign
  | .caLen _ => .caLen
  | .caBit _ _ => .caBit
  | .bpClr => .bpClr
  | .bpPut _ => .bpPut
  | .bpFlush => .bpFlush
  | .bpCount => .bpCount
  | .buStart _ => .buStart
  | .buFeed _ => .buFeed
  | .buNext => .buNext
  | .buRem => .buRem

/-- The format of an operation (R76, column "format"). -/
def Op.format : Op → Format
  | .fcPut | .fcGet | .caLen | .buFeed => .S
  | .pqAdd => .Q
  | .tbWeight | .tbLink => .N
  | .caBit => .SI
  | .bpPut => .T
  | .buStart => .K
  | .sysNop | .sysReset | .sysStatus | .fcClr | .pqClr | .pqRem | .pqLen | .tbBuild | .tbRoot
  | .caAssign | .bpClr | .bpFlush | .bpCount | .buNext | .buRem => .Z

/-- The widths of a format's operands, in the order the assembler writes them (R71, R81). -/
def Format.widths : Format → List Nat
  | .Z => []
  | .S => [8]
  | .Q => [40, 9]
  | .N => [9]
  | .SI => [8, 8]
  | .T => [1]
  | .K => [48]

/-- One line of assembler text after its words are read (R81): an operation and its operands as plain
numbers, not yet known to fit their fields. -/
structure AsmLine where
  op : Op
  args : List Nat
  deriving DecidableEq, Repr

end Sys2Proof
end

