-- ==== Sys2Proof/WellFormed.lean ====
section
/-! DEFINITION. Well-formedness of commands. An `Instr` is well formed by its types: each operand has
exactly its field's width (30_encoding.md R71, R72), and every value of a field is encodable (R72, EN-1).
What can be ill formed is a line of assembler text (R81), whose operands are plain numbers. -/

namespace Sys2Proof

/-- The line has as many operands as its format lists (R71, R81). -/
def AsmLine.arityOk (l : AsmLine) : Bool :=
  l.args.length == l.op.format.widths.length

/-- Each operand fits the width of its field: `sym`, `idx` 8 bits, `ref` 9, `w` 40, `count` 48, `bit` 1
(R72). -/
def AsmLine.rangesOk (l : AsmLine) : Bool :=
  (l.args.zip l.op.format.widths).all fun p => decide (p.1 < 2 ^ p.2)

/-- A line that stands for a command: the right number of operands, each within its field. -/
def AsmLine.wellFormed (l : AsmLine) : Bool :=
  l.arityOk && l.rangesOk

/-- The line of a command (R81). Every command has one, and it is well formed
(`Sys2Proof.Laws.Instr.line_wellFormed`). -/
def Instr.line (i : Instr) : AsmLine where
  op := i.op
  args := match i with
    | .sysNop | .sysReset | .sysStatus | .fcClr | .pqClr | .pqRem | .pqLen | .tbBuild | .tbRoot
    | .caAssign | .bpClr | .bpFlush | .bpCount | .buNext | .buRem => []
    | .fcPut sym | .fcGet sym | .caLen sym | .buFeed sym => [sym.toNat]
    | .pqAdd w ref => [w.toNat, ref.toNat]
    | .tbWeight ref | .tbLink ref => [ref.toNat]
    | .caBit sym idx => [sym.toNat, idx.toNat]
    | .bpPut bit => [bit.toNat]
    | .buStart count => [count.toNat]

end Sys2Proof
end

