-- ==== Sys2Proof/Decode.lean ====
section
/-! DEFINITION. Decoding and encoding of command words (30_encoding.md R70 to R79). The decoder is total
and rejects an illegal word by the reason R78 gives; the encoder writes the same fields. The rows of
R76 stand here too, so that legality can be stated a second way. -/

namespace Sys2Proof

/-- Why a word is no command (R78). -/
inductive Illegal where
  /-- `unit` is 7 to 15 -/
  | reservedUnit
  /-- the unit exists but defines no such `fn` -/
  | undefinedFn
  /-- a listed opcode with a 1 in a must-be-zero bit of `arg` -/
  | mustBeZero
  deriving DecidableEq, Repr

/-! ### Fields of a command word (R70) -/

/-- `C[63:60]`. -/
def unitField (c : Word) : BitVec 4 := c.extractLsb' 60 4

/-- `C[63:56]`, the opcode byte `op`: `unit` and `fn` together. -/
def opField (c : Word) : Byte := c.extractLsb' 56 8

/-- `C[55:0]`. -/
def argField (c : Word) : Arg := c.extractLsb' 0 56

/-! ### Formats (R71): what each reads from `arg`, every bit it does not list being 0 -/

def readZ (arg : Arg) (i : Instr) : Except Illegal Instr :=
  if arg = 0 then .ok i else .error .mustBeZero

def readS (arg : Arg) (mk : Byte → Instr) : Except Illegal Instr :=
  if arg.extractLsb' 8 48 = 0 then .ok (mk (arg.extractLsb' 0 8)) else .error .mustBeZero

def readQ (arg : Arg) (mk : Weight → Ref → Instr) : Except Illegal Instr :=
  if arg.extractLsb' 49 7 = 0 then .ok (mk (arg.extractLsb' 0 40) (arg.extractLsb' 40 9))
  else .error .mustBeZero

def readN (arg : Arg) (mk : Ref → Instr) : Except Illegal Instr :=
  if arg.extractLsb' 9 47 = 0 then .ok (mk (arg.extractLsb' 0 9)) else .error .mustBeZero

def readSI (arg : Arg) (mk : Byte → Byte → Instr) : Except Illegal Instr :=
  if arg.extractLsb' 16 40 = 0 then .ok (mk (arg.extractLsb' 0 8) (arg.extractLsb' 8 8))
  else .error .mustBeZero

def readT (arg : Arg) (mk : BitVec 1 → Instr) : Except Illegal Instr :=
  if arg.extractLsb' 1 55 = 0 then .ok (mk (arg.extractLsb' 0 1)) else .error .mustBeZero

def readK (arg : Arg) (mk : BitCount → Instr) : Except Illegal Instr :=
  if arg.extractLsb' 48 8 = 0 then .ok (mk (arg.extractLsb' 0 48)) else .error .mustBeZero

/-- The command of a word, or why it is none (R70, R71, R76, R78). -/
def decode (c : Word) : Except Illegal Instr :=
  let arg := argField c
  match opField c with
  | 0x00#8 => readZ arg .sysNop
  | 0x01#8 => readZ arg .sysReset
  | 0x02#8 => readZ arg .sysStatus
  | 0x10#8 => readZ arg .fcClr
  | 0x11#8 => readS arg .fcPut
  | 0x12#8 => readS arg .fcGet
  | 0x20#8 => readZ arg .pqClr
  | 0x21#8 => readQ arg .pqAdd
  | 0x22#8 => readZ arg .pqRem
  | 0x23#8 => readZ arg .pqLen
  | 0x30#8 => readZ arg .tbBuild
  | 0x31#8 => readZ arg .tbRoot
  | 0x32#8 => readN arg .tbWeight
  | 0x33#8 => readN arg .tbLink
  | 0x40#8 => readZ arg .caAssign
  | 0x41#8 => readS arg .caLen
  | 0x42#8 => readSI arg .caBit
  | 0x50#8 => readZ arg .bpClr
  | 0x51#8 => readT arg .bpPut
  | 0x52#8 => readZ arg .bpFlush
  | 0x53#8 => readZ arg .bpCount
  | 0x60#8 => readK arg .buStart
  | 0x61#8 => readS arg .buFeed
  | 0x62#8 => readZ arg .buNext
  | 0x63#8 => readZ arg .buRem
  | _ => .error (if 7#4 ≤ unitField c then .reservedUnit else .undefinedFn)

/-! ### Encoding -/

/-- The opcode byte of an operation (R76, column `op`). -/
def Op.code : Op → Byte
  | .sysNop => 0x00
  | .sysReset => 0x01
  | .sysStatus => 0x02
  | .fcClr => 0x10
  | .fcPut => 0x11
  | .fcGet => 0x12
  | .pqClr => 0x20
  | .pqAdd => 0x21
  | .pqRem => 0x22
  | .pqLen => 0x23
  | .tbBuild => 0x30
  | .tbRoot => 0x31
  | .tbWeight => 0x32
  | .tbLink => 0x33
  | .caAssign => 0x40
  | .caLen => 0x41
  | .caBit => 0x42
  | .bpClr => 0x50
  | .bpPut => 0x51
  | .bpFlush => 0x52
  | .bpCount => 0x53
  | .buStart => 0x60
  | .buFeed => 0x61
  | .buNext => 0x62
  | .buRem => 0x63

/-- The `arg` field of a command: its operands where its format puts them, 0 elsewhere (R71). -/
def Instr.arg : Instr → Arg
  | .sysNop | .sysReset | .sysStatus | .fcClr | .pqClr | .pqRem | .pqLen | .tbBuild | .tbRoot
  | .caAssign | .bpClr | .bpFlush | .bpCount | .buNext | .buRem => 0
  | .fcPut sym | .fcGet sym | .caLen sym | .buFeed sym => 0#48 ++ sym
  | .pqAdd w ref => 0#7 ++ ref ++ w
  | .tbWeight ref | .tbLink ref => 0#47 ++ ref
  | .caBit sym idx => 0#40 ++ idx ++ sym
  | .bpPut bit => 0#55 ++ bit
  | .buStart count => 0#8 ++ count

/-- The word of a command (R70). -/
def encode (i : Instr) : Word := i.op.code ++ i.arg

/-! ### The rows of R76 -/

/-- A row of R76: a word `C` is this command exactly when `C & mask == match`. -/
structure OpRow where
  op : Op
  pattern : Word
  mask : Word
  deriving DecidableEq, Repr

/-- The word matches the row. -/
def OpRow.admits (r : OpRow) (c : Word) : Bool := (c &&& r.mask) == r.pattern

/-- R76, its columns `match` and `mask`. -/
def opRows : List OpRow :=
  [⟨.sysNop,    0x0000000000000000, 0xFFFFFFFFFFFFFFFF⟩,
   ⟨.sysReset,  0x0100000000000000, 0xFFFFFFFFFFFFFFFF⟩,
   ⟨.sysStatus, 0x0200000000000000, 0xFFFFFFFFFFFFFFFF⟩,
   ⟨.fcClr,     0x1000000000000000, 0xFFFFFFFFFFFFFFFF⟩,
   ⟨.fcPut,     0x1100000000000000, 0xFFFFFFFFFFFFFF00⟩,
   ⟨.fcGet,     0x1200000000000000, 0xFFFFFFFFFFFFFF00⟩,
   ⟨.pqClr,     0x2000000000000000, 0xFFFFFFFFFFFFFFFF⟩,
   ⟨.pqAdd,     0x2100000000000000, 0xFFFE000000000000⟩,
   ⟨.pqRem,     0x2200000000000000, 0xFFFFFFFFFFFFFFFF⟩,
   ⟨.pqLen,     0x2300000000000000, 0xFFFFFFFFFFFFFFFF⟩,
   ⟨.tbBuild,   0x3000000000000000, 0xFFFFFFFFFFFFFFFF⟩,
   ⟨.tbRoot,    0x3100000000000000, 0xFFFFFFFFFFFFFFFF⟩,
   ⟨.tbWeight,  0x3200000000000000, 0xFFFFFFFFFFFFFE00⟩,
   ⟨.tbLink,    0x3300000000000000, 0xFFFFFFFFFFFFFE00⟩,
   ⟨.caAssign,  0x4000000000000000, 0xFFFFFFFFFFFFFFFF⟩,
   ⟨.caLen,     0x4100000000000000, 0xFFFFFFFFFFFFFF00⟩,
   ⟨.caBit,     0x4200000000000000, 0xFFFFFFFFFFFF0000⟩,
   ⟨.bpClr,     0x5000000000000000, 0xFFFFFFFFFFFFFFFF⟩,
   ⟨.bpPut,     0x5100000000000000, 0xFFFFFFFFFFFFFFFE⟩,
   ⟨.bpFlush,   0x5200000000000000, 0xFFFFFFFFFFFFFFFF⟩,
   ⟨.bpCount,   0x5300000000000000, 0xFFFFFFFFFFFFFFFF⟩,
   ⟨.buStart,   0x6000000000000000, 0xFFFF000000000000⟩,
   ⟨.buFeed,    0x6100000000000000, 0xFFFFFFFFFFFFFF00⟩,
   ⟨.buNext,    0x6200000000000000, 0xFFFFFFFFFFFFFFFF⟩,
   ⟨.buRem,     0x6300000000000000, 0xFFFFFFFFFFFFFFFF⟩]

/-- R78: a legal encoding matches one row of R76. -/
def legalEncoding (c : Word) : Bool := opRows.any (·.admits c)

/-! ### The host's view of the table -/

/-- The command the decoder reads from an instruction whose bits, numbered as spec/opcode_table.json
numbers them, are `w`: a command is one 64-bit word (R70), so the table's bit `k` is bit `k` of the word.
Bits at and above `nbits` are 0. -/
def decodeTableWord (nbits w : Nat) : Option Instr :=
  let v := w % 2 ^ nbits
  if v < 2 ^ 64 then
    match decode (BitVec.ofNat 64 v) with
    | .ok i => some i
    | .error _ => none
  else none

end Sys2Proof
end

