-- ==== Sys2Proof/Config.lean ====
section
/-! DEFINITION. The parameters of 00_scope.md R10 that are not widths. All but `BU_FIFO_CAP` have the
value this hardware takes; `BU_FIFO_CAP` is OPEN. -/

namespace Sys2Proof

/-- `NSYM`: entries of the frequency table and of the code table (R10). -/
def Config.nsym : Nat := 256

/-- `NODE_MAX`: records in the node arena (R10). -/
def Config.nodeMax : Nat := 511

/-- `PQ_CAP`: entries the selector can hold (R10). -/
def Config.pqCap : Nat := 256

/-- `CODE_MAX`: the longest code, in bits (R10). -/
def Config.codeMax : Nat := 255

/-- `BU_FIFO_CAP`: OPEN, "any value ≥ 1" (R10, D17, U10). `some k` is the capacity `k + 1`, so a
capacity of 0 cannot be written; `none` is the unbounded FIFO, which D17 admits. DESIGN CHOICE
(log 3): an opaque constant, so no proof can rest on its value. -/
opaque Config.buFifoCap : Option Nat

end Sys2Proof
end

