-- ==== Sys2Proof/Machine/State.lean ====
section
/-! DEFINITION. The state of HUFFCORE (10_state.md R23, R25 to R41), its values at reset (R44), and the
reasons a step can stop. INVENTORY.md lists every element with its rule and reset value. -/

namespace Sys2Proof.Machine

/-- The fault causes, "5 to 63 reserved, never raised" (60_exceptions.md R203; U14: no constructor for
them). Taking one of these is a NEXT state of the model (R205), not a stop. -/
inductive Cause where
  /-- TB.BUILD with every count 0 (R121) -/
  | emptyInput
  /-- BU.NEXT needs a byte and has none (R153) -/
  | corrupt
  /-- FC.PUT on a counter at its greatest value (R102) -/
  | fcOverflow
  /-- BP.PUT with the bit counter at its greatest value (R142) -/
  | bpOverflow
  deriving DecidableEq, Repr

/-- What taking a fault records (R39, R205): `CAUSE` and `INFO`. -/
structure Latch where
  cause : Cause
  info : Byte
  deriving DecidableEq, Repr

/-- A record of the node arena (R29). -/
inductive Node where
  /-- `Leaf(w, s)` -/
  | leaf (w : Weight) (s : Byte)
  /-- `Internal(w, l, r)` -/
  | internal (w : Weight) (l r : Ref)
  deriving DecidableEq, Repr

/-- An entry of the selector (R26): a tree's weight and the reference of its root. -/
structure Entry where
  w : Weight
  ref : Ref
  deriving DecidableEq, Repr

/-- A code: `c[0]`, the bit of the edge that leaves the root, first; `len` is the number of bits (R31). -/
abbrev Code := List Bool

/-- The code table: an entry is `absent` (`none`) or `present(len, c)` (R31). -/
abbrev CodeTable := Vector (Option Code) 256

/-- The frequency table (R25). -/
abbrev FreqTable := Vector Count 256

/-- What the host does at the block's inputs (00_scope.md R6, R8; 70_reset_and_hazards.md R230). -/
inductive HostInput where
  /-- presents one command word at the command port -/
  | command (c : Word)
  /-- pulses the hardware reset input -/
  | hardReset
  deriving DecidableEq, Repr

/-- The architectural state (R23), the parameter `BU_FIFO_CAP` and the two ports. -/
structure State where
  /-- `FREQ` (R25) -/
  freq : FreqTable
  /-- `PQ` (R27): the entries, a multiset held in the one arrangement sorted by R112's order (log 5);
  `pq_len` is their number -/
  pq : List Entry
  /-- `NODE` (R28): the records in use, references 0 to `node_count`-1 (log 4); `node_count` (R30) is their
  number -/
  node : List Node
  /-- `tb_root` (R30) -/
  tbRoot : Ref
  /-- `tb_valid` (R30) -/
  tbValid : Bool
  /-- `CODE` (R31) -/
  code : CodeTable
  /-- `bp_acc` (R33) -/
  bpAcc : Byte
  /-- `bp_n` (R33) -/
  bpN : BitVec 3
  /-- `bp_total` (R34) -/
  bpTotal : BitCount
  /-- `bp_final` (R35) -/
  bpFinal : Bool
  /-- `bu_fifo` (R36), its head first -/
  buFifo : List Byte
  /-- `bu_cur` (R37) -/
  buCur : Byte
  /-- `bu_left` (R37) -/
  buLeft : BitVec 4
  /-- `bu_rem` (R38) -/
  buRem : BitCount
  /-- `FAULTED`, `CAUSE`, `INFO` (R39): no fault taken, or the fault taken (log 6) -/
  latched : Option Latch
  /-- `BU_FIFO_CAP` (R10, D17): the parameter as an argument; no step writes it (log 3) -/
  buFifoCap : Option Nat
  /-- the command port and the reset input: what the host does next, oldest first (log 1) -/
  inputs : List HostInput
  /-- the response port: the response words the host has taken, oldest first (log 2) -/
  rsps : List Word
  deriving DecidableEq, Repr

/-- The reasons a step stops with a fault of the MODEL. The block's own faults are states (R205). -/
inductive Fault where
  /-- Raised by CA.ASSIGN alone, when the walk of R133 meets a reference that names no record in use, or a
  path longer than `CODE_MAX` bits: the arena holds no tree. R29 and R32 say that this cannot be after
  TB.BUILD, and no run reaches it (`Obligations.InvariantStateAlwaysSteps`). Safe (log 7). -/
  | arenaNotATree
  deriving DecidableEq, Repr

/-- The reasons a step is refused by the MODEL. The block's refusals are states with the response
`REFUSED` (R209). -/
inductive Refusal where
  /-- An instruction without a meaning, by its mnemonic. Raised by no arm: all 25 commands have their
  meaning. Safe. -/
  | notModelled (mnemonic : String)
  deriving DecidableEq, Repr

/-- What a meaning answers. -/
abbrev Result := Host.Outcome State Fault Refusal

/-- The state after hardware reset (R44, R230). `NODE` has no record in use. The ports are empty: nothing
presented, nothing answered (log 1, log 2). -/
def State.reset : State where
  freq := Vector.replicate 256 0
  pq := []
  node := []
  tbRoot := 0
  tbValid := false
  code := Vector.replicate 256 none
  bpAcc := 0
  bpN := 0
  bpTotal := 0
  bpFinal := false
  buFifo := []
  buCur := 0
  buLeft := 0
  buRem := 0
  latched := none
  buFifoCap := Config.buFifoCap
  inputs := []
  rsps := []

end Sys2Proof.Machine
end

