-- ==== Sys2Proof/Machine/Operands.lean ====
section
/-! DEFINITION. The forms in which data enters and leaves HUFFCORE: reading an entry of a table by the
operand that indexes it (20_memory.md R54, R57), the value layouts of R75 and the response word of R73,
R74. -/

namespace Sys2Proof.Machine

/-! ### Table entries (R13 `MemRead`, `MemWrite`; one entry is the only access size) -/

theorem symIndex (s : Byte) : s.toNat < 256 := s.isLt

/-- `freq[s]`. -/
def State.freqAt (st : State) (s : Byte) : Count := st.freq[s.toNat]'(symIndex s)

/-- `freq[s] <- n`. -/
def State.setFreq (st : State) (s : Byte) (n : Count) : State :=
  { st with freq := st.freq.set s.toNat n (symIndex s) }

/-- Entry `s` of a code table. -/
def codeOf (t : CodeTable) (s : Byte) : Option Code := t[s.toNat]'(symIndex s)

/-- Entry `s` of a code table becomes `present(|c|, c)`. -/
def setCode (t : CodeTable) (s : Byte) (c : Code) : CodeTable := t.set s.toNat (some c) (symIndex s)

/-- `code[s]`. -/
def State.codeAt (st : State) (s : Byte) : Option Code := codeOf st.code s

/-- The record at a reference, if it is in use (`ref < node_count`; R30, R54). -/
def nodeOf (node : List Node) (r : Ref) : Option Node := node[r.toNat]?

/-- `node[r]`, if it is in use. -/
def State.nodeAt (st : State) (r : Ref) : Option Node := nodeOf st.node r

/-- `pq_len` (R27, R113), 9 bits. -/
def State.pqLen (st : State) : BitVec 9 := BitVec.ofNat 9 st.pq.length

/-- `node_count` (R30), 10 bits. -/
def State.nodeCount (st : State) : BitVec 10 := BitVec.ofNat 10 st.node.length

/-- The weight of a record (R29). -/
def Node.weight : Node → Weight
  | .leaf w _ => w
  | .internal w _ _ => w

/-- The symbols 0 to 255 in ascending order. -/
def allSymbols : List Byte := (List.range 256).map (BitVec.ofNat 8)

/-! ### Value layouts (R75) -/

/-- PQ.REM: `[39:0]` = `w`, `[48:40]` = `ref`. -/
def Entry.value (e : Entry) : Value := (e.ref ++ e.w).setWidth 56

/-- TB.BUILD, TB.ROOT: `[8:0]` = `tb_root`, `[25:16]` = `node_count`. -/
def rootValue (count : BitVec 10) (root : Ref) : Value := (count ++ 0#7 ++ root).setWidth 56

/-- TB.LINK: leaf, `[18]` = 0, `[7:0]` = symbol; internal, `[18]` = 1, `[17:9]` = right, `[8:0]` = left. -/
def Node.linkValue : Node → Value
  | .leaf _ s => s.setWidth 56
  | .internal _ l r => (1#1 ++ r ++ l).setWidth 56

/-- CA.LEN: `[7:0]` = `len`. -/
def Code.lenValue (c : Code) : Value := (BitVec.ofNat 8 c.length).setWidth 56

/-- CA.BIT, BU.NEXT: `[0]` = the bit. -/
def bitValue (b : Bool) : Value := (BitVec.ofBool b).setWidth 56

/-! ### The response word (R73, R74) -/

/-- The cause codes (R203). -/
def Cause.code : Cause → BitVec 6
  | .emptyInput => 1
  | .corrupt => 2
  | .fcOverflow => 3
  | .bpOverflow => 4

/-- A response (R74): `OK(v)`, `NONE`, `ERR(cause, info)`, `REFUSED`. -/
inductive Response where
  | ok (v : Value)
  | none
  | err (c : Cause) (info : Byte)
  | refused
  deriving DecidableEq, Repr

/-- `status`, `R[63:62]`. -/
def Response.status : Response → BitVec 2
  | .ok _ => 0
  | .none => 1
  | .err _ _ => 2
  | .refused => 3

/-- `cause`, `R[61:56]`: 0 unless `status` = `ERR`. -/
def Response.causeField : Response → BitVec 6
  | .err c _ => c.code
  | _ => 0

/-- `value`, `R[55:0]`: the result, `zext_56(info)`, or 0. -/
def Response.value : Response → Value
  | .ok v => v
  | .err _ info => info.setWidth 56
  | _ => 0

/-- The response word (R73). -/
def Response.word (r : Response) : Word := r.status ++ r.causeField ++ r.value

end Sys2Proof.Machine
end

