-- ==== Sys2Proof/Machine/Flags.lean ====
section
/-! DEFINITION. The flags of HUFFCORE: the fault state (10_state.md R39) and the one status register,
whose fields are views of other elements (R40). There are no other flags or condition codes (R41). -/

namespace Sys2Proof.Machine

/-- `FAULTED` (R39). -/
def State.faulted (s : State) : Bool := s.latched.isSome

/-- `CAUSE` (R39): the cause code, 0 when `FAULTED` = 0. -/
def State.causeBits (s : State) : BitVec 6 :=
  match s.latched with
  | some l => l.cause.code
  | none => 0

/-- `INFO` (R39): the value the fault recorded, 0 when `FAULTED` = 0. -/
def State.infoBits (s : State) : Byte :=
  match s.latched with
  | some l => l.info
  | none => 0

/-- `STATUS` (R40): `FAULTED`[0], `TBV`[1], `BPF`[2], reserved [7:3], `CAUSE`[13:8], reserved [15:14],
`INFO`[23:16]. -/
def State.statusReg (s : State) : BitVec 24 :=
  s.infoBits ++ 0#2 ++ s.causeBits ++ 0#5
    ++ BitVec.ofBool s.bpFinal ++ BitVec.ofBool s.tbValid ++ BitVec.ofBool s.faulted

end Sys2Proof.Machine
end

