-- ==== Sys2Proof/Machine/Ops.lean ====
section
/-! DEFINITION. The operations the meanings share: answering, the check for a taken fault, taking a fault
and the one way out of it, the selector's internal procedures, the tree builder's loop, the code
assigner's walk, and the packer's and the unpacker's shifts. -/

namespace Sys2Proof.Machine

/-! ### Answering and the order of checks (R13, R14) -/

/-- `respond r`: the response word reaches the host (R8, R13). -/
def State.respond (s : State) (r : Response) : State := { s with rsps := s.rsps ++ [r.word] }

/-- `respond r` as the end of a command. -/
def answer (s : State) (r : Response) : Result := .next (s.respond r)

/-- Check (2) of R14: "if `FAULTED` = 1 the command is REFUSED". SYS.STATUS and SYS.RESET do not pass
through it (check (1)). -/
def State.unlessFaulted (s : State) (run : Result) : Result :=
  if s.faulted then answer s .refused else run

/-! ### Faults (60_exceptions.md) -/

/-- Fault entry (R205): `FAULTED <- 1`, `CAUSE <- c`, `INFO <- i`, no other element written, response
`ERR`. Nothing is saved anywhere else and control goes nowhere. -/
def State.raise (s : State) (c : Cause) (info : Byte) : State :=
  { s with latched := some ⟨c, info⟩ }.respond (.err c info)

/-- Fault return (R207), SYS.RESET (R161) and hardware reset (R230, R231): every element takes its reset
value of R44. The ports and the parameter are no elements of R44. -/
def State.resetBlock (s : State) : State :=
  { State.reset with buFifoCap := s.buFifoCap, inputs := s.inputs, rsps := s.rsps }

/-! ### The selector (41_priority_queue.md) -/

/-- R112's order, strict: by weight, then "lower reference first". -/
def Entry.lt (a b : Entry) : Bool := decide (a.w < b.w) || (a.w == b.w && decide (a.ref < b.ref))

/-- `pq_add` (R111): one more copy of the entry, put where the arrangement stays sorted. -/
def pqAdd (e : Entry) : List Entry → List Entry
  | [] => [e]
  | x :: xs => if e.lt x then e :: x :: xs else x :: pqAdd e xs

/-- `pq_rem` (R112): the least entry and the entries left. In the sorted arrangement it is the first. -/
def pqRem : List Entry → Option (Entry × List Entry)
  | [] => none
  | e :: rest => some (e, rest)

/-! ### The tree builder (42_tree_builder.md R121) -/

/-- What TB.BUILD works on: the selector and the arena. -/
structure Builder where
  pq : List Entry
  node : List Node
  deriving DecidableEq, Repr

/-- `node[node_count] <- n`, `pq_add(weight of n, node_count)`, `node_count <- node_count + 1`. -/
def Builder.place (b : Builder) (n : Node) : Builder where
  pq := pqAdd ⟨n.weight, BitVec.ofNat 9 b.node.length⟩ b.pq
  node := b.node ++ [n]

/-- One pass of the seeding loop: a leaf for a present symbol. -/
def seedSymbol (freq : Byte → Count) (b : Builder) (s : Byte) : Builder :=
  if 0 < freq s then b.place (.leaf ((freq s).setWidth 40) s) else b

/-- The seeding loop, `for s = 0, 1, ..., 255 in this order`, from an empty selector and arena. -/
def seedLeaves (freq : Byte → Count) : Builder :=
  allSymbols.foldl (seedSymbol freq) ⟨[], []⟩

/-- One pass of the merging loop, if `pq_len > 1`: `t1` and `t2` are removed, the new internal record has
`left` = `t1`, `right` = `t2`. -/
def mergeTwo (b : Builder) : Option Builder :=
  match pqRem b.pq with
  | none => none
  | some (e1, p1) =>
    match pqRem p1 with
    | none => none
    | some (e2, p2) => some ((Builder.mk p2 b.node).place (.internal (e1.w + e2.w) e1.ref e2.ref))

/-- `while pq_len > 1`. Each pass lowers `pq_len` by one (R242), so the entries bound the passes. -/
def mergeAll : Nat → Builder → Builder
  | 0, b => b
  | k + 1, b =>
    match mergeTwo b with
    | none => b
    | some b' => mergeAll k b'

/-- The two loops of TB.BUILD. -/
def buildTree (freq : Byte → Count) : Builder :=
  let b := seedLeaves freq
  mergeAll b.pq.length b

/-- The end of TB.BUILD: `(w, r) <- pq_rem()`, the one tree left; `tb_root <- r`; `tb_valid <- 1`. With a
present symbol there is a tree left (`Sys2Proof.Laws.buildTree_last`), so the default is never used. -/
def State.takeTree (s : State) (b : Builder) : State :=
  match pqRem b.pq with
  | none => { s with pq := [], node := b.node, tbRoot := 0, tbValid := true }
  | some (e, rest) => { s with pq := rest, node := b.node, tbRoot := e.ref, tbValid := true }

/-- "no symbol is present": `freq[s] = 0 for every s in 0..255` (R121). -/
def State.noSymbol (s : State) : Bool := s.freq.toList.all (· == 0)

/-! ### The code assigner (43_code_assigner.md R133) -/

/-- Every entry `absent`. -/
def noCodes : CodeTable := Vector.replicate 256 none

/-- `walk(r, p)`: `0` down the left edge, `1` down the right. The first argument bounds the depth of the
walk; `none` when a reference names no record in use or the bound is passed (log 7). -/
def walk (node : List Node) : Nat → Ref → Code → CodeTable → Option CodeTable
  | 0, _, _, _ => none
  | k + 1, r, p, t =>
    match nodeOf node r with
    | none => none
    | some (.leaf _ s) => some (setCode t s p)
    | some (.internal _ l rr) => (walk node k l (p ++ [false]) t).bind (walk node k rr (p ++ [true]))

/-- CA.ASSIGN's table: a root that is a leaf gets the one-bit code `0` (R132), any other root is walked,
over paths of at most `CODE_MAX` bits (R32). -/
def assignCodes (node : List Node) (root : Ref) : Option CodeTable :=
  match nodeOf node root with
  | some (.leaf _ s) => some (setCode noCodes s [false])
  | _ => walk node (Config.codeMax + 1) root [] noCodes

/-- `max{ len of code[s] : code[s] present }`. -/
def maxLen (t : CodeTable) : Nat :=
  t.toList.foldl (fun m e => match e with
    | none => m
    | some c => max m c.length) 0

/-! ### The packer (44_bit_packer.md) -/

/-- `({bp_acc, bit})[7:0]` (R142). -/
def packBit (acc : Byte) (bit : BitVec 1) : Byte := (acc ++ bit).setWidth 8

/-- `(bp_acc << (8 - bp_n))[7:0]` (R143). -/
def padByte (acc : Byte) (n : BitVec 3) : Byte := acc <<< (8 - n.toNat)

/-! ### The unpacker (45_bit_unpacker.md) -/

/-- `BU_FIFO_CAP` admits one more byte beside `n` (R152). The capacity is at least 1, so an empty FIFO
always has room. -/
def fifoHasRoom (cap : Option Nat) : Nat → Bool
  | 0 => true
  | n + 1 =>
    match cap with
    | none => true
    | some k => decide (n + 1 < k + 1)

/-- The end of BU.NEXT (R153): bit 7 of the current byte is returned and shifted out, both counters go
down. -/
def State.deliverBit (s : State) : Result :=
  answer { s with
    buCur := s.buCur <<< 1
    buLeft := s.buLeft - 1
    buRem := s.buRem - 1 } (.ok (bitValue s.buCur.msb))

end Sys2Proof.Machine
end

