-- ==== Sys2Proof/Machine/BitPacker.lean ====
section
/-! DEFINITION. BP, the bit packer (44_bit_packer.md). A completed byte leaves in the response to the
command that completed it (R140). -/

namespace Sys2Proof.Machine

/-- BP.CLR (R141). -/
def execBpClr (s : State) : Result :=
  s.unlessFaulted
    (answer { s with bpAcc := 0, bpN := 0, bpTotal := 0, bpFinal := false } (.ok 0))

/-- BP.PUT bit (R142). -/
def execBpPut (bit : BitVec 1) (s : State) : Result :=
  s.unlessFaulted
    (if s.bpFinal then answer s .refused
     else if s.bpTotal = 0xFFFFFFFFFFFF then .next (s.raise .bpOverflow 0)
     else
       let v := packBit s.bpAcc bit
       if s.bpN = 7 then
         answer { s with bpTotal := s.bpTotal + 1, bpAcc := 0, bpN := 0 } (.ok (v.setWidth 56))
       else
         answer { s with bpTotal := s.bpTotal + 1, bpAcc := v, bpN := s.bpN + 1 } .none)

/-- BP.FLUSH (R143). -/
def execBpFlush (s : State) : Result :=
  s.unlessFaulted
    (if s.bpFinal then answer s .refused
     else if s.bpN = 0 then answer { s with bpFinal := true } .none
     else
       answer { s with bpFinal := true, bpAcc := 0, bpN := 0 }
         (.ok ((padByte s.bpAcc s.bpN).setWidth 56)))

/-- BP.COUNT (R144). -/
def execBpCount (s : State) : Result :=
  s.unlessFaulted (answer s (.ok (s.bpTotal.setWidth 56)))

end Sys2Proof.Machine
end

