-- ==== Sys2Proof/Machine/BitUnpacker.lean ====
section
/-! DEFINITION. BU, the bit unpacker (45_bit_unpacker.md). -/

namespace Sys2Proof.Machine

/-- BU.START count (R151). -/
def execBuStart (count : BitCount) (s : State) : Result :=
  s.unlessFaulted
    (answer { s with buFifo := [], buCur := 0, buLeft := 0, buRem := count } (.ok 0))

/-- BU.FEED byte (R152): REFUSED when the FIFO is full. -/
def execBuFeed (byte : Byte) (s : State) : Result :=
  s.unlessFaulted
    (if fifoHasRoom s.buFifoCap s.buFifo.length then
       answer { s with buFifo := s.buFifo ++ [byte] } (.ok 0)
     else answer s .refused)

/-- BU.NEXT (R153): `NONE` when the countdown is 0; a byte is fetched only when a bit of it is about to be
returned; no byte left is the fault `Corrupt`, with nothing else written. -/
def execBuNext (s : State) : Result :=
  s.unlessFaulted
    (if s.buRem = 0 then answer s .none
     else if s.buLeft = 0 then
       match s.buFifo with
       | [] => .next (s.raise .corrupt 0)
       | b :: rest => { s with buCur := b, buFifo := rest, buLeft := 8 }.deliverBit
     else s.deliverBit)

/-- BU.REM (R154). -/
def execBuRem (s : State) : Result :=
  s.unlessFaulted (answer s (.ok (s.buRem.setWidth 56)))

end Sys2Proof.Machine
end

