-- ==== Sys2Proof/Machine/CodeAssigner.lean ====
section
/-! DEFINITION. CA, the (canonical) code assigner (43_code_assigner.md). A code is a root-to-leaf path
(R131). -/

namespace Sys2Proof.Machine

/-- CA.ASSIGN (R133): REFUSED when `tb_valid` = 0. The stop belongs to states no run reaches (log 7). -/
def execCaAssign (s : State) : Result :=
  s.unlessFaulted
    (if s.tbValid then
       match assignCodes s.node s.tbRoot with
       | none => .fault .arenaNotATree
       | some t => answer { s with code := t } (.ok ((BitVec.ofNat 8 (maxLen t)).setWidth 56))
     else answer s .refused)

/-- CA.LEN sym (R134). -/
def execCaLen (sym : Byte) (s : State) : Result :=
  s.unlessFaulted
    (match s.codeAt sym with
     | none => answer s .none
     | some c => answer s (.ok c.lenValue))

/-- CA.BIT sym, idx (R135): `NONE` for an absent entry or `idx >= len`. -/
def execCaBit (sym : Byte) (idx : Byte) (s : State) : Result :=
  s.unlessFaulted
    (match s.codeAt sym with
     | none => answer s .none
     | some bits =>
       match bits[idx.toNat]? with
       | none => answer s .none
       | some b => answer s (.ok (bitValue b)))

end Sys2Proof.Machine
end

