-- ==== Sys2Proof/Machine/FreqCounter.lean ====
section
/-! DEFINITION. FC, the frequency counter (40_frequency_counter.md). -/

namespace Sys2Proof.Machine

/-- FC.CLR (R101). -/
def execFcClr (s : State) : Result :=
  s.unlessFaulted (answer { s with freq := Vector.replicate 256 0 } (.ok 0))

/-- FC.PUT sym (R102): the fault test comes before the add. -/
def execFcPut (sym : Byte) (s : State) : Result :=
  s.unlessFaulted
    (if s.freqAt sym = 0xFFFFFFFF then .next (s.raise .fcOverflow sym)
     else answer (s.setFreq sym (s.freqAt sym + 1)) (.ok 0))

/-- FC.GET sym (R103): a symbol never counted answers `OK(0)`. -/
def execFcGet (sym : Byte) (s : State) : Result :=
  s.unlessFaulted (answer s (.ok ((s.freqAt sym).setWidth 56)))

end Sys2Proof.Machine
end

