-- ==== Sys2Proof/Machine/PrioQueue.lean ====
section
/-! DEFINITION. PQ, the priority-queue selector (41_priority_queue.md). -/

namespace Sys2Proof.Machine

/-- PQ.CLR (R114). -/
def execPqClr (s : State) : Result :=
  s.unlessFaulted (answer { s with pq := [] } (.ok 0))

/-- PQ.ADD w, ref (R115): REFUSED unless `pq_len` < 256; `ref` is not checked against the arena. -/
def execPqAdd (w : Weight) (ref : Ref) (s : State) : Result :=
  s.unlessFaulted
    (if s.pq.length < Config.pqCap then answer { s with pq := pqAdd ⟨w, ref⟩ s.pq } (.ok 0)
     else answer s .refused)

/-- PQ.REM (R116): `NONE` on an empty selector, no fault. -/
def execPqRem (s : State) : Result :=
  s.unlessFaulted
    (match pqRem s.pq with
     | none => answer s .none
     | some (e, rest) => answer { s with pq := rest } (.ok e.value))

/-- PQ.LEN (R117). -/
def execPqLen (s : State) : Result :=
  s.unlessFaulted (answer s (.ok (s.pqLen.setWidth 56)))

end Sys2Proof.Machine
end

