-- ==== Sys2Proof/Machine/Sys.lean ====
section
/-! DEFINITION. SYS, the system commands (46_system.md). -/

namespace Sys2Proof.Machine

/-- SYS.NOP (R160). -/
def execSysNop (s : State) : Result :=
  s.unlessFaulted (answer s (.ok 0))

/-- SYS.RESET (R161): executes in any state, faulted or not. -/
def execSysReset (s : State) : Result :=
  answer s.resetBlock (.ok 0)

/-- SYS.STATUS (R162): executes in any state, faulted or not. -/
def execSysStatus (s : State) : Result :=
  answer s (.ok (s.statusReg.setWidth 56))

end Sys2Proof.Machine
end

