-- ==== Sys2Proof/Machine/TreeBuilder.lean ====
section
/-! DEFINITION. TB, the Huffman tree builder (42_tree_builder.md). -/

namespace Sys2Proof.Machine

/-- The answer of TB.BUILD and TB.ROOT: `OK({node_count, 0000000, tb_root})`. -/
def State.answerRoot (s : State) : Result :=
  answer s (.ok (rootValue s.nodeCount s.tbRoot))

/-- TB.BUILD (R121): the test for an empty input comes first, so the fault leaves the old tree and the
selector as they were. -/
def execTbBuild (s : State) : Result :=
  s.unlessFaulted
    (if s.noSymbol then .next (s.raise .emptyInput 0)
     else (s.takeTree (buildTree s.freqAt)).answerRoot)

/-- TB.ROOT (R122). -/
def execTbRoot (s : State) : Result :=
  s.unlessFaulted (if s.tbValid then s.answerRoot else answer s .none)

/-- The record TB.WEIGHT and TB.LINK read: none if `tb_valid = 0 or ref >= node_count` (R123, R124). -/
def State.treeNode (s : State) (ref : Ref) : Option Node :=
  if s.tbValid then s.nodeAt ref else none

/-- TB.WEIGHT ref (R123). -/
def execTbWeight (ref : Ref) (s : State) : Result :=
  s.unlessFaulted
    (match s.treeNode ref with
     | none => answer s .none
     | some n => answer s (.ok (n.weight.setWidth 56)))

/-- TB.LINK ref (R124). -/
def execTbLink (ref : Ref) (s : State) : Result :=
  s.unlessFaulted
    (match s.treeNode ref with
     | none => answer s .none
     | some n => answer s (.ok n.linkValue))

end Sys2Proof.Machine
end

