-- ==== Sys2Proof/Machine/Dispatch.lean ====
section
/-! DEFINITION. One arm per command (30_encoding.md R76). -/

namespace Sys2Proof.Machine

def exec (i : Instr) (s : State) : Host.Outcome State Fault Refusal :=
  match i with
  -- SYS
  | .sysNop => Sys2Proof.Machine.execSysNop s
  | .sysReset => Sys2Proof.Machine.execSysReset s
  | .sysStatus => Sys2Proof.Machine.execSysStatus s
  -- FC
  | .fcClr => Sys2Proof.Machine.execFcClr s
  | .fcPut sym => Sys2Proof.Machine.execFcPut sym s
  | .fcGet sym => Sys2Proof.Machine.execFcGet sym s
  -- PQ
  | .pqClr => Sys2Proof.Machine.execPqClr s
  | .pqAdd w ref => Sys2Proof.Machine.execPqAdd w ref s
  | .pqRem => Sys2Proof.Machine.execPqRem s
  | .pqLen => Sys2Proof.Machine.execPqLen s
  -- TB
  | .tbBuild => Sys2Proof.Machine.execTbBuild s
  | .tbRoot => Sys2Proof.Machine.execTbRoot s
  | .tbWeight ref => Sys2Proof.Machine.execTbWeight ref s
  | .tbLink ref => Sys2Proof.Machine.execTbLink ref s
  -- CA
  | .caAssign => Sys2Proof.Machine.execCaAssign s
  | .caLen sym => Sys2Proof.Machine.execCaLen sym s
  | .caBit sym idx => Sys2Proof.Machine.execCaBit sym idx s
  -- BP
  | .bpClr => Sys2Proof.Machine.execBpClr s
  | .bpPut bit => Sys2Proof.Machine.execBpPut bit s
  | .bpFlush => Sys2Proof.Machine.execBpFlush s
  | .bpCount => Sys2Proof.Machine.execBpCount s
  -- BU
  | .buStart count => Sys2Proof.Machine.execBuStart count s
  | .buFeed byte => Sys2Proof.Machine.execBuFeed byte s
  | .buNext => Sys2Proof.Machine.execBuNext s
  | .buRem => Sys2Proof.Machine.execBuRem s

end Sys2Proof.Machine
end

