-- ==== Sys2Proof/Machine/Step.lean ====
section
/-! DEFINITION. One step of HUFFCORE: the host presents its next input, the block executes it, the host
takes the response (00_scope.md R6 to R8). There is no program counter (10_state.md R21). -/

namespace Sys2Proof.Machine

/-- One step. With nothing presented "the block holds its state unchanged for any length of time" (R216).
An illegal word is answered `REFUSED` and changes nothing (R78), whether the block is faulted or not
(R14, R209(b)). -/
def step (s : State) : Host.Outcome State Fault Refusal :=
  match s.inputs with
  | [] => .next s
  | .hardReset :: rest => .next { s with inputs := rest }.resetBlock
  | .command c :: rest =>
    match decode c with
    | .ok i => exec i { s with inputs := rest }
    | .error _ => answer { s with inputs := rest } .refused

/-- The host presents, as its very next command, the word whose bits, numbered as the table numbers them,
are `w` (those at and above `nbits` being 0). What it meant to present before comes after it. A command
is fetched nowhere else (R21, R63): this stands for the host's presenting it (log 1). -/
def State.withFetchWord (s : State) (nbits w : Nat) : State :=
  { s with inputs := .command (BitVec.ofNat 64 (w % 2 ^ nbits)) :: s.inputs }

end Sys2Proof.Machine
end

