-- ==== Sys2Proof/Machine/Assembler.lean ====
section
/-! DEFINITION. The assembler text of R81 and the pseudo-instructions of R82 (30_encoding.md). It is no
part of the block: it turns a line of text into the commands the host presents. -/

namespace Sys2Proof.Machine

/-- The mnemonic of an operation, `UNIT.FN` in capitals (R76, R81). -/
def opMnemonic : Op → String
  | .sysNop => "SYS.NOP"
  | .sysReset => "SYS.RESET"
  | .sysStatus => "SYS.STATUS"
  | .fcClr => "FC.CLR"
  | .fcPut => "FC.PUT"
  | .fcGet => "FC.GET"
  | .pqClr => "PQ.CLR"
  | .pqAdd => "PQ.ADD"
  | .pqRem => "PQ.REM"
  | .pqLen => "PQ.LEN"
  | .tbBuild => "TB.BUILD"
  | .tbRoot => "TB.ROOT"
  | .tbWeight => "TB.WEIGHT"
  | .tbLink => "TB.LINK"
  | .caAssign => "CA.ASSIGN"
  | .caLen => "CA.LEN"
  | .caBit => "CA.BIT"
  | .bpClr => "BP.CLR"
  | .bpPut => "BP.PUT"
  | .bpFlush => "BP.FLUSH"
  | .bpCount => "BP.COUNT"
  | .buStart => "BU.START"
  | .buFeed => "BU.FEED"
  | .buNext => "BU.NEXT"
  | .buRem => "BU.REM"

/-- The command of a well-formed line (R81); none for an ill-formed one. -/
def assemble (l : AsmLine) : Option Instr :=
  if l.wellFormed then
    match l.op, l.args with
    | .sysNop, _ => some .sysNop
    | .sysReset, _ => some .sysReset
    | .sysStatus, _ => some .sysStatus
    | .fcClr, _ => some .fcClr
    | .fcPut, [a] => some (.fcPut (BitVec.ofNat 8 a))
    | .fcGet, [a] => some (.fcGet (BitVec.ofNat 8 a))
    | .pqClr, _ => some .pqClr
    | .pqAdd, [a, b] => some (.pqAdd (BitVec.ofNat 40 a) (BitVec.ofNat 9 b))
    | .pqRem, _ => some .pqRem
    | .pqLen, _ => some .pqLen
    | .tbBuild, _ => some .tbBuild
    | .tbRoot, _ => some .tbRoot
    | .tbWeight, [a] => some (.tbWeight (BitVec.ofNat 9 a))
    | .tbLink, [a] => some (.tbLink (BitVec.ofNat 9 a))
    | .caAssign, _ => some .caAssign
    | .caLen, [a] => some (.caLen (BitVec.ofNat 8 a))
    | .caBit, [a, b] => some (.caBit (BitVec.ofNat 8 a) (BitVec.ofNat 8 b))
    | .bpClr, _ => some .bpClr
    | .bpPut, [a] => some (.bpPut (BitVec.ofNat 1 a))
    | .bpFlush, _ => some .bpFlush
    | .bpCount, _ => some .bpCount
    | .buStart, [a] => some (.buStart (BitVec.ofNat 48 a))
    | .buFeed, [a] => some (.buFeed (BitVec.ofNat 8 a))
    | .buNext, _ => some .buNext
    | .buRem, _ => some .buRem
    | _, _ => none
  else none

/-! ### Pseudo-instructions (R82) -/

/-- `FC.PUTS "text"`: one `FC.PUT` per byte of the ASCII string, in order. -/
def fcPuts (text : List Byte) : List Instr := text.map .fcPut

/-- `BP.PUTS "bits"`: one `BP.PUT` per digit, leftmost first. -/
def bpPuts (bits : List (BitVec 1)) : List Instr := bits.map .bpPut

/-- `BU.FEEDS b0, b1, …`: one `BU.FEED` per listed byte, in order. -/
def buFeeds (bytes : List Byte) : List Instr := bytes.map .buFeed

/-! ### Text of a line (R81) -/

/-- All operations, for the lookup of a mnemonic. -/
def allOps : List Op :=
  [.sysNop, .sysReset, .sysStatus, .fcClr, .fcPut, .fcGet, .pqClr, .pqAdd, .pqRem, .pqLen,
   .tbBuild, .tbRoot, .tbWeight, .tbLink, .caAssign, .caLen, .caBit, .bpClr, .bpPut, .bpFlush,
   .bpCount, .buStart, .buFeed, .buNext, .buRem]

/-- Blank characters are dropped on both sides (log 9). -/
def trimBlanks (cs : List Char) : List Char :=
  ((cs.dropWhile (· == ' ')).reverse.dropWhile (· == ' ')).reverse

/-- Each character of a text with whether it is quoted: one of a character in single quotes, or between
double quotes, which the first argument says the text starts in. DESIGN CHOICE: R81 gives a `sym` as any
character in single quotes and names no exception for `,` and `;`, so a quoted one is text: it separates no
operands and starts no comment (log 9). -/
def markQuoted : Bool → List Char → List (Char × Bool)
  | _, [] => []
  | true, c :: cs => (c, c != '"') :: markQuoted (c != '"') cs
  | false, '\'' :: c :: '\'' :: cs => ('\'', true) :: (c, true) :: ('\'', true) :: markQuoted false cs
  | false, c :: cs => (c, false) :: markQuoted (c == '"') cs

/-- "A `;` starts a comment": the text before the first one that is not quoted. -/
def stripComment (text : List Char) : List Char :=
  ((markQuoted false text).takeWhile (· != (';', false))).map Prod.fst

/-- The parts between the commas that are not quoted. -/
def splitMarked : List (Char × Bool) → List (List Char)
  | [] => [[]]
  | c :: cs =>
    match splitMarked cs with
    | [] => [[c.1]]
    | p :: ps => if c == (',', false) then [] :: p :: ps else (c.1 :: p) :: ps

/-- "the operands …, separated by commas"; a quoted comma separates nothing (log 9). -/
def splitCommas (cs : List Char) : List (List Char) := splitMarked (markQuoted false cs)

/-- A digit of a number in the given base (hexadecimal digits in either case; log 9). -/
def digitValue (base : Nat) (c : Char) : Option Nat :=
  let n := c.toNat
  let v := if 48 ≤ n ∧ n ≤ 57 then n - 48
    else if 65 ≤ n ∧ n ≤ 70 then n - 55
    else if 97 ≤ n ∧ n ≤ 102 then n - 87 else base
  if v < base then some v else none

/-- A number in the given base, at least one digit. -/
def readDigits (base : Nat) (cs : List Char) : Option Nat :=
  if cs.isEmpty then none
  else cs.foldl (fun acc c => acc.bind fun n => (digitValue base c).map (n * base + ·)) (some 0)

/-- "A number is decimal or `0x` hexadecimal." -/
def readNumber : List Char → Option Nat
  | '0' :: 'x' :: cs => readDigits 16 cs
  | cs => readDigits 10 cs

/-- "A `sym` operand may be written as a character in single quotes, standing for its ASCII code." DESIGN
CHOICE: a quoted character that has no ASCII code stands for nothing, and the line is refused; R81 speaks of
ASCII codes only (log 9). -/
def readOperand (isSym : Bool) (cs : List Char) : Option Nat :=
  match trimBlanks cs with
  | ['\'', c, '\''] => if isSym && c.toNat < 128 then some c.toNat else none
  | cs' => readNumber cs'

/-- The operands of a format: the first one of `S` and `SI` is a `sym`. -/
def readOperands (f : Format) (cs : List Char) : Option (List Nat) :=
  match splitCommas cs with
  | [] => some []
  | p :: ps => do
    let a ← readOperand (f == .S || f == .SI) p
    let as ← ps.mapM (readOperand false)
    pure (a :: as)

/-- The text between double quotes. DESIGN CHOICE: R82 gives no way to write a double quote inside the
string, and one that stands there makes the text no line (log 9). -/
def readQuoted : List Char → Option (List Char)
  | '"' :: cs =>
    match cs.reverse with
    | '"' :: body => if body.contains '"' then none else some body.reverse
    | _ => none
  | _ => none

/-- A digit string of `BP.PUTS`. -/
def readBit : Char → Option (BitVec 1)
  | '0' => some 0
  | '1' => some 1
  | _ => none

/-- A byte written as an operand. -/
def readByte (cs : List Char) : Option Byte := do
  let a ← readOperand true cs
  if a < 256 then some (BitVec.ofNat 8 a) else none

/-- One line of text to the commands it stands for: "one command per line, `UNIT.FN` in capitals, then
the operands, separated by commas"; "A `;` starts a comment." A blank line stands for nothing; none when
the text is no line. DESIGN CHOICE: what R81 leaves open is read as log 9 says. -/
def assembleText (text : List Char) : Option (List Instr) :=
  let code := trimBlanks (stripComment text)
  if code.isEmpty then some []
  else
    let name := code.takeWhile (· != ' ')
    let rest := trimBlanks (code.dropWhile (· != ' '))
    if name = "FC.PUTS".toList then
      (readQuoted rest).bind fun cs =>
        (cs.mapM fun c => if c.toNat < 128 then some (BitVec.ofNat 8 c.toNat) else none).map fcPuts
    else if name = "BP.PUTS".toList then
      (readQuoted rest).bind fun cs => (cs.mapM readBit).map bpPuts
    else if name = "BU.FEEDS".toList then
      if rest.isEmpty then some [] else ((splitCommas rest).mapM readByte).map buFeeds
    else
      (allOps.find? fun o => (opMnemonic o).toList == name).bind fun o =>
        (if rest.isEmpty then some [] else readOperands o.format rest).bind fun args =>
          (assemble ⟨o, args⟩).map ([·])

end Sys2Proof.Machine
end

