-- ==== Sys2Proof/Machine/Environment.lean ====
section
/-! DEFINITION. The host's procedures of 47_environment.md: compress (R173) and decompress (R178), as
functions that issue commands to the machine and read its responses, and what follows an `ERR` (R181).
"Nothing in this file is part of the block": no other file of Machine depends on it. It is here because R174
and R181 to R184 are statements about the block driven by these procedures. -/

namespace Sys2Proof.Machine

/-! ### Reading a response word (R73) -/

/-- `R[63:62]`. -/
def rspStatus (r : Word) : BitVec 2 := r.extractLsb' 62 2

/-- `R[61:56]`. -/
def rspCause (r : Word) : BitVec 6 := r.extractLsb' 56 6

/-- `R[55:0]`. -/
def rspValue (r : Word) : Value := r.extractLsb' 0 56

/-- What the host reports (R180, R181). `NotFoundError` and `IOError` belong to the file collaborator
(R180) and do not occur here. -/
inductive HostError where
  /-- `EmptyInputError`: the block took cause 1 (R184) -/
  | emptyInput
  /-- `CorruptContainerError`: the block took cause 2, or the host found it (R178) -/
  | corruptContainer
  /-- the block took cause 3 or 4, which D0 does not have (R203) -/
  | overflow
  /-- the block refused a command of the procedure, as it does while faulted (R206) -/
  | refused
  /-- a byte has no code: "fails if a byte maps to no entry" (R172) -/
  | noCode
  /-- the model gave no step (log 7) -/
  | noStep
  deriving DecidableEq, Repr

/-- The error kind of a cause code (R203). -/
def errorOf (cause : BitVec 6) : HostError :=
  if cause = 1 then .emptyInput
  else if cause = 2 then .corruptContainer
  else .overflow

/-- How a procedure fails (R181): the error kind it reports, whether a response `ERR` ended it (else the
host found the error, or a command was refused), and the block as it was left. What the procedure had
collected is discarded: it is no part of this. -/
structure Failure where
  kind : HostError
  erred : Bool
  block : State
  deriving DecidableEq, Repr

/-- What a part of a procedure answers: what it collected, with the block after it, or its failure. "The
operation either fully succeeds … or fully fails with a reported error kind" (R181). -/
abbrev HostRun (α : Type) := Except Failure (α × State)

/-- What a procedure does next with what it collected; a failure ends it. -/
def andThen {α β : Type} (r : HostRun α) (k : α → State → HostRun β) : HostRun β :=
  match r with
  | .error f => .error f
  | .ok (a, t) => k a t

/-- The host presents a command next and takes its response (R8). A response `ERR` ends the procedure
(R181). -/
def issue (i : Instr) (s : State) : HostRun Word :=
  match step { s with inputs := .command (encode i) :: s.inputs } with
  | .next t =>
    match t.rsps.getLast? with
    | none => .error ⟨.noStep, false, s⟩
    | some r => if rspStatus r = 2 then .error ⟨errorOf (rspCause r), true, t⟩ else .ok (r, t)
  | .fault _ => .error ⟨.noStep, false, s⟩
  | .refused _ => .error ⟨.noStep, false, s⟩

/-- A response with a status other than `REFUSED` is required. -/
def require (i : Instr) (s : State) : HostRun Word :=
  andThen (issue i s) fun r t => if rspStatus r = 3 then .error ⟨.refused, false, t⟩ else .ok (r, t)

/-- Commands in order, with their responses. -/
def requireAll : List Instr → State → HostRun (List Word)
  | [], s => .ok ([], s)
  | i :: is, s =>
    andThen (require i s) fun r t =>
    andThen (requireAll is t) fun rs u => .ok (r :: rs, u)

/-- "if the response is OK(v): payload <- payload ++ [v]" (R173). -/
def emittedBytes (rs : List Word) : List Byte :=
  rs.filterMap fun r => if rspStatus r = 0 then some ((rspValue r).setWidth 8) else none

/-! ### Compress (R172, R173) -/

/-- The container as an abstract triple (R173, R176). DESIGN CHOICE: R176 leaves the width of its
`total_bit_count` open (N9, U20); it is 48 bits here, the width of `bp_total` that BP.COUNT answers and of
`count` that BU.START takes (log 8). -/
structure Container where
  table : CodeTable
  total : BitCount
  payload : List Byte
  deriving DecidableEq, Repr

/-- `CA.LEN s (NONE = absent), then CA.BIT s, 0 .. CA.BIT s, len-1`. -/
def readCode (sym : Byte) (s : State) : HostRun (Option Code) :=
  andThen (require (.caLen sym) s) fun r t =>
  if rspStatus r = 1 then .ok (none, t)
  else
    andThen (requireAll ((List.range (rspValue r).toNat).map fun k => .caBit sym (BitVec.ofNat 8 k)) t)
      fun rs u => .ok (some (rs.map fun b => (rspValue b).getLsbD 0), u)

/-- `table[s]` for the listed symbols. -/
def readTable : List Byte → CodeTable → State → HostRun CodeTable
  | [], t, s => .ok (t, s)
  | sym :: rest, t, s =>
    andThen (readCode sym s) fun c u => readTable rest (t.set sym.toNat c (symIndex sym)) u

/-- The Encoder's bit sequence (R172): the code of each byte in turn; none if a byte has no code. -/
def encodeBits (t : CodeTable) : List Byte → Option (List Bool)
  | [] => some []
  | b :: bs =>
    match codeOf t b, encodeBits t bs with
    | some c, some rest => some (c ++ rest)
    | _, _ => none

/-- The bit operand of BP.PUT. -/
def putBit (b : Bool) : Instr := .bpPut (BitVec.ofBool b)

/-- The compress procedure (R173). -/
def compress (x : List Byte) (s : State) : HostRun Container :=
  andThen (requireAll (.fcClr :: x.map .fcPut ++ [.tbBuild, .caAssign]) s) fun _ s1 =>
  andThen (readTable allSymbols noCodes s1) fun table s2 =>
  match encodeBits table x with
  | none => .error ⟨.noCode, false, s2⟩
  | some bits =>
    andThen (require .bpClr s2) fun _ s3 =>
    andThen (requireAll (bits.map putBit ++ [.bpFlush]) s3) fun rs s4 =>
    andThen (require .bpCount s4) fun n s5 =>
    .ok (⟨table, (rspValue n).setWidth 48, emittedBytes rs⟩, s5)

/-! ### Decompress (R177, R178) -/

/-- "no entry, an empty code, a code that is a prefix of another" is a malformed table (R178). -/
def tableMalformed (t : CodeTable) : Bool :=
  allSymbols.all (fun a => (codeOf t a).isNone)
    || allSymbols.any (fun a => codeOf t a == some [])
    || allSymbols.any (fun a => allSymbols.any fun b =>
        match codeOf t a, codeOf t b with
        | some c, some d => a != b && c.isPrefixOf d
        | _, _ => false)

/-- "some s has table[s] = candidate". -/
def lookupCode (t : CodeTable) (candidate : Code) : Option Byte :=
  allSymbols.find? fun a => codeOf t a == some candidate

/-- `BU.FEED v` for the bytes in order, until one is REFUSED (FIFO full): the bytes not yet taken. -/
def feedBytes : List Byte → State → HostRun (List Byte)
  | [], s => .ok ([], s)
  | b :: bs, s =>
    andThen (issue (.buFeed b) s) fun r t =>
    if rspStatus r = 3 then .ok (b :: bs, t) else feedBytes bs t

/-- The loop of R178, the feeding retried before each BU.NEXT (log 8). The first argument bounds its
passes: each takes one bit of the countdown, and the last finds it at zero. -/
def decodeLoop : Nat → CodeTable → List Byte → Code → List Byte → State → HostRun (List Byte)
  | 0, _, _, _, _, s => .error ⟨.noStep, false, s⟩
  | k + 1, t, pending, candidate, out, s =>
    andThen (feedBytes pending s) fun left s1 =>
    andThen (require .buNext s1) fun r s2 =>
    if rspStatus r = 1 then
      if candidate.isEmpty then .ok (out, s2) else .error ⟨.corruptContainer, false, s2⟩
    else
      let candidate' := candidate ++ [(rspValue r).getLsbD 0]
      match lookupCode t candidate' with
      | some a => decodeLoop k t left [] (out ++ [a]) s2
      | none =>
        if maxLen t ≤ candidate'.length then .error ⟨.corruptContainer, false, s2⟩
        else decodeLoop k t left candidate' out s2

/-- The decompress procedure (R178). -/
def decompress (c : Container) (s : State) : HostRun (List Byte) :=
  if tableMalformed c.table then .error ⟨.corruptContainer, false, s⟩
  else
    andThen (require (.buStart c.total) s) fun _ s1 =>
    decodeLoop (c.total.toNat + 1) c.table c.payload [] [] s1

/-! ### One procedure after another (R181) -/

/-- An operation of the host. -/
inductive Procedure where
  /-- R173 -/
  | compress (x : List Byte)
  /-- R178 -/
  | decompress (c : Container)
  deriving DecidableEq, Repr

/-- What the caller of an operation gets: a complete result, or an error kind and nothing else (R181). -/
inductive Report where
  | container (c : Container)
  | bytes (x : List Byte)
  | failed (kind : HostError)
  deriving DecidableEq, Repr

/-- The procedure of an operation. -/
def runProcedure : Procedure → State → HostRun Report
  | .compress x, s => andThen (compress x s) fun c t => .ok (.container c, t)
  | .decompress c, s => andThen (decompress c s) fun x t => .ok (.bytes x, t)

/-- "discard everything collected in the current compress or decompress procedure, report the error kind". -/
def report : HostRun Report → Report
  | .ok (r, _) => r
  | .error f => .failed f.kind

/-- The block on which the next procedure starts: "after a response with status `ERR` … issue SYS.RESET
before the next procedure". After any other end R181 asks for no command, and the block is as it was left
(log 8). -/
def nextStart : HostRun Report → State
  | .ok (_, t) => t
  | .error f =>
    if f.erred then
      match issue .sysReset f.block with
      | .ok (_, t) => t
      | .error g => g.block
    else f.block

/-- Procedures one after another on the same block: what each reports. -/
def performAll : List Procedure → State → List Report
  | [], _ => []
  | p :: ps, s => report (runProcedure p s) :: performAll ps (nextStart (runProcedure p s))

end Sys2Proof.Machine
end

