-- ==== Sys2Proof/Safety.lean ====
section
/-! DEFINITION. The words claims are written in: what a command may write, what it answers, what a
well-formed arena is, the invariant of the machine, runs of commands and the bits of a payload. Nothing
here is called by the machine. -/

namespace Sys2Proof.Machine

/-! ### Parts of the state, and frames -/

/-- The units' shares of the state (10_state.md, its sections 2.1 to 2.7). -/
inductive Part where
  /-- `FREQ` (R25) -/
  | fc
  /-- `PQ`, `pq_len` (R27) -/
  | pq
  /-- `NODE`, `node_count`, `tb_root`, `tb_valid` (R28, R30) -/
  | tb
  /-- `CODE` (R31) -/
  | ca
  /-- `bp_acc`, `bp_n`, `bp_total`, `bp_final` (R33 to R35) -/
  | bp
  /-- `bu_fifo`, `bu_cur`, `bu_left`, `bu_rem` (R36 to R38) -/
  | bu
  /-- `FAULTED`, `CAUSE`, `INFO` (R39) -/
  | sys
  deriving DecidableEq, Repr

/-- The two states agree on a part. -/
def samePart (s t : State) : Part → Prop
  | .fc => t.freq = s.freq
  | .pq => t.pq = s.pq
  | .tb => t.node = s.node ∧ t.tbRoot = s.tbRoot ∧ t.tbValid = s.tbValid
  | .ca => t.code = s.code
  | .bp => t.bpAcc = s.bpAcc ∧ t.bpN = s.bpN ∧ t.bpTotal = s.bpTotal ∧ t.bpFinal = s.bpFinal
  | .bu => t.buFifo = s.buFifo ∧ t.buCur = s.buCur ∧ t.buLeft = s.buLeft ∧ t.buRem = s.buRem
  | .sys => t.latched = s.latched

/-- Nothing but the listed parts differs: every part not listed is as before, and so are what the host
will present and the parameter. The responses are left to `Answers`. -/
def OnlyParts (ps : List Part) (s t : State) : Prop :=
  (∀ p, p ∉ ps → samePart s t p) ∧ t.inputs = s.inputs ∧ t.buFifoCap = s.buFifoCap

/-- The command executes with the response `r` and ends in `t`: exactly one response word is produced, and
it is `r`'s (R7, R8, R73). -/
def Answers (i : Instr) (s : State) (r : Response) (t : State) : Prop :=
  exec i s = .next t ∧ t.rsps = s.rsps ++ [r.word]

/-- The command takes a fault (R205): it answers `ERR` with the cause and the info, and writes them and
`FAULTED`, and nothing else. -/
def TakesFault (i : Instr) (s : State) (c : Cause) (k : Byte) (t : State) : Prop :=
  Answers i s (.err c k) t ∧ OnlyParts [.sys] s t ∧ t.latched = some ⟨c, k⟩

/-- The parts a command may write: R25 to R39, their "Written by" (a fault is written by the commands of
R203, and SYS.RESET writes everything, R161). -/
def mayWrite : Instr → List Part
  | .sysReset => [.fc, .pq, .tb, .ca, .bp, .bu, .sys]
  | .fcClr => [.fc]
  | .fcPut _ => [.fc, .sys]
  | .pqClr | .pqAdd _ _ | .pqRem => [.pq]
  | .tbBuild => [.pq, .tb, .sys]
  | .caAssign => [.ca]
  | .bpClr | .bpFlush => [.bp]
  | .bpPut _ => [.bp, .sys]
  | .buStart _ | .buFeed _ => [.bu]
  | .buNext => [.bu, .sys]
  | .sysNop | .sysStatus | .fcGet _ | .pqLen | .tbRoot | .tbWeight _ | .tbLink _ | .caLen _
  | .caBit _ _ | .bpCount | .buRem => []

/-- The read-out commands without a side effect (R56). -/
def readOut : Instr → Bool
  | .fcGet _ | .pqLen | .tbRoot | .tbWeight _ | .tbLink _ | .caLen _ | .caBit _ _ | .bpCount | .buRem
  | .sysStatus => true
  | .sysNop | .sysReset | .fcClr | .fcPut _ | .pqClr | .pqAdd _ _ | .pqRem | .tbBuild | .caAssign
  | .bpClr | .bpPut _ | .bpFlush | .buStart _ | .buFeed _ | .buNext => false

/-- `bu_fifo` is full (R152, R209(f)): it holds `BU_FIFO_CAP` bytes or more. An unbounded FIFO never is. -/
def FifoFull (s : State) : Prop := ∃ k, s.buFifoCap = some k ∧ k + 1 ≤ s.buFifo.length

/-- The block's elements all have their reset values (R44). -/
def BlockReset (t : State) : Prop :=
  (∀ a, t.freqAt a = 0) ∧ t.pq = [] ∧ t.nodeCount = 0 ∧ t.node = [] ∧ t.tbRoot = 0 ∧ t.tbValid = false
    ∧ (∀ a, t.codeAt a = none)
    ∧ t.bpAcc = 0 ∧ t.bpN = 0 ∧ t.bpTotal = 0 ∧ t.bpFinal = false
    ∧ t.buFifo = [] ∧ t.buCur = 0 ∧ t.buLeft = 0 ∧ t.buRem = 0
    ∧ t.faulted = false ∧ t.causeBits = 0 ∧ t.infoBits = 0

/-! ### The selector -/

/-- The arrangement is sorted by R112's order. -/
def SortedEntries (pq : List Entry) : Prop := pq.Pairwise fun a b => b.lt a = false

/-- `e` is a least entry of the list (R112). -/
def LeastEntry (e : Entry) (pq : List Entry) : Prop := e ∈ pq ∧ ∀ x ∈ pq, x.lt e = false

/-! ### Arenas and paths -/

/-- The children of a record, as indices. -/
def Node.children : Node → List Nat
  | .leaf _ _ => []
  | .internal _ l r => [l.toNat, r.toNat]

/-- The symbols present in a table of counts, in ascending order (R17). -/
def presentSymbols (freq : Byte → Count) : List Byte := allSymbols.filter fun a => decide (0 < freq a)

/-- The sum of all counts. -/
def totalCount (freq : Byte → Count) : Nat := (allSymbols.map fun a => (freq a).toNat).sum

/-- The leaves TB.BUILD allocates for a table of counts (R121). -/
def leavesFor (freq : Byte → Count) : List Node :=
  (presentSymbols freq).map fun a => .leaf ((freq a).setWidth 40) a

/-- The arena holds a complete tree over `n` leaves (R29, R125, R127). -/
structure ArenaOk (node : List Node) (root : Ref) (n : Nat) : Prop where
  /-- 1 ≤ `n` ≤ 256 -/
  bounds : 1 ≤ n ∧ n ≤ 256
  /-- `node_count` = 2`n` − 1 -/
  count : node.length = 2 * n - 1
  /-- `tb_root` = 2`n` − 2 -/
  root_last : root.toNat = 2 * n - 2
  /-- references 0 to `n`−1 are leaves, of weight greater than 0 -/
  leaves : ∀ k, k < n → ∃ w a, node[k]? = some (.leaf w a) ∧ 0 < w
  /-- in ascending symbol order -/
  ascending : ∀ (j k : Nat) w w' (a b : Byte), j < k →
    node[j]? = some (.leaf w a) → node[k]? = some (.leaf w' b) → a < b
  /-- references `n` to 2`n`−2 are internal, both children at smaller references -/
  internals : ∀ k, n ≤ k → k < 2 * n - 1 →
    ∃ w l r, node[k]? = some (.internal w l r) ∧ l.toNat < k ∧ r.toNat < k
  /-- an internal record's weight is the sum of its children's -/
  sums : ∀ (k : Nat) w l r, node[k]? = some (.internal w l r) →
    ∃ a b, nodeOf node l = some a ∧ nodeOf node r = some b
      ∧ w.toNat = a.weight.toNat + b.weight.toNat
  /-- the weights of the internal records are non-decreasing in reference order -/
  ordered : ∀ (j k : Nat) a b, n ≤ j → j ≤ k → node[j]? = some a → node[k]? = some b →
    a.weight ≤ b.weight
  /-- each reference but the root's is the child of exactly one record -/
  parents : (node.flatMap Node.children).Perm (List.range (2 * n - 2))

/-- Following a code from a record: `0` to the left child, `1` to the right (R131). -/
def follow (node : List Node) : Code → Ref → Option Node
  | [], r => nodeOf node r
  | b :: c, r =>
    match nodeOf node r with
    | some (.internal _ l rr) => follow node c (if b then rr else l)
    | _ => none

/-- The path `c` from `r` ends at the leaf of symbol `a`. -/
def LeadsTo (node : List Node) (r : Ref) (c : Code) (a : Byte) : Prop :=
  ∃ w, follow node c r = some (.leaf w a)

/-- A reference not yet in the tree under any record before `k`: what the selector holds when record `k`
is made (R121). -/
def PendingBefore (node : List Node) (k j : Nat) : Prop :=
  j < k ∧ j ∉ (node.take k).flatMap Node.children

/-- The selector's key of a reference (R112): its record's weight, then the reference. -/
def keyOf (node : List Node) (j : Nat) : Entry :=
  ⟨((node[j]?).map Node.weight).getD 0, BitVec.ofNat 9 j⟩

/-- The bits it takes to write every counted symbol by its code: the sum of `freq[s]` · `len(s)` (R128). -/
def codeCost (freq : Byte → Count) (code : Byte → Option Code) : Nat :=
  (allSymbols.map fun a => (freq a).toNat * ((code a).getD []).length).sum

/-! ### The invariant -/

/-- R27: sorted, at most 256 entries. -/
def PqInv (s : State) : Prop := SortedEntries s.pq ∧ s.pq.length ≤ Config.pqCap

/-- R30: with `tb_valid` the arena holds a complete tree; without it nothing has been built since reset. -/
def TbInv (s : State) : Prop :=
  (s.tbValid = true → ∃ n, ArenaOk s.node s.tbRoot n)
    ∧ (s.tbValid = false → s.node = [] ∧ s.tbRoot = 0)

/-- R32, R137: every present code has 1 to 255 bits, and none is a prefix of another symbol's. -/
def CaInv (s : State) : Prop :=
  (∀ a c, s.codeAt a = some c → 1 ≤ c.length ∧ c.length ≤ Config.codeMax)
    ∧ ∀ a b c d, s.codeAt a = some c → s.codeAt b = some d → a ≠ b → ¬ c <+: d

/-- R33, R34, R143: the bits held are right-justified under `bp_n`; `bp_n` counts them; a finalised packer
holds none. -/
def BpInv (s : State) : Prop :=
  s.bpAcc.toNat < 2 ^ s.bpN.toNat
    ∧ (s.bpFinal = true → s.bpN = 0)
    ∧ (s.bpFinal = false → s.bpN.toNat = s.bpTotal.toNat % 8)

/-- R36, R37: the FIFO within its capacity, at most 8 bits left of the current byte, zeros below them. -/
def BuInv (s : State) : Prop :=
  (∀ k, s.buFifoCap = some k → s.buFifo.length ≤ k + 1)
    ∧ s.buLeft.toNat ≤ 8
    ∧ s.buCur.toNat % 2 ^ (8 - s.buLeft.toNat) = 0

/-- R39, R203: `INFO` is 0 but for `FcOverflow`. -/
def SysInv (s : State) : Prop :=
  ∀ l, s.latched = some l → l.cause ≠ .fcOverflow → l.info = 0

/-- The invariant of the machine. -/
structure State.Inv (s : State) : Prop where
  pq : PqInv s
  tb : TbInv s
  ca : CaInv s
  bp : BpInv s
  bu : BuInv s
  sys : SysInv s

/-! ### Runs of commands -/

/-- The commands in order, each executed to completion (R7). -/
def execAll : List Instr → State → Result
  | [], s => .next s
  | i :: is, s =>
    match exec i s with
    | .next t => execAll is t
    | .fault f => .fault f
    | .refused r => .refused r

/-- The response words of a run from `s` to `t`. -/
def newResponses (s t : State) : List Word := t.rsps.drop s.rsps.length

/-- Bit `j` of a byte run, from 0: bit `7 − (j mod 8)` of byte `floor(j / 8)` (R51). -/
def payloadBit (bytes : List Byte) (j : Nat) : Bool := (bytes.getD (j / 8) 0).getLsbD (7 - j % 8)

/-- The responses to one command among those to a list of commands, in order. -/
def responsesTo (i : Instr) (is : List Instr) (rs : List Word) : List Word :=
  ((is.zip rs).filter fun p => decide (p.1 = i)).map Prod.snd

/-- The bytes BU.FEED commands of the list carry, in order. -/
def fedBytes (is : List Instr) : List Byte :=
  is.filterMap fun i => match i with
    | .buFeed b => some b
    | _ => none

/-- The BU.NEXT commands of the list. -/
def nextCount (is : List Instr) : Nat := is.countP fun i => decide (i = .buNext)

/-- The commands that put a bit sequence through the packer (R145). -/
def packCommands (bits : List (BitVec 1)) : List Instr := .bpClr :: (bits.map .bpPut ++ [.bpFlush])

/-- The payload those commands emitted between `s` and `t`: the bytes answered `OK` by BP.PUT and BP.FLUSH
since BP.CLR, whose own answer is the first (R140). -/
def packedBytes (s t : State) : List Byte := emittedBytes ((newResponses s t).drop 1)

/-- A step of the machine that does not stop. -/
def SafeStep (s : State) : Prop := ∃ t, step s = .next t

end Sys2Proof.Machine
end

