-- ==== Sys2Proof/Certificates/Slice0/Obligations.lean ====
section
/-! DEFINITION. The statements about HUFFCORE for the provers. Each docstring names the rule it formalises.
The words they use are in Sys2Proof/Safety.lean. -/

open Sys2Proof Sys2Proof.Machine

/-! ### Encoding (30_encoding.md) -/

/-- R70 to R72, R76: no operand bit is dropped between encoding and decoding, for every command. -/
def Obligations.DecodeOfEncode : Prop :=
  ∀ i : Instr, decode (encode i) = .ok i

/-- R70, R71, R76: a legal word is the encoding of the command it decodes to; the decoder ignores no bit. -/
def Obligations.EncodeOfDecode : Prop :=
  ∀ (c : Word) (i : Instr), decode c = .ok i → encode i = c

/-- R76, R78: a word is legal exactly when it matches a row of R76, and the row it matches is its command's.
-/
def Obligations.LegalWordsMatchTheirRow : Prop :=
  ∀ c : Word,
    ((∃ i, decode c = .ok i) ↔ ∃ r ∈ opRows, r.admits c = true)
      ∧ ∀ i r, decode c = .ok i → r ∈ opRows → (r.admits c = true ↔ r.op = i.op)

/-- R78, its two kinds of illegal word: an opcode byte not in the table (a unit 7 to 15, or an `fn` the unit
does not define), or a listed opcode with a 1 in a must-be-zero bit. -/
def Obligations.IllegalWordsByKind : Prop :=
  ∀ c : Word,
    (decode c = .error .reservedUnit ↔ 7 ≤ c.toNat / 2 ^ 60)
      ∧ (decode c = .error .undefinedFn
          ↔ c.toNat / 2 ^ 60 < 7 ∧ ∀ r ∈ opRows, opField c ≠ opField r.pattern)
      ∧ (decode c = .error .mustBeZero
          ↔ (∃ r ∈ opRows, opField c = opField r.pattern) ∧ ∀ r ∈ opRows, r.admits c = false)

/-- R79 (derived in the spec): two rows with the same opcode byte do not exist, every mask includes bits
63:56, and so a word matches at most one row. -/
def Obligations.TableRowsDisjoint : Prop :=
  (∀ r ∈ opRows, ∀ r' ∈ opRows, opField r.pattern = opField r'.pattern → r = r')
    ∧ (∀ r ∈ opRows, opField r.mask = 0xFF#8)
    ∧ ∀ c : Word, ∀ r ∈ opRows, ∀ r' ∈ opRows, r.admits c = true → r'.admits c = true → r = r'

/-- R77 and vector EN-1: words written out from the encodings decode to the commands they stand for. -/
def Obligations.WrittenOutWordsDecode : Prop :=
  decode 0x0000000000000000#64 = .ok .sysNop
    ∧ decode 0x11000000000000FF#64 = .ok (.fcPut 0xFF)
    ∧ decode 0x2100030000000005#64 = .ok (.pqAdd 5 3)
    ∧ decode 0x32000000000001FF#64 = .ok (.tbWeight 511)
    ∧ decode 0x4200000000000162#64 = .ok (.caBit 0x62 1)
    ∧ decode 0x5100000000000001#64 = .ok (.bpPut 1)
    ∧ decode 0x6000FFFFFFFFFFFF#64 = .ok (.buStart 0xFFFFFFFFFFFF)

/-- R70 to R72, R76: the word of each command as a number: its opcode byte in bits 63:56 and its operands,
unsigned and as they stand, where its format puts them. -/
def Obligations.OperandsStandInTheirFields : Prop :=
  (encode .sysNop).toNat = 0x00 * 2 ^ 56 ∧ (encode .sysReset).toNat = 0x01 * 2 ^ 56
    ∧ (encode .sysStatus).toNat = 0x02 * 2 ^ 56
    ∧ (encode .fcClr).toNat = 0x10 * 2 ^ 56
    ∧ (∀ a : Byte, (encode (.fcPut a)).toNat = 0x11 * 2 ^ 56 + a.toNat)
    ∧ (∀ a : Byte, (encode (.fcGet a)).toNat = 0x12 * 2 ^ 56 + a.toNat)
    ∧ (encode .pqClr).toNat = 0x20 * 2 ^ 56
    ∧ (∀ (w : Weight) (r : Ref), (encode (.pqAdd w r)).toNat = 0x21 * 2 ^ 56 + r.toNat * 2 ^ 40 + w.toNat)
    ∧ (encode .pqRem).toNat = 0x22 * 2 ^ 56 ∧ (encode .pqLen).toNat = 0x23 * 2 ^ 56
    ∧ (encode .tbBuild).toNat = 0x30 * 2 ^ 56 ∧ (encode .tbRoot).toNat = 0x31 * 2 ^ 56
    ∧ (∀ r : Ref, (encode (.tbWeight r)).toNat = 0x32 * 2 ^ 56 + r.toNat)
    ∧ (∀ r : Ref, (encode (.tbLink r)).toNat = 0x33 * 2 ^ 56 + r.toNat)
    ∧ (encode .caAssign).toNat = 0x40 * 2 ^ 56
    ∧ (∀ a : Byte, (encode (.caLen a)).toNat = 0x41 * 2 ^ 56 + a.toNat)
    ∧ (∀ a k : Byte, (encode (.caBit a k)).toNat = 0x42 * 2 ^ 56 + k.toNat * 2 ^ 8 + a.toNat)
    ∧ (encode .bpClr).toNat = 0x50 * 2 ^ 56
    ∧ (∀ b : BitVec 1, (encode (.bpPut b)).toNat = 0x51 * 2 ^ 56 + b.toNat)
    ∧ (encode .bpFlush).toNat = 0x52 * 2 ^ 56 ∧ (encode .bpCount).toNat = 0x53 * 2 ^ 56
    ∧ (∀ n : BitCount, (encode (.buStart n)).toNat = 0x60 * 2 ^ 56 + n.toNat)
    ∧ (∀ a : Byte, (encode (.buFeed a)).toNat = 0x61 * 2 ^ 56 + a.toNat)
    ∧ (encode .buNext).toNat = 0x62 * 2 ^ 56 ∧ (encode .buRem).toNat = 0x63 * 2 ^ 56

/-- R73, R74: the response word as a number, field by field, and that two different responses are two
different words. -/
def Obligations.ResponseWordLayout : Prop :=
  (∀ v : Value, (Response.ok v).word.toNat = v.toNat)
    ∧ Response.none.word.toNat = 1 * 2 ^ 62
    ∧ (∀ (c : Cause) (k : Byte), (Response.err c k).word.toNat = 2 * 2 ^ 62 + c.code.toNat * 2 ^ 56 + k.toNat)
    ∧ Response.refused.word.toNat = 3 * 2 ^ 62
    ∧ ∀ r r' : Response, r.word = r'.word → r = r'

/-- R81: the line of a command is well formed and assembles to it, and only well-formed lines assemble. The
reading of a line as an operation and numbers is the model's (log 9). -/
def Obligations.LinesAssembleToTheirCommand : Prop :=
  (∀ i : Instr, i.line.wellFormed = true ∧ assemble i.line = some i)
    ∧ ∀ l : AsmLine, l.wellFormed = true ↔ ∃ i, assemble l = some i ∧ i.op = l.op

/-! ### A step (00_scope.md R6 to R8, R14) -/

/-- R7, R8: the block executes the command the host presents. What the host will present is the model's list
`inputs` (log 1). -/
def Obligations.StepRunsDecodedCommand : Prop :=
  ∀ (s : State) (c : Word) (rest : List HostInput) (i : Instr),
    s.inputs = .command c :: rest → decode c = .ok i → step s = exec i { s with inputs := rest }

/-- R78: a word is illegal exactly when it matches no row of R76; an illegal word is answered `REFUSED`,
cause 0, value 0, and changes no state; it does not fault, whether the block is faulted or not. -/
def Obligations.StepRefusesIllegalWord : Prop :=
  ∀ (s : State) (c : Word) (rest : List HostInput), s.inputs = .command c :: rest →
    ((∃ e, decode c = .error e) ↔ ∀ r ∈ opRows, r.admits c = false)
      ∧ ((∀ r ∈ opRows, r.admits c = false) →
        step s = .next { s with inputs := rest, rsps := s.rsps ++ [0xC000000000000000#64] })

/-- R216: with nothing presented the state is held. That waiting is a step at all is the model's choice (log
1). -/
def Obligations.IdleStepHoldsTheState : Prop :=
  ∀ s : State, s.inputs = [] → step s = .next s

/-- R7: a command produces exactly one response; the host's next command is the next one presented, and the
parameter never changes. -/
def Obligations.EachCommandAnswersOnce : Prop :=
  ∀ (s t : State) (c : Word) (rest : List HostInput),
    s.inputs = .command c :: rest → step s = .next t →
      t.inputs = rest ∧ (∃ w : Word, t.rsps = s.rsps ++ [w]) ∧ t.buFifoCap = s.buFifoCap

/-! ### Faults and refusals (60_exceptions.md) -/

/-- R206: while `FAULTED` = 1 every command except a legally encoded SYS.STATUS or SYS.RESET is REFUSED and
changes nothing. -/
def Obligations.FaultedBlockRefuses : Prop :=
  ∀ (s : State) (c : Word) (rest : List HostInput),
    s.inputs = .command c :: rest → s.faulted = true →
    decode c ≠ .ok .sysStatus → decode c ≠ .ok .sysReset →
      step s = .next { s with inputs := rest, rsps := s.rsps ++ [0xC000000000000000#64] }

/-- R205: fault entry writes `FAULTED`, `CAUSE`, `INFO` and nothing else; the response is `ERR` with the
cause and the zero-extended info. -/
def Obligations.FaultEntryWritesOnlyTheFault : Prop :=
  ∀ (i : Instr) (s t : State), s.faulted = false → exec i s = .next t → t.faulted = true →
    ∃ (c : Cause) (k : Byte) (w : Word),
      t = { s with latched := some ⟨c, k⟩, rsps := s.rsps ++ [w] }
        ∧ t.causeBits = c.code ∧ t.infoBits = k
        ∧ w.toNat = 2 * 2 ^ 62 + c.code.toNat * 2 ^ 56 + k.toNat

/-- R203: the causes, their codes, the command that raises each, its condition and its `INFO`; no other
command raises a fault, and without a fault the code and the info are 0. (BP.PUT's precondition `bp_final` =
0 comes before its fault condition, R14.) -/
def Obligations.FaultCausesAreTheTable : Prop :=
  (Cause.emptyInput.code = 1 ∧ Cause.corrupt.code = 2 ∧ Cause.fcOverflow.code = 3
      ∧ Cause.bpOverflow.code = 4)
    ∧ (∀ s : State, s.faulted = false → s.causeBits = 0 ∧ s.infoBits = 0)
    ∧ ∀ (i : Instr) (s : State) (c : Cause) (k : Byte), s.faulted = false →
      ((∃ t, exec i s = .next t ∧ t.latched = some ⟨c, k⟩)
        ↔ (c = .emptyInput ∧ k = 0 ∧ i = .tbBuild ∧ ∀ a, s.freqAt a = 0)
          ∨ (c = .corrupt ∧ k = 0 ∧ i = .buNext ∧ s.buRem ≠ 0 ∧ s.buLeft = 0 ∧ s.buFifo = [])
          ∨ (c = .fcOverflow ∧ i = .fcPut k ∧ (s.freqAt k).toNat = 2 ^ 32 - 1)
          ∨ (c = .bpOverflow ∧ k = 0 ∧ (∃ b, i = .bpPut b) ∧ s.bpFinal = false
              ∧ s.bpTotal.toNat = 2 ^ 48 - 1))

/-- R207: the only way out of the faulted state is SYS.RESET or hardware reset, which clear `FAULTED`,
`CAUSE`, `INFO` together with all other state; a faulted block keeps the first fault. -/
def Obligations.OnlyResetLeavesTheFaultedState : Prop :=
  ∀ s t : State, s.faulted = true → step s = .next t →
    (t.faulted = true ∧ t.latched = s.latched)
      ∨ (BlockReset t
        ∧ ((∃ rest, s.inputs = .hardReset :: rest)
          ∨ ∃ c rest, s.inputs = .command c :: rest ∧ decode c = .ok .sysReset))

/-- R209: the complete list of refusals (a) to (f); a refused command answers `REFUSED`, cause 0, value 0,
and writes nothing. -/
def Obligations.RefusalsAreTheListed : Prop :=
  ∀ (s : State) (c : Word) (rest : List HostInput) (t : State),
    s.inputs = .command c :: rest → step s = .next t →
      (t.rsps = s.rsps ++ [0xC000000000000000#64]
        ↔ (s.faulted = true ∧ decode c ≠ .ok .sysStatus ∧ decode c ≠ .ok .sysReset)
          ∨ (∃ e, decode c = .error e)
          ∨ ((∃ w r, decode c = .ok (.pqAdd w r)) ∧ 256 ≤ s.pq.length)
          ∨ (decode c = .ok .caAssign ∧ s.tbValid = false)
          ∨ (((∃ b, decode c = .ok (.bpPut b)) ∨ decode c = .ok .bpFlush) ∧ s.bpFinal = true)
          ∨ ((∃ b, decode c = .ok (.buFeed b)) ∧ FifoFull s))
      ∧ (t.rsps = s.rsps ++ [0xC000000000000000#64] →
          t = { s with inputs := rest, rsps := s.rsps ++ [0xC000000000000000#64] })

/-- R56 (derived in the spec): the read-out commands are idempotent: executing one twice in a row gives the
same response twice and leaves the state as it was. -/
def Obligations.ReadOutsAreIdempotent : Prop :=
  ∀ (i : Instr) (s : State), readOut i = true →
    ∃ w : Word, exec i s = .next { s with rsps := s.rsps ++ [w] }
      ∧ exec i { s with rsps := s.rsps ++ [w] } = .next { s with rsps := s.rsps ++ [w] ++ [w] }

/-- R20, and R25 to R39, their "Written by": every element is written only by the commands its rule lists.
-/
def Obligations.UnitsWriteOnlyTheirOwnState : Prop :=
  ∀ (i : Instr) (s t : State), exec i s = .next t → OnlyParts (mayWrite i) s t

/-! ### FC (40_frequency_counter.md) -/

/-- R102: FC.PUT adds one to its symbol's count and touches nothing else; at the greatest count it takes
`FcOverflow` with the symbol and the count stays. -/
def Obligations.FcPutAddsOne : Prop :=
  ∀ (a : Byte) (s : State), s.faulted = false →
    ((s.freqAt a).toNat ≠ 2 ^ 32 - 1 →
      ∃ t, Answers (.fcPut a) s (.ok 0) t ∧ OnlyParts [.fc] s t
        ∧ (t.freqAt a).toNat = (s.freqAt a).toNat + 1
        ∧ ∀ b, b ≠ a → t.freqAt b = s.freqAt b)
    ∧ ((s.freqAt a).toNat = 2 ^ 32 - 1 → ∃ t, TakesFault (.fcPut a) s .fcOverflow a t)

/-- R101: FC.CLR sets every count to 0 and touches nothing else. -/
def Obligations.FcClrClearsEveryCount : Prop :=
  ∀ s : State, s.faulted = false →
    ∃ t, Answers .fcClr s (.ok 0) t ∧ OnlyParts [.fc] s t ∧ ∀ a, t.freqAt a = 0

/-- R103: FC.GET answers `OK` with the count, for every symbol, and writes nothing. -/
def Obligations.FcGetReadsTheCount : Prop :=
  ∀ (a : Byte) (s : State), s.faulted = false →
    ∃ v t, Answers (.fcGet a) s (.ok v) t ∧ OnlyParts [] s t ∧ v.toNat = (s.freqAt a).toNat

/-! ### PQ (41_priority_queue.md) -/

/-- R111, R115: PQ.ADD puts one more copy of the entry into the multiset while there is room, whatever `ref`
names; a full selector refuses it and keeps its entries. That a sorted selector stays sorted is about the
model's own arrangement of the entries (log 5, DEDUCED), which R27 calls no architectural state. -/
def Obligations.PqAddInsertsOneCopy : Prop :=
  ∀ (w : Weight) (r : Ref) (s : State), s.faulted = false →
    (s.pq.length < 256 →
      ∃ t, Answers (.pqAdd w r) s (.ok 0) t ∧ OnlyParts [.pq] s t ∧ t.pq.Perm (⟨w, r⟩ :: s.pq)
        ∧ (SortedEntries s.pq → SortedEntries t.pq))
    ∧ (256 ≤ s.pq.length → ∃ t, Answers (.pqAdd w r) s .refused t ∧ OnlyParts [] s t)

/-- R112, R116: PQ.REM removes one copy of a least entry and answers it, `ref` above `w`; on an empty
selector it answers `NONE` and is no fault. That the selector is sorted before and stays sorted is about the
model's own arrangement of the entries (log 5, DEDUCED), which R27 calls no architectural state. -/
def Obligations.PqRemReturnsTheLeast : Prop :=
  ∀ s : State, s.faulted = false → SortedEntries s.pq →
    (s.pq = [] → ∃ t, Answers .pqRem s .none t ∧ OnlyParts [] s t)
    ∧ (s.pq ≠ [] →
      ∃ e v t, Answers .pqRem s (.ok v) t ∧ OnlyParts [.pq] s t ∧ LeastEntry e s.pq
        ∧ s.pq.Perm (e :: t.pq) ∧ SortedEntries t.pq
        ∧ v.toNat = e.ref.toNat * 2 ^ 40 + e.w.toNat)

/-- R114, R117: PQ.CLR empties the selector; PQ.LEN answers the number of entries. -/
def Obligations.PqClrAndLen : Prop :=
  ∀ s : State, s.faulted = false →
    (∃ t, Answers .pqClr s (.ok 0) t ∧ OnlyParts [.pq] s t ∧ t.pq = [])
    ∧ (s.pq.length ≤ 256 →
      ∃ v t, Answers .pqLen s (.ok v) t ∧ OnlyParts [] s t ∧ v.toNat = s.pq.length)

/-- R118 (derived in the spec): after any sequence of PQ.ADD and PQ.REM, the pairs the PQ.REM commands
return come out in non-decreasing order of weight, and each is a least entry of those present at its
removal. That the selector is sorted before is about the model's own arrangement of the entries (log 5). -/
def Obligations.RemovalsComeOutInOrder : Prop :=
  ∀ (is : List Instr) (k : Nat) (s t : State), s.faulted = false → SortedEntries s.pq →
    (∀ i ∈ is, (∃ w r, i = .pqAdd w r) ∨ i = .pqRem) → execAll is s = .next t →
      ∃ (out : List Entry) (u : State),
        execAll (List.replicate k .pqRem) t = .next u
          ∧ newResponses t u = out.map (fun e => (Response.ok e.value).word)
              ++ List.replicate (k - out.length) Response.none.word
          ∧ t.pq.Perm (out ++ u.pq)
          ∧ (out.length < k → u.pq = [])
          ∧ out.Pairwise (fun a b => a.w.toNat ≤ b.w.toNat)
          ∧ ∀ j e, out[j]? = some e → LeastEntry e (out.drop j ++ u.pq)

/-! ### TB (42_tree_builder.md) -/

/-- R121: with a present symbol TB.BUILD completes: it answers `node_count` and `tb_root`, makes the tree
valid, leaves the selector empty, and changes nothing but the arena and the selector. -/
def Obligations.BuildCompletes : Prop :=
  ∀ s : State, s.faulted = false → (∃ a, s.freqAt a ≠ 0) →
    ∃ v t, Answers .tbBuild s (.ok v) t ∧ OnlyParts [.pq, .tb] s t
      ∧ t.pq = [] ∧ t.tbValid = true
      ∧ v.toNat = t.nodeCount.toNat * 2 ^ 16 + t.tbRoot.toNat
      ∧ t.nodeCount.toNat = t.node.length

/-- R125 (derived in the spec): the shape of the arena after a successful TB.BUILD, with `n` the number of
present symbols. -/
def Obligations.BuiltTreeHasItsShape : Prop :=
  ∀ s t : State, s.faulted = false → exec .tbBuild s = .next t → t.faulted = false →
    let n := (presentSymbols s.freqAt).length
    1 ≤ n ∧ n ≤ 256
      ∧ t.nodeCount.toNat = 2 * n - 1 ∧ t.node.length = 2 * n - 1 ∧ t.tbRoot.toNat = 2 * n - 2
      ∧ (∀ k, k < n → ∃ w a, t.node[k]? = some (Node.leaf w a))
      ∧ (∀ (j k : Nat) w w' (a b : Byte), j < k →
          t.node[j]? = some (Node.leaf w a) → t.node[k]? = some (Node.leaf w' b) → a < b)
      ∧ (∀ k, n ≤ k → k < 2 * n - 1 → ∃ w l r, t.node[k]? = some (Node.internal w l r)
          ∧ l.toNat < k ∧ r.toNat < k
          ∧ ∃ x y, t.nodeAt l = some x ∧ t.nodeAt r = some y
            ∧ w.toNat = x.weight.toNat + y.weight.toNat)
      ∧ ∀ (j k : Nat) x y, n ≤ j → j ≤ k → t.node[j]? = some x → t.node[k]? = some y →
          x.weight.toNat ≤ y.weight.toNat

/-- R126: the root's weight equals the sum of all `freq[s]`, which is the number of FC.PUT commands since
the last clear. -/
def Obligations.RootWeightIsTheTotalCount : Prop :=
  (∀ s t : State, s.faulted = false → exec .tbBuild s = .next t → t.faulted = false →
      ∃ x, t.nodeAt t.tbRoot = some x ∧ x.weight.toNat = totalCount s.freqAt)
    ∧ ∀ (text : List Byte) (s t : State), s.faulted = false →
      execAll (.fcClr :: (fcPuts text ++ [.tbBuild])) s = .next t → t.faulted = false →
        ∃ x, t.nodeAt t.tbRoot = some x ∧ x.weight.toNat = text.length

/-- R127: the set of leaves equals the set of present symbols, one leaf each, of the symbol's count. -/
def Obligations.LeavesAreThePresentSymbols : Prop :=
  ∀ s t : State, s.faulted = false → exec .tbBuild s = .next t → t.faulted = false →
    (∀ a : Byte, (∃ (k : Nat) (w : Weight), t.node[k]? = some (Node.leaf w a)) ↔ s.freqAt a ≠ 0)
      ∧ (∀ (j k : Nat) w w' (a : Byte),
          t.node[j]? = some (Node.leaf w a) → t.node[k]? = some (Node.leaf w' a) → j = k)
      ∧ ∀ (k : Nat) w a, t.node[k]? = some (Node.leaf w a) → w.toNat = (s.freqAt a).toNat

/-- R120, R121 with R112: each internal record joins, of the trees pending when it was made, the least as
its left child and the next as its right child, in the order by weight and then by reference. -/
def Obligations.MergesTakeTheTwoLeast : Prop :=
  ∀ s t : State, s.faulted = false → exec .tbBuild s = .next t → t.faulted = false →
    ∀ (k : Nat) w l r, t.node[k]? = some (Node.internal w l r) →
      PendingBefore t.node k l.toNat ∧ PendingBefore t.node k r.toNat
        ∧ (keyOf t.node l.toNat).lt (keyOf t.node r.toNat) = true
        ∧ ∀ j, PendingBefore t.node k j → j ≠ l.toNat → j ≠ r.toNat →
            (keyOf t.node r.toNat).lt (keyOf t.node j) = true

/-- R29, its last part (derived in the spec): each reference is the child of at most one record, and every
reference but the root's of exactly one. -/
def Obligations.EachRecordHasOneParent : Prop :=
  ∀ s t : State, s.faulted = false → exec .tbBuild s = .next t → t.faulted = false →
    (t.node.flatMap Node.children).Nodup
      ∧ ∀ j, j ∈ t.node.flatMap Node.children ↔ j < t.node.length ∧ j ≠ t.tbRoot.toNat

/-- R119, R121, R139 (the last derived in the spec): what TB.BUILD and then CA.ASSIGN leave depends on the
counts alone: not on the old selector, the old arena or the old code table. -/
def Obligations.TreeAndTableDependOnCountsAlone : Prop :=
  ∀ s s' t t' : State, s.faulted = false → s'.faulted = false →
    (∀ a, s.freqAt a = s'.freqAt a) → exec .tbBuild s = .next t → exec .tbBuild s' = .next t' →
      (t.faulted = false → t.node = t'.node ∧ t.tbRoot = t'.tbRoot ∧ t.tbValid = t'.tbValid
        ∧ t.pq = t'.pq ∧ newResponses s t = newResponses s' t')
      ∧ ∀ u u' : State, t.faulted = false → exec .caAssign t = .next u → exec .caAssign t' = .next u' →
          u.code = u'.code ∧ newResponses t u = newResponses t' u'

/-- R122 to R124: the tree read-outs answer `NONE` without a tree or past `node_count`, else the fields of
the record; they write nothing. -/
def Obligations.TreeReadOuts : Prop :=
  ∀ s : State, s.faulted = false → s.node.length ≤ 511 →
    (s.tbValid = false → ∃ t, Answers .tbRoot s .none t ∧ OnlyParts [] s t)
    ∧ (s.tbValid = true → ∃ v t, Answers .tbRoot s (.ok v) t ∧ OnlyParts [] s t
        ∧ v.toNat = s.node.length * 2 ^ 16 + s.tbRoot.toNat)
    ∧ ∀ r : Ref,
      ((s.tbValid = false ∨ s.node.length ≤ r.toNat) →
        (∃ t, Answers (.tbWeight r) s .none t ∧ OnlyParts [] s t)
          ∧ ∃ t, Answers (.tbLink r) s .none t ∧ OnlyParts [] s t)
      ∧ ∀ x, s.tbValid = true → s.node[r.toNat]? = some x →
        (∃ v t, Answers (.tbWeight r) s (.ok v) t ∧ OnlyParts [] s t ∧ v.toNat = x.weight.toNat)
          ∧ ∃ v t, Answers (.tbLink r) s (.ok v) t ∧ OnlyParts [] s t
            ∧ (∀ w a, x = Node.leaf w a → v.toNat = a.toNat)
            ∧ ∀ w l rr, x = Node.internal w l rr → v.toNat = 2 ^ 18 + rr.toNat * 2 ^ 9 + l.toNat

/-! ### CA (43_code_assigner.md) -/

/-- R133: without a tree CA.ASSIGN is REFUSED and leaves the table; with the complete tree of TB.BUILD it
completes, answers the greatest length of a present code, 1 to 255, and changes nothing but the table. -/
def Obligations.AssignCompletes : Prop :=
  ∀ s : State, s.faulted = false →
    (s.tbValid = false → ∃ t, Answers .caAssign s .refused t ∧ OnlyParts [] s t)
    ∧ ∀ n, s.tbValid = true → ArenaOk s.node s.tbRoot n →
      ∃ v t, Answers .caAssign s (.ok v) t ∧ OnlyParts [.ca] s t
        ∧ 1 ≤ v.toNat ∧ v.toNat ≤ 255
        ∧ (∃ a c, t.codeAt a = some c ∧ c.length = v.toNat)
        ∧ ∀ a c, t.codeAt a = some c → c.length ≤ v.toNat

/-- R131, R132: the code of a symbol is its root-to-leaf path, `0` left and `1` right; a root that is a leaf
gets the one-bit code `0`; a symbol without a leaf is `absent`. -/
def Obligations.CodesArePaths : Prop :=
  ∀ (s t : State) (n : Nat), s.faulted = false → s.tbValid = true → ArenaOk s.node s.tbRoot n →
    exec .caAssign s = .next t →
      (n = 1 → ∃ w b, s.nodeAt s.tbRoot = some (Node.leaf w b)
        ∧ ∀ a, t.codeAt a = if a = b then some [false] else none)
      ∧ (2 ≤ n → ∀ a c, t.codeAt a = some c ↔ LeadsTo s.node s.tbRoot c a)

/-- R136: after TB.BUILD and CA.ASSIGN a code is present exactly for the symbols on the leaves of the tree,
that is the symbols present in `FREQ` when TB.BUILD ran. -/
def Obligations.CodesCoverThePresentSymbols : Prop :=
  ∀ s t u : State, s.faulted = false → exec .tbBuild s = .next t → t.faulted = false →
    exec .caAssign t = .next u → ∀ a,
      ((∃ c, u.codeAt a = some c) ↔ ∃ (k : Nat) (w : Weight), t.node[k]? = some (Node.leaf w a))
        ∧ ((∃ c, u.codeAt a = some c) ↔ s.freqAt a ≠ 0)

/-- R137: no code of an assigned table is a prefix of a different symbol's code. -/
def Obligations.CodesArePrefixFree : Prop :=
  ∀ (s t : State) (n : Nat), s.faulted = false → s.tbValid = true → ArenaOk s.node s.tbRoot n →
    exec .caAssign s = .next t →
      ∀ a b c d, t.codeAt a = some c → t.codeAt b = some d → a ≠ b → ¬ c <+: d

/-- R128 and G1 (general knowledge, which the spec marks as not in its source): the tree is a Huffman tree;
no prefix code for the present symbols costs less than the one TB.BUILD and CA.ASSIGN leave. A code here has
at least one bit for each present symbol, as R138 says of every present code; with two or more symbols that
is no restriction. -/
def Obligations.HuffmanCodeIsOptimal : Prop :=
  ∀ (s t u : State) (other : Byte → Option Code), s.faulted = false →
    exec .tbBuild s = .next t → t.faulted = false → exec .caAssign t = .next u →
    (∀ a, s.freqAt a ≠ 0 → ∃ c, other a = some c ∧ c ≠ []) →
    (∀ a b c d, s.freqAt a ≠ 0 → s.freqAt b ≠ 0 → a ≠ b →
      other a = some c → other b = some d → ¬ c <+: d) →
      codeCost s.freqAt u.codeAt ≤ codeCost s.freqAt other

/-- R134, R135: CA.LEN and CA.BIT answer `NONE` for an absent entry or an index past the code, else the
length or the bit; they write nothing. -/
def Obligations.CodeReadOuts : Prop :=
  ∀ (a : Byte) (s : State), s.faulted = false →
    (s.codeAt a = none → (∃ t, Answers (.caLen a) s .none t ∧ OnlyParts [] s t)
      ∧ ∀ k, ∃ t, Answers (.caBit a k) s .none t ∧ OnlyParts [] s t)
    ∧ ∀ bits : Code, s.codeAt a = some bits → bits.length ≤ 255 →
      (∃ v t, Answers (.caLen a) s (.ok v) t ∧ OnlyParts [] s t ∧ v.toNat = bits.length)
      ∧ ∀ k : Byte,
        (bits.length ≤ k.toNat → ∃ t, Answers (.caBit a k) s .none t ∧ OnlyParts [] s t)
        ∧ ∀ b, bits[k.toNat]? = some b →
          ∃ v t, Answers (.caBit a k) s (.ok v) t ∧ OnlyParts [] s t ∧ v.toNat = b.toNat

/-! ### BP (44_bit_packer.md) -/

/-- R142: BP.PUT shifts the bit in from the right; the eighth bit of a byte emits it, the others answer
`NONE`; a finalised packer refuses it; at the greatest bit count it takes `BpOverflow`. -/
def Obligations.BpPutShiftsTheBitIn : Prop :=
  ∀ (b : BitVec 1) (s : State), s.faulted = false →
    (s.bpFinal = true → ∃ t, Answers (.bpPut b) s .refused t ∧ OnlyParts [] s t)
    ∧ (s.bpFinal = false → s.bpTotal.toNat = 2 ^ 48 - 1 → ∃ t, TakesFault (.bpPut b) s .bpOverflow 0 t)
    ∧ (s.bpFinal = false → s.bpTotal.toNat ≠ 2 ^ 48 - 1 → s.bpAcc.toNat < 2 ^ s.bpN.toNat →
      ∃ r t, Answers (.bpPut b) s r t ∧ OnlyParts [.bp] s t
        ∧ t.bpTotal.toNat = s.bpTotal.toNat + 1 ∧ t.bpFinal = false
        ∧ (s.bpN = 7 → t.bpAcc = 0 ∧ t.bpN = 0
            ∧ ∃ v, r = .ok v ∧ v.toNat = 2 * s.bpAcc.toNat + b.toNat)
        ∧ (s.bpN ≠ 7 → r = .none ∧ t.bpN.toNat = s.bpN.toNat + 1
            ∧ t.bpAcc.toNat = 2 * s.bpAcc.toNat + b.toNat))

/-- R143: BP.FLUSH finalises; with bits pending it emits them left-justified over zeros, with none it emits
nothing; the bit count is not changed; a finalised packer refuses it. -/
def Obligations.BpFlushPadsWithZeros : Prop :=
  ∀ s : State, s.faulted = false →
    (s.bpFinal = true → ∃ t, Answers .bpFlush s .refused t ∧ OnlyParts [] s t)
    ∧ (s.bpFinal = false → s.bpAcc.toNat < 2 ^ s.bpN.toNat →
      ∃ r t, Answers .bpFlush s r t ∧ OnlyParts [.bp] s t
        ∧ t.bpFinal = true ∧ t.bpTotal = s.bpTotal
        ∧ (s.bpN = 0 → r = .none ∧ t.bpAcc = s.bpAcc ∧ t.bpN = 0)
        ∧ (s.bpN ≠ 0 → t.bpAcc = 0 ∧ t.bpN = 0
            ∧ ∃ v, r = .ok v ∧ v.toNat = s.bpAcc.toNat * 2 ^ (8 - s.bpN.toNat)))

/-- R141, R144: BP.CLR clears the packer and leaves the finalised state; BP.COUNT answers the bit count,
before and after BP.FLUSH. -/
def Obligations.BpClrAndCount : Prop :=
  ∀ s : State, s.faulted = false →
    (∃ t, Answers .bpClr s (.ok 0) t ∧ OnlyParts [.bp] s t
      ∧ t.bpAcc = 0 ∧ t.bpN = 0 ∧ t.bpTotal = 0 ∧ t.bpFinal = false)
    ∧ ∃ v t, Answers .bpCount s (.ok v) t ∧ OnlyParts [] s t ∧ v.toNat = s.bpTotal.toNat

/-- R145, R146 (derived in the spec): after BP.CLR, `k` BP.PUT commands and BP.FLUSH, `ceil(k / 8)` bytes
have been emitted, `bp_total` = `k`, and byte `j` is the sum of `bit(8j+i) · 2^(7−i)`, with 0 past the last
bit. -/
def Obligations.PackedPayloadIsTheBitSequence : Prop :=
  ∀ (s : State) (bits : List (BitVec 1)), s.faulted = false → bits.length < 2 ^ 48 →
    ∃ t, execAll (packCommands bits) s = .next t
      ∧ t.bpTotal.toNat = bits.length
      ∧ (packedBytes s t).length = (bits.length + 7) / 8
      ∧ ∀ j b, (packedBytes s t)[j]? = some b →
          b.toNat = ((List.range 8).map fun i => (bits.getD (8 * j + i) 0).toNat * 2 ^ (7 - i)).sum

/-! ### BU (45_bit_unpacker.md) -/

/-- R151, R152, R154: BU.START empties the unpacker and sets the countdown; BU.FEED appends at the tail
while there is room and is REFUSED when full; BU.REM answers the countdown. -/
def Obligations.BuStartFeedAndRem : Prop :=
  ∀ s : State, s.faulted = false →
    (∀ n : BitCount, ∃ t, Answers (.buStart n) s (.ok 0) t ∧ OnlyParts [.bu] s t
      ∧ t.buFifo = [] ∧ t.buCur = 0 ∧ t.buLeft = 0 ∧ t.buRem = n)
    ∧ (∀ b : Byte,
      (¬ FifoFull s → ∃ t, Answers (.buFeed b) s (.ok 0) t ∧ OnlyParts [.bu] s t
        ∧ t.buFifo = s.buFifo ++ [b] ∧ t.buCur = s.buCur ∧ t.buLeft = s.buLeft ∧ t.buRem = s.buRem)
      ∧ (FifoFull s → ∃ t, Answers (.buFeed b) s .refused t ∧ OnlyParts [] s t))
    ∧ ∃ v t, Answers .buRem s (.ok v) t ∧ OnlyParts [] s t ∧ v.toNat = s.buRem.toNat

/-- R153: BU.NEXT answers `NONE` at countdown 0 and changes nothing; otherwise it fetches a byte only if
none of the current one is left, returns its bit 7 and counts down; with no byte to fetch it takes
`Corrupt`. -/
def Obligations.BuNextReturnsTheNextBit : Prop :=
  ∀ s : State, s.faulted = false →
    (s.buRem = 0 → ∃ t, Answers .buNext s .none t ∧ OnlyParts [] s t)
    ∧ (s.buRem ≠ 0 → s.buLeft = 0 → s.buFifo = [] → ∃ t, TakesFault .buNext s .corrupt 0 t)
    ∧ (s.buRem ≠ 0 → s.buLeft ≠ 0 →
      ∃ v t, Answers .buNext s (.ok v) t ∧ OnlyParts [.bu] s t
        ∧ v.toNat = s.buCur.toNat / 2 ^ 7 ∧ t.buCur.toNat = 2 * s.buCur.toNat % 2 ^ 8
        ∧ t.buLeft.toNat = s.buLeft.toNat - 1 ∧ t.buRem.toNat = s.buRem.toNat - 1
        ∧ t.buFifo = s.buFifo)
    ∧ ∀ b rest, s.buRem ≠ 0 → s.buLeft = 0 → s.buFifo = b :: rest →
      ∃ v t, Answers .buNext s (.ok v) t ∧ OnlyParts [.bu] s t
        ∧ v.toNat = b.toNat / 2 ^ 7 ∧ t.buCur.toNat = 2 * b.toNat % 2 ^ 8
        ∧ t.buLeft.toNat = 7 ∧ t.buRem.toNat = s.buRem.toNat - 1 ∧ t.buFifo = rest

/-- R156 (derived in the spec): the `j`-th BU.NEXT after BU.START, `j` < `count`, returns bit `7 − (j mod
8)` of the `floor(j/8)`-th byte fed after that BU.START, however BU.FEED and BU.NEXT are interleaved, as
long as no byte was refused and no byte came too late; further BU.NEXT answer `NONE`. -/
def Obligations.UnpackedBitsAreTheFedBits : Prop :=
  ∀ (s t : State) (count : BitCount) (is : List Instr), s.faulted = false →
    (∀ i ∈ is, (∃ b, i = .buFeed b) ∨ i = .buNext) →
    execAll (.buStart count :: is) s = .next t → t.faulted = false →
    Response.refused.word ∉ newResponses s t →
      responsesTo .buNext is ((newResponses s t).drop 1)
        = (List.range (nextCount is)).map fun j =>
            if j < count.toNat then (Response.ok (bitValue (payloadBit (fedBytes is) j))).word
            else Response.none.word

/-- R155 (derived in the spec): the unpacker is the inverse of the packer: the bits put, then the payload
fed in order, then as many BU.NEXT as there were bits and one more, answer those bits and then `NONE`. The
FIFO has to hold the payload, since all of it is fed first; any other interleaving is
`UnpackedBitsAreTheFedBits`. -/
def Obligations.UnpackerInvertsPacker : Prop :=
  ∀ (s : State) (bits : List (BitVec 1)), s.faulted = false → bits.length < 2 ^ 48 →
    (∀ k, s.buFifoCap = some k → (bits.length + 7) / 8 ≤ k + 1) →
    ∃ t u, execAll (packCommands bits) s = .next t
      ∧ execAll (.buStart (BitVec.ofNat 48 bits.length)
          :: (buFeeds (packedBytes s t) ++ List.replicate (bits.length + 1) .buNext)) t = .next u
      ∧ (newResponses t u).drop (1 + (packedBytes s t).length)
          = bits.map (fun b => (Response.ok (b.setWidth 56)).word) ++ [Response.none.word]

/-! ### SYS, reset (46_system.md, 70_reset_and_hazards.md) -/

/-- R160, R162, R40: SYS.NOP answers `OK(0)` and writes nothing, and is REFUSED while the block is faulted;
SYS.STATUS answers the status register in any state, faulted or not, and writes nothing. -/
def Obligations.NopAndStatus : Prop :=
  ∀ s : State,
    (s.faulted = false → ∃ t, Answers .sysNop s (.ok 0) t ∧ OnlyParts [] s t)
    ∧ (s.faulted = true → ∃ t, Answers .sysNop s .refused t ∧ OnlyParts [] s t)
    ∧ ∃ v t, Answers .sysStatus s (.ok v) t ∧ OnlyParts [] s t
      ∧ v.toNat = s.infoBits.toNat * 2 ^ 16 + s.causeBits.toNat * 2 ^ 8 + s.bpFinal.toNat * 2 ^ 2
          + s.tbValid.toNat * 2 + s.faulted.toNat

/-- R161: SYS.RESET executes in any state, answers `OK(0)`, and gives every element its reset value; the
parameter and what the host will present are no elements. -/
def Obligations.SysResetResetsTheBlock : Prop :=
  ∀ s : State, ∃ t, Answers .sysReset s (.ok 0) t ∧ BlockReset t
    ∧ t.inputs = s.inputs ∧ t.buFifoCap = s.buFifoCap

/-- R230, R231: the reset input, in whatever state, gives every element its reset value and answers nothing;
SYS.RESET has exactly that effect on the state. That a pulse of the input is a step of its own is the
model's choice (log 1). -/
def Obligations.HardwareResetIsSysReset : Prop :=
  ∀ (s : State) (rest : List HostInput), s.inputs = .hardReset :: rest →
    ∃ t, step s = .next t ∧ BlockReset t ∧ t.inputs = rest ∧ t.rsps = s.rsps
      ∧ t.buFifoCap = s.buFifoCap
      ∧ ∃ u, exec .sysReset { s with inputs := rest } = .next u ∧ t = { u with rsps := s.rsps }

/-- R44: after reset and after SYS.RESET every element has the value of the table; no record is in use, and
the status register reads 0. -/
def Obligations.ResetValues : Prop :=
  (BlockReset State.reset ∧ State.reset.statusReg = 0)
    ∧ ∀ s t : State, exec .sysReset s = .next t → BlockReset t ∧ t.statusReg = 0

/-! ### The machine as a whole -/

/-- The invariant holds after reset. -/
def Obligations.ResetMeetsTheInvariant : Prop := State.reset.Inv

/-- R27, R29, R30, R32, R33, R36, R37, R39: from every state that meets the invariant, a step gives a state
that meets it. That the selector is a sorted list is the model's own arrangement (log 5). -/
def Obligations.StepKeepsTheInvariant : Prop :=
  ∀ s t : State, s.Inv → step s = .next t → t.Inv

/-- R242 (derived in the spec): the block cannot hang: in a state that meets the invariant every step gives
a next state, whatever the host presents. -/
def Obligations.InvariantStateAlwaysSteps : Prop :=
  ∀ s : State, s.Inv → SafeStep s

/-! ### The block driven by the host's procedures (47_environment.md) -/

/-- R182: for all non-empty byte sequences with at least two distinct byte values, `decode(encode(x)) == x`,
in whatever states the two procedures start that are not faulted, as long as no byte value occurs 2^32 times
or more (90_conflicts.md C6). That `decompress` feeds as much as the FIFO takes before each BU.NEXT, of the
schedules R178 allows, is the model's choice (log 8); another schedule is not what this speaks of. -/
def Obligations.CompressRoundTrip : Prop :=
  ∀ (x : List Byte) (s s' : State), s.faulted = false → s'.faulted = false →
    (∃ a ∈ x, ∃ b ∈ x, a ≠ b) → (∀ a : Byte, x.count a < 2 ^ 32) →
      ∃ c t u, compress x s = .ok (c, t) ∧ decompress c s' = .ok (x, u)

/-- R183: for `x` composed of one repeated byte value the round trip holds too: `L` zero bits,
`total_bit_count` = `L`, payload `ceil(L/8)` bytes of 0x00. The schedule of feeding is the model's choice, as
in `CompressRoundTrip` (log 8). -/
def Obligations.SingleSymbolRoundTrip : Prop :=
  ∀ (a : Byte) (n : Nat) (s s' : State), s.faulted = false → s'.faulted = false →
    0 < n → n < 2 ^ 32 →
      ∃ c t u, compress (List.replicate n a) s = .ok (c, t)
        ∧ decompress c s' = .ok (List.replicate n a, u)
        ∧ c.total.toNat = n ∧ c.payload = List.replicate ((n + 7) / 8) 0

/-- R174, its first sentence: `total_bit_count` equals the sum of the code lengths of all bytes of the
input, and `ceil(total_bit_count/8)` the payload's byte length. -/
def Obligations.BitCountInvariant : Prop :=
  ∀ (x : List Byte) (s t : State) (c : Container), s.faulted = false →
    compress x s = .ok (c, t) →
      c.total.toNat = (x.map fun a => ((codeOf c.table a).getD []).length).sum
        ∧ c.payload.length = (c.total.toNat + 7) / 8

/-- R184: encoding an empty byte sequence fails with `EmptyInputError`, an `ERR` of the block. R181: of a
procedure that fails, whatever it had collected, only the error kind is reported; the block it leaves is
faulted exactly if an `ERR` ended it, and then the next procedure starts on a block that SYS.RESET has reset,
so that it never starts on a faulted one. -/
def Obligations.EmptyInputFails : Prop :=
  (∀ s : State, s.faulted = false →
    ∃ t, compress [] s = .error ⟨.emptyInput, true, t⟩ ∧ t.faulted = true)
  ∧ ∀ (p : Procedure) (s : State), s.faulted = false →
      (nextStart (runProcedure p s)).faulted = false
      ∧ ∀ f, runProcedure p s = .error f →
          report (runProcedure p s) = .failed f.kind
          ∧ (f.erred = true ↔ f.block.faulted = true)
          ∧ (f.erred = true → BlockReset (nextStart (runProcedure p s)))
end

