-- ==== Sys2Proof/Laws/Selector.lean ====
section
/-! SUPPORT. The selector (41_priority_queue.md R111, R112): the order of entries is total, adding keeps
the arrangement sorted and adds one copy, removing takes a least entry. -/

namespace Sys2Proof.Laws

open Sys2Proof Sys2Proof.Machine

/-- R112's order as numbers. -/
theorem lt_iff (a b : Entry) :
    a.lt b = true ↔ a.w.toNat < b.w.toNat ∨ (a.w.toNat = b.w.toNat ∧ a.ref.toNat < b.ref.toNat) := by
  simp [Entry.lt, BitVec.lt_def, BitVec.toNat_inj]

theorem not_lt_iff (a b : Entry) :
    a.lt b = false ↔ b.w.toNat < a.w.toNat ∨ (b.w.toNat = a.w.toNat ∧ b.ref.toNat ≤ a.ref.toNat) := by
  rw [← Bool.not_eq_true, lt_iff]; omega

theorem lt_irrefl (a : Entry) : a.lt a = false := by
  rw [not_lt_iff]; omega

theorem lt_of_ne {a b : Entry} (h : a.lt b = false) (hne : a ≠ b) : b.lt a = true := by
  rw [not_lt_iff] at h
  rw [lt_iff]
  rcases Nat.lt_or_ge b.w.toNat a.w.toNat with hw | hw
  · exact .inl hw
  · have hw' : b.w.toNat = a.w.toNat := by omega
    refine .inr ⟨hw', ?_⟩
    have : b.ref.toNat ≠ a.ref.toNat := fun hr => hne (by
      cases a; cases b
      simp only [Entry.mk.injEq]
      exact ⟨BitVec.eq_of_toNat_eq hw'.symm, BitVec.eq_of_toNat_eq hr.symm⟩)
    omega

theorem not_lt_of_lt {a b : Entry} (h : a.lt b = true) : b.lt a = false := by
  rw [lt_iff] at h; rw [not_lt_iff]; omega

/-- "not less" is transitive: the order is total. -/
theorem not_lt_trans {a b c : Entry} (h₁ : b.lt a = false) (h₂ : c.lt b = false) : c.lt a = false := by
  rw [not_lt_iff] at *; omega

/-- R111: one more copy of the entry. -/
theorem pqAdd_perm (e : Entry) (pq : List Entry) : (pqAdd e pq).Perm (e :: pq) := by
  induction pq with
  | nil => exact .refl _
  | cons x xs ih =>
    unfold pqAdd
    split
    · exact .refl _
    · exact (ih.cons x).trans (.swap e x xs)

@[simp] theorem pqAdd_length (e : Entry) (pq : List Entry) : (pqAdd e pq).length = pq.length + 1 := by
  simpa using (pqAdd_perm e pq).length_eq

theorem mem_pqAdd {x e : Entry} {pq : List Entry} : x ∈ pqAdd e pq ↔ x = e ∨ x ∈ pq := by
  simpa using (pqAdd_perm e pq).mem_iff (a := x)

/-- Adding keeps the arrangement sorted. -/
theorem pqAdd_sorted {e : Entry} {pq : List Entry} (h : SortedEntries pq) : SortedEntries (pqAdd e pq) := by
  induction pq with
  | nil => simp [pqAdd, SortedEntries]
  | cons x xs ih =>
    obtain ⟨hx, hxs⟩ := List.pairwise_cons.1 h
    unfold pqAdd
    split
    next hlt =>
      refine List.pairwise_cons.2 ⟨fun y hy => ?_, h⟩
      have hxe : x.lt e = false := not_lt_of_lt hlt
      rcases List.mem_cons.1 hy with rfl | hy
      · exact hxe
      · exact not_lt_trans hxe (hx y hy)
    next hlt =>
      refine List.pairwise_cons.2 ⟨fun y hy => ?_, ih hxs⟩
      rcases mem_pqAdd.1 hy with rfl | hy
      · simpa using hlt
      · exact hx y hy

/-- R112: in a sorted arrangement the entry removed is a least one, and what is left is the rest. -/
theorem pqRem_spec {pq rest : List Entry} {e : Entry} (hs : SortedEntries pq)
    (h : pqRem pq = some (e, rest)) :
    pq = e :: rest ∧ LeastEntry e pq ∧ SortedEntries rest := by
  cases pq with
  | nil => simp [pqRem] at h
  | cons x xs =>
    simp only [pqRem, Option.some.injEq, Prod.mk.injEq] at h
    obtain ⟨rfl, rfl⟩ := h
    obtain ⟨hx, hxs⟩ := List.pairwise_cons.1 hs
    refine ⟨rfl, ⟨by simp, fun y hy => ?_⟩, hxs⟩
    rcases List.mem_cons.1 hy with rfl | hy
    · exact lt_irrefl _
    · exact hx y hy

theorem pqRem_eq_none {pq : List Entry} : pqRem pq = none ↔ pq = [] := by
  cases pq <;> simp [pqRem]

/-- Two sorted arrangements of the same entries are the same: the multiset is its arrangement (R27). -/
theorem sorted_unique {p q : List Entry} (hp : SortedEntries p) (hq : SortedEntries q)
    (h : p.Perm q) : p = q := by
  unfold SortedEntries at hp hq
  refine List.Perm.eq_of_pairwise (fun a b _ _ hab hba => ?_) hp hq h
  by_contra hne
  simp [lt_of_ne hab (Ne.symm hne)] at hba

end Sys2Proof.Laws
end

