-- ==== Sys2Proof/Laws/State.lean ====
section
/-! SUPPORT. One lemma per field per update of the state (Machine/Ops.lean), so that no proof unfolds an
update; and the facts about the views that every proof uses. -/

namespace Sys2Proof.Laws

open Sys2Proof Sys2Proof.Machine

/-! ### `respond` -/

@[simp] theorem respond_freq (s : State) (r : Response) : (s.respond r).freq = s.freq := rfl
@[simp] theorem respond_pq (s : State) (r : Response) : (s.respond r).pq = s.pq := rfl
@[simp] theorem respond_node (s : State) (r : Response) : (s.respond r).node = s.node := rfl
@[simp] theorem respond_tbRoot (s : State) (r : Response) : (s.respond r).tbRoot = s.tbRoot := rfl
@[simp] theorem respond_tbValid (s : State) (r : Response) : (s.respond r).tbValid = s.tbValid := rfl
@[simp] theorem respond_code (s : State) (r : Response) : (s.respond r).code = s.code := rfl
@[simp] theorem respond_bpAcc (s : State) (r : Response) : (s.respond r).bpAcc = s.bpAcc := rfl
@[simp] theorem respond_bpN (s : State) (r : Response) : (s.respond r).bpN = s.bpN := rfl
@[simp] theorem respond_bpTotal (s : State) (r : Response) : (s.respond r).bpTotal = s.bpTotal := rfl
@[simp] theorem respond_bpFinal (s : State) (r : Response) : (s.respond r).bpFinal = s.bpFinal := rfl
@[simp] theorem respond_buFifo (s : State) (r : Response) : (s.respond r).buFifo = s.buFifo := rfl
@[simp] theorem respond_buCur (s : State) (r : Response) : (s.respond r).buCur = s.buCur := rfl
@[simp] theorem respond_buLeft (s : State) (r : Response) : (s.respond r).buLeft = s.buLeft := rfl
@[simp] theorem respond_buRem (s : State) (r : Response) : (s.respond r).buRem = s.buRem := rfl
@[simp] theorem respond_latched (s : State) (r : Response) : (s.respond r).latched = s.latched := rfl
@[simp] theorem respond_buFifoCap (s : State) (r : Response) : (s.respond r).buFifoCap = s.buFifoCap := rfl
@[simp] theorem respond_inputs (s : State) (r : Response) : (s.respond r).inputs = s.inputs := rfl
@[simp] theorem respond_rsps (s : State) (r : Response) : (s.respond r).rsps = s.rsps ++ [r.word] := rfl

/-! ### `raise` -/

@[simp] theorem raise_freq (s : State) (c : Cause) (k : Byte) : (s.raise c k).freq = s.freq := rfl
@[simp] theorem raise_pq (s : State) (c : Cause) (k : Byte) : (s.raise c k).pq = s.pq := rfl
@[simp] theorem raise_node (s : State) (c : Cause) (k : Byte) : (s.raise c k).node = s.node := rfl
@[simp] theorem raise_tbRoot (s : State) (c : Cause) (k : Byte) : (s.raise c k).tbRoot = s.tbRoot := rfl
@[simp] theorem raise_tbValid (s : State) (c : Cause) (k : Byte) : (s.raise c k).tbValid = s.tbValid := rfl
@[simp] theorem raise_code (s : State) (c : Cause) (k : Byte) : (s.raise c k).code = s.code := rfl
@[simp] theorem raise_bpAcc (s : State) (c : Cause) (k : Byte) : (s.raise c k).bpAcc = s.bpAcc := rfl
@[simp] theorem raise_bpN (s : State) (c : Cause) (k : Byte) : (s.raise c k).bpN = s.bpN := rfl
@[simp] theorem raise_bpTotal (s : State) (c : Cause) (k : Byte) : (s.raise c k).bpTotal = s.bpTotal := rfl
@[simp] theorem raise_bpFinal (s : State) (c : Cause) (k : Byte) : (s.raise c k).bpFinal = s.bpFinal := rfl
@[simp] theorem raise_buFifo (s : State) (c : Cause) (k : Byte) : (s.raise c k).buFifo = s.buFifo := rfl
@[simp] theorem raise_buCur (s : State) (c : Cause) (k : Byte) : (s.raise c k).buCur = s.buCur := rfl
@[simp] theorem raise_buLeft (s : State) (c : Cause) (k : Byte) : (s.raise c k).buLeft = s.buLeft := rfl
@[simp] theorem raise_buRem (s : State) (c : Cause) (k : Byte) : (s.raise c k).buRem = s.buRem := rfl
@[simp] theorem raise_latched (s : State) (c : Cause) (k : Byte) : (s.raise c k).latched = some ⟨c, k⟩ := rfl
@[simp] theorem raise_buFifoCap (s : State) (c : Cause) (k : Byte) : (s.raise c k).buFifoCap = s.buFifoCap := rfl
@[simp] theorem raise_inputs (s : State) (c : Cause) (k : Byte) : (s.raise c k).inputs = s.inputs := rfl
@[simp] theorem raise_rsps (s : State) (c : Cause) (k : Byte) : (s.raise c k).rsps = s.rsps ++ [(Response.err c k).word] := rfl

/-! ### `setFreq` -/

@[simp] theorem setFreq_freq (s : State) (a : Byte) (n : Count) : (s.setFreq a n).freq = s.freq.set a.toNat n (symIndex a) := rfl
@[simp] theorem setFreq_pq (s : State) (a : Byte) (n : Count) : (s.setFreq a n).pq = s.pq := rfl
@[simp] theorem setFreq_node (s : State) (a : Byte) (n : Count) : (s.setFreq a n).node = s.node := rfl
@[simp] theorem setFreq_tbRoot (s : State) (a : Byte) (n : Count) : (s.setFreq a n).tbRoot = s.tbRoot := rfl
@[simp] theorem setFreq_tbValid (s : State) (a : Byte) (n : Count) : (s.setFreq a n).tbValid = s.tbValid := rfl
@[simp] theorem setFreq_code (s : State) (a : Byte) (n : Count) : (s.setFreq a n).code = s.code := rfl
@[simp] theorem setFreq_bpAcc (s : State) (a : Byte) (n : Count) : (s.setFreq a n).bpAcc = s.bpAcc := rfl
@[simp] theorem setFreq_bpN (s : State) (a : Byte) (n : Count) : (s.setFreq a n).bpN = s.bpN := rfl
@[simp] theorem setFreq_bpTotal (s : State) (a : Byte) (n : Count) : (s.setFreq a n).bpTotal = s.bpTotal := rfl
@[simp] theorem setFreq_bpFinal (s : State) (a : Byte) (n : Count) : (s.setFreq a n).bpFinal = s.bpFinal := rfl
@[simp] theorem setFreq_buFifo (s : State) (a : Byte) (n : Count) : (s.setFreq a n).buFifo = s.buFifo := rfl
@[simp] theorem setFreq_buCur (s : State) (a : Byte) (n : Count) : (s.setFreq a n).buCur = s.buCur := rfl
@[simp] theorem setFreq_buLeft (s : State) (a : Byte) (n : Count) : (s.setFreq a n).buLeft = s.buLeft := rfl
@[simp] theorem setFreq_buRem (s : State) (a : Byte) (n : Count) : (s.setFreq a n).buRem = s.buRem := rfl
@[simp] theorem setFreq_latched (s : State) (a : Byte) (n : Count) : (s.setFreq a n).latched = s.latched := rfl
@[simp] theorem setFreq_buFifoCap (s : State) (a : Byte) (n : Count) : (s.setFreq a n).buFifoCap = s.buFifoCap := rfl
@[simp] theorem setFreq_inputs (s : State) (a : Byte) (n : Count) : (s.setFreq a n).inputs = s.inputs := rfl
@[simp] theorem setFreq_rsps (s : State) (a : Byte) (n : Count) : (s.setFreq a n).rsps = s.rsps := rfl

/-! ### `resetBlock` -/

@[simp] theorem resetBlock_freq (s : State) : (s.resetBlock).freq = Vector.replicate 256 0 := rfl
@[simp] theorem resetBlock_pq (s : State) : (s.resetBlock).pq = [] := rfl
@[simp] theorem resetBlock_node (s : State) : (s.resetBlock).node = [] := rfl
@[simp] theorem resetBlock_tbRoot (s : State) : (s.resetBlock).tbRoot = 0 := rfl
@[simp] theorem resetBlock_tbValid (s : State) : (s.resetBlock).tbValid = false := rfl
@[simp] theorem resetBlock_code (s : State) : (s.resetBlock).code = noCodes := rfl
@[simp] theorem resetBlock_bpAcc (s : State) : (s.resetBlock).bpAcc = 0 := rfl
@[simp] theorem resetBlock_bpN (s : State) : (s.resetBlock).bpN = 0 := rfl
@[simp] theorem resetBlock_bpTotal (s : State) : (s.resetBlock).bpTotal = 0 := rfl
@[simp] theorem resetBlock_bpFinal (s : State) : (s.resetBlock).bpFinal = false := rfl
@[simp] theorem resetBlock_buFifo (s : State) : (s.resetBlock).buFifo = [] := rfl
@[simp] theorem resetBlock_buCur (s : State) : (s.resetBlock).buCur = 0 := rfl
@[simp] theorem resetBlock_buLeft (s : State) : (s.resetBlock).buLeft = 0 := rfl
@[simp] theorem resetBlock_buRem (s : State) : (s.resetBlock).buRem = 0 := rfl
@[simp] theorem resetBlock_latched (s : State) : (s.resetBlock).latched = none := rfl
@[simp] theorem resetBlock_buFifoCap (s : State) : (s.resetBlock).buFifoCap = s.buFifoCap := rfl
@[simp] theorem resetBlock_inputs (s : State) : (s.resetBlock).inputs = s.inputs := rfl
@[simp] theorem resetBlock_rsps (s : State) : (s.resetBlock).rsps = s.rsps := rfl

/-! ### Views -/

@[simp] theorem respond_faulted (s : State) (r : Response) : (s.respond r).faulted = s.faulted := rfl
@[simp] theorem respond_freqAt (s : State) (r : Response) (a : Byte) :
    (s.respond r).freqAt a = s.freqAt a := rfl
@[simp] theorem respond_codeAt (s : State) (r : Response) (a : Byte) :
    (s.respond r).codeAt a = s.codeAt a := rfl
@[simp] theorem raise_faulted (s : State) (c : Cause) (k : Byte) : (s.raise c k).faulted = true := rfl
@[simp] theorem resetBlock_faulted (s : State) : s.resetBlock.faulted = false := rfl

theorem faulted_eq_false {s : State} : s.faulted = false ↔ s.latched = none := by
  unfold State.faulted; cases s.latched <;> simp

/-- Writing one count leaves the others alone. -/
theorem setFreq_freqAt (s : State) (a b : Byte) (n : Count) :
    (s.setFreq a n).freqAt b = if b = a then n else s.freqAt b := by
  have h : a.toNat = b.toNat ↔ b = a := by rw [← BitVec.toNat_inj, eq_comm]
  simp [State.freqAt, State.setFreq, Vector.getElem_set, h]

/-- Writing one code leaves the others alone. -/
theorem codeOf_setCode (t : CodeTable) (a b : Byte) (c : Code) :
    codeOf (setCode t a c) b = if b = a then some c else codeOf t b := by
  have h : a.toNat = b.toNat ↔ b = a := by rw [← BitVec.toNat_inj, eq_comm]
  simp [codeOf, setCode, Vector.getElem_set, h]

@[simp] theorem codeOf_noCodes (a : Byte) : codeOf noCodes a = none := by
  simp [codeOf, noCodes]

@[simp] theorem freqAt_replicate (s : State) (a : Byte) :
    State.freqAt { s with freq := Vector.replicate 256 0 } a = 0 := by
  simp [State.freqAt]

/-- Two frequency tables with the same reads are the same table. -/
theorem freq_ext {f g : FreqTable}
    (h : ∀ a : Byte, f[a.toNat]'(symIndex a) = g[a.toNat]'(symIndex a)) : f = g := by
  apply Vector.ext
  intro k hk
  have := h (BitVec.ofNat 8 k)
  simpa [Nat.mod_eq_of_lt hk] using this

/-- Two code tables with the same reads are the same table. -/
theorem code_ext {f g : CodeTable} (h : ∀ a : Byte, codeOf f a = codeOf g a) : f = g := by
  apply Vector.ext
  intro k hk
  have := h (BitVec.ofNat 8 k)
  simpa [codeOf, Nat.mod_eq_of_lt hk] using this

/-- Every symbol is listed. -/
theorem mem_allSymbols (a : Byte) : a ∈ allSymbols := by
  simp only [allSymbols, List.mem_map, List.mem_range]
  exact ⟨a.toNat, a.isLt, by simp⟩

/-- The test of R121 is the one its words describe. -/
theorem noSymbol_iff (s : State) : s.noSymbol = true ↔ ∀ a, s.freqAt a = 0 := by
  unfold State.noSymbol State.freqAt
  rw [List.all_eq_true]
  constructor
  · intro h a
    have := h (s.freq[a.toNat]'(symIndex a)) (by simp)
    simpa using this
  · intro h x hx
    obtain ⟨k, hk, rfl⟩ := List.mem_iff_getElem.1 hx
    have hk' : k < 256 := by simpa using hk
    have := h (BitVec.ofNat 8 k)
    simpa [Nat.mod_eq_of_lt hk'] using this

end Sys2Proof.Laws
end

