-- ==== Sys2Proof/Laws/Builder.lean ====
section
/-! SUPPORT. The tree builder's loop (42_tree_builder.md R121): what holds after seeding, what one merge
keeps, and what is therefore true of the finished arena. -/

namespace Sys2Proof.Laws

open Sys2Proof Sys2Proof.Machine

/-! ### Arenas that grow at the end -/

theorem getElem?_concat_lt {node : List Node} {x : Node} {k : Nat} (h : k < node.length) :
    (node ++ [x])[k]? = node[k]? := by
  rw [List.getElem?_append_left h]

theorem getElem?_concat_length (node : List Node) (x : Node) : (node ++ [x])[node.length]? = some x := by
  simp

theorem lt_length_of_getElem? {node : List Node} {k : Nat} {x : Node} (h : node[k]? = some x) :
    k < node.length := by
  by_contra hk
  rw [List.getElem?_eq_none (by omega)] at h
  cases h

theorem nodeOf_concat {node : List Node} {x : Node} {r : Ref} (h : r.toNat < node.length) :
    nodeOf (node ++ [x]) r = nodeOf node r := getElem?_concat_lt h

theorem keyOf_concat {node : List Node} {x : Node} {j : Nat} (h : j < node.length) :
    keyOf (node ++ [x]) j = keyOf node j := by
  simp [keyOf, getElem?_concat_lt h]

theorem toNat_ofNat_ref {k : Nat} (h : k < 512) : (BitVec.ofNat 9 k).toNat = k := by
  simp [Nat.mod_eq_of_lt h]

/-! ### What one internal record says -/

/-- The facts about an internal record at reference `k`: children below it, its weight their sum, and the
two children the least and the next of what was pending when it was made. -/
structure MergeOk (node : List Node) (k : Nat) (w : Weight) (l r : Ref) : Prop where
  left_lt : l.toNat < k
  right_lt : r.toNat < k
  sum : ∃ a b, nodeOf node l = some a ∧ nodeOf node r = some b
    ∧ w.toNat = a.weight.toNat + b.weight.toNat
  left_pending : PendingBefore node k l.toNat
  right_pending : PendingBefore node k r.toNat
  left_first : (keyOf node l.toNat).lt (keyOf node r.toNat) = true
  others_later : ∀ j, PendingBefore node k j → j ≠ l.toNat → j ≠ r.toNat →
    (keyOf node r.toNat).lt (keyOf node j) = true

theorem PendingBefore.concat {node : List Node} {x : Node} {k j : Nat} (hk : k ≤ node.length) :
    PendingBefore (node ++ [x]) k j ↔ PendingBefore node k j := by
  unfold PendingBefore
  rw [List.take_append_of_le_length hk]

theorem MergeOk.concat {node : List Node} {x : Node} {k : Nat} {w : Weight} {l r : Ref}
    (h : MergeOk node k w l r) (hk : k ≤ node.length) : MergeOk (node ++ [x]) k w l r := by
  have hl : l.toNat < node.length := by have := h.left_lt; omega
  have hr : r.toNat < node.length := by have := h.right_lt; omega
  refine ⟨h.left_lt, h.right_lt, ?_, (PendingBefore.concat hk).2 h.left_pending,
    (PendingBefore.concat hk).2 h.right_pending, ?_, ?_⟩
  · rw [nodeOf_concat hl, nodeOf_concat hr]; exact h.sum
  · rw [keyOf_concat hl, keyOf_concat hr]; exact h.left_first
  · intro j hj h1 h2
    have hj' := (PendingBefore.concat hk).1 hj
    have hjl : j < node.length := by have := hj'.1; omega
    rw [keyOf_concat hr, keyOf_concat hjl]
    exact h.others_later j hj' h1 h2

/-! ### The invariant of both loops -/

/-- What holds of the builder at every moment: `n` leaves stand first, `total` is the sum of the weights
the selector holds. -/
structure BuildInv (n total : Nat) (b : Builder) : Prop where
  sorted : SortedEntries b.pq
  keyed : ∀ e ∈ b.pq, ∃ x, nodeOf b.node e.ref = some x ∧ x.weight = e.w
  pending : (b.pq.map (·.ref.toNat) ++ b.node.flatMap Node.children).Perm (List.range b.node.length)
  sum : (b.pq.map (·.w.toNat)).sum = total
  le_length : n ≤ b.node.length
  kinds : ∀ k x, b.node[k]? = some x → (n ≤ k ↔ ∃ w l r, x = .internal w l r)
  merges : ∀ k w l r, b.node[k]? = some (.internal w l r) → MergeOk b.node k w l r
  ordered : ∀ (j k : Nat) x y, n ≤ j → j ≤ k → b.node[j]? = some x → b.node[k]? = some y →
    x.weight ≤ y.weight
  /-- every merged weight is at most twice every weight still held -/
  light : ∀ e ∈ b.pq, ∀ k x, n ≤ k → b.node[k]? = some x → x.weight.toNat ≤ 2 * e.w.toNat

theorem BuildInv.nodup {n total : Nat} {b : Builder} (h : BuildInv n total b) :
    (b.pq.map (·.ref.toNat) ++ b.node.flatMap Node.children).Nodup :=
  (h.pending.nodup_iff).2 List.nodup_range

theorem BuildInv.ref_lt {n total : Nat} {b : Builder} (h : BuildInv n total b) {e : Entry}
    (he : e ∈ b.pq) : e.ref.toNat < b.node.length := by
  obtain ⟨x, hx, _⟩ := h.keyed e he
  exact lt_length_of_getElem? hx

/-- An entry of the selector is the key of its reference. -/
theorem BuildInv.keyOf_ref {n total : Nat} {b : Builder} (h : BuildInv n total b) {e : Entry}
    (he : e ∈ b.pq) : keyOf b.node e.ref.toNat = e := by
  obtain ⟨x, hx, hw⟩ := h.keyed e he
  unfold nodeOf at hx
  cases e
  simp_all [keyOf]

/-- What is pending is what the selector holds. -/
theorem BuildInv.pending_iff {n total : Nat} {b : Builder} (h : BuildInv n total b) (j : Nat) :
    PendingBefore b.node b.node.length j ↔ ∃ e ∈ b.pq, e.ref.toNat = j := by
  have hmem := h.pending.mem_iff (a := j)
  rw [List.mem_append, List.mem_range, List.mem_map] at hmem
  have hdis := (List.nodup_append.1 h.nodup).2.2
  unfold PendingBefore
  rw [List.take_length]
  constructor
  · rintro ⟨hlt, hnot⟩
    exact (hmem.2 hlt).resolve_right hnot
  · rintro ⟨e, he, rfl⟩
    refine ⟨h.ref_lt he, fun hc => ?_⟩
    exact hdis e.ref.toNat (List.mem_map.2 ⟨e, he, rfl⟩) e.ref.toNat hc rfl

/-! ### Seeding -/

theorem buildInv_place_leaf {n total : Nat} {b : Builder} (h : BuildInv n total b)
    (hn : b.node.length = n) (hsmall : n < 512) (w : Weight) (a : Byte) :
    BuildInv (n + 1) (w.toNat + total) (b.place (.leaf w a)) := by
  have hlen : (BitVec.ofNat 9 b.node.length).toNat = b.node.length := toNat_ofNat_ref (by omega)
  have hnode : (b.place (.leaf w a)).node = b.node ++ [.leaf w a] := rfl
  have hpq : (b.place (.leaf w a)).pq = pqAdd ⟨w, BitVec.ofNat 9 b.node.length⟩ b.pq := rfl
  refine ⟨?_, ?_, ?_, ?_, ?_, ?_, ?_, ?_, ?_⟩
  · rw [hpq]; exact pqAdd_sorted h.sorted
  · rw [hpq, hnode]
    intro e he
    rcases mem_pqAdd.1 he with rfl | he
    · refine ⟨.leaf w a, ?_, rfl⟩
      unfold nodeOf
      rw [hlen]
      exact getElem?_concat_length _ _
    · rw [nodeOf_concat (h.ref_lt he)]
      exact h.keyed e he
  · rw [hpq, hnode]
    have h1 := ((pqAdd_perm ⟨w, BitVec.ofNat 9 b.node.length⟩ b.pq).map (·.ref.toNat)).append_right
      ((b.node ++ [Node.leaf w a]).flatMap Node.children)
    refine h1.trans ?_
    rw [List.length_append, List.length_singleton, List.range_succ]
    have h2 := (h.pending.cons b.node.length).trans
      (List.perm_append_singleton b.node.length (List.range b.node.length)).symm
    simpa [hlen, Node.children] using h2
  · rw [hpq]
    have h1 := ((pqAdd_perm ⟨w, BitVec.ofNat 9 b.node.length⟩ b.pq).map (·.w.toNat)).sum_eq
    rw [h1]; simp [h.sum]
  · rw [hnode]; simp [hn]
  · rw [hnode]
    intro k x hx
    have hk := lt_length_of_getElem? hx
    rw [List.length_append, List.length_singleton] at hk
    rcases Nat.lt_or_ge k b.node.length with hlt | hge
    · rw [getElem?_concat_lt hlt] at hx
      have := h.kinds k x hx
      constructor
      · intro hh; omega
      · intro hh; have := this.2 hh; omega
    · have hkl : k = b.node.length := by omega
      subst hkl
      rw [getElem?_concat_length] at hx
      cases hx
      constructor
      · intro hh; omega
      · rintro ⟨_, _, _, hc⟩; cases hc
  · rw [hnode]
    intro k w' l r hx
    rcases Nat.lt_or_ge k b.node.length with hlt | hge
    · rw [getElem?_concat_lt hlt] at hx
      exact (h.merges k w' l r hx).concat (by omega)
    · have hkl : k = b.node.length := by
        have hk := lt_length_of_getElem? hx
        rw [List.length_append, List.length_singleton] at hk
        omega
      subst hkl
      rw [getElem?_concat_length] at hx
      cases hx
  · rw [hnode]
    intro j k x y hj hjk hx hy
    have hk := lt_length_of_getElem? hy
    rw [List.length_append, List.length_singleton] at hk
    omega
  · rw [hnode]
    intro e he k x hk hx
    have := lt_length_of_getElem? hx
    rw [List.length_append, List.length_singleton] at this
    omega

/-- The leaves of the symbols of a list that are present. -/
def leavesOf (freq : Byte → Count) (l : List Byte) : List Node :=
  (l.filter fun a => decide (0 < freq a)).map fun a => .leaf ((freq a).setWidth 40) a

theorem seed_fold (freq : Byte → Count) (l : List Byte) :
    ∀ (b : Builder) (total : Nat), BuildInv b.node.length total b → b.node.length + l.length < 512 →
      let c := l.foldl (seedSymbol freq) b
      c.node = b.node ++ leavesOf freq l
        ∧ BuildInv c.node.length (total + (l.map fun a => (freq a).toNat).sum) c
        ∧ c.pq.length = b.pq.length + (leavesOf freq l).length := by
  induction l with
  | nil => intro b total h _; simp [leavesOf, h]
  | cons a l ih =>
    intro b total h hs
    rw [List.length_cons] at hs
    simp only [List.foldl_cons]
    rcases Nat.eq_zero_or_pos (freq a).toNat with h0 | hpos
    · have hz : freq a = 0 := BitVec.eq_of_toNat_eq h0
      have hseed : seedSymbol freq b a = b := by simp [seedSymbol, hz]
      rw [hseed]
      have := ih b total h (by omega)
      simpa [leavesOf, hz] using this
    · have hp : 0 < freq a := by simpa [BitVec.lt_def] using hpos
      have hseed : seedSymbol freq b a = b.place (.leaf ((freq a).setWidth 40) a) := by
        simp only [seedSymbol, if_pos hp]
      have hcons : leavesOf freq (a :: l)
          = .leaf ((freq a).setWidth 40) a :: leavesOf freq l := by
        have hd : decide (0 < freq a) = true := decide_eq_true hp
        unfold leavesOf
        rw [List.filter_cons, hd]
        rfl
      rw [hseed]
      have hlen : (b.place (.leaf ((freq a).setWidth 40) a)).node.length = b.node.length + 1 := by
        simp [Builder.place]
      have hplace := buildInv_place_leaf h rfl (by omega) ((freq a).setWidth 40) a
      rw [← hlen] at hplace
      obtain ⟨h1, h2, h3⟩ := ih _ _ hplace (by omega)
      refine ⟨?_, ?_, ?_⟩
      · rw [h1, hcons]; simp [Builder.place]
      · have hw : ((freq a).setWidth 40).toNat = (freq a).toNat := by
          have := (freq a).isLt
          simp [BitVec.toNat_setWidth]; omega
        rw [hw] at h2
        have he : (freq a).toNat + total + (l.map fun a => (freq a).toNat).sum
            = total + ((a :: l).map fun a => (freq a).toNat).sum := by
          simp; omega
        rw [he] at h2
        exact h2
      · rw [h3, hcons]; simp [Builder.place]; omega

theorem buildInv_empty : BuildInv 0 0 ⟨[], []⟩ := by
  refine ⟨List.Pairwise.nil, ?_, ?_, rfl, Nat.le_refl _, ?_, ?_, ?_, ?_⟩ <;> simp

theorem length_allSymbols : allSymbols.length = 256 := by simp [allSymbols]

/-- After seeding: the leaves of the present symbols in ascending order, each in the selector. -/
theorem seedLeaves_spec (freq : Byte → Count) :
    (seedLeaves freq).node = leavesFor freq
      ∧ BuildInv (leavesFor freq).length (totalCount freq) (seedLeaves freq)
      ∧ (seedLeaves freq).pq.length = (leavesFor freq).length := by
  have h := seed_fold freq allSymbols ⟨[], []⟩ 0 buildInv_empty (by simp [length_allSymbols])
  obtain ⟨h1, h2, h3⟩ := h
  have hl : leavesOf freq allSymbols = leavesFor freq := rfl
  refine ⟨by simpa [seedLeaves, hl] using h1, ?_, by simpa [seedLeaves, hl] using h3⟩
  rw [h1, hl] at h2
  simpa [seedLeaves, totalCount] using h2

/-! ### Merging -/

theorem mergeTwo_of_cons (e1 e2 : Entry) (rest : List Entry) (node : List Node) :
    mergeTwo ⟨e1 :: e2 :: rest, node⟩
      = some ((Builder.mk rest node).place (.internal (e1.w + e2.w) e1.ref e2.ref)) := rfl

/-- One merge keeps the invariant, as long as the weights and references fit. -/
theorem buildInv_merge {n total : Nat} {e1 e2 : Entry} {rest : List Entry} {node : List Node}
    (h : BuildInv n total ⟨e1 :: e2 :: rest, node⟩) (htotal : total < 2 ^ 40)
    (hsmall : node.length < 512) :
    BuildInv n total ((Builder.mk rest node).place (.internal (e1.w + e2.w) e1.ref e2.ref)) := by
  obtain ⟨hs1, hs'⟩ := List.pairwise_cons.1 h.sorted
  obtain ⟨hs2, hs3⟩ := List.pairwise_cons.1 hs'
  have hm1 : e1 ∈ (Builder.mk (e1 :: e2 :: rest) node).pq := by simp
  have hm2 : e2 ∈ (Builder.mk (e1 :: e2 :: rest) node).pq := by simp
  have hmr : ∀ e ∈ rest, e ∈ (Builder.mk (e1 :: e2 :: rest) node).pq := fun e he => by simp [he]
  have hsum := h.sum
  simp only [List.map_cons, List.sum_cons] at hsum
  have hadd : (e1.w + e2.w).toNat = e1.w.toNat + e2.w.toNat := by
    rw [BitVec.toNat_add]; exact Nat.mod_eq_of_lt (by omega)
  have hl1 := h.ref_lt hm1
  have hl2 := h.ref_lt hm2
  have h12 : e1.w.toNat ≤ e2.w.toNat := by
    have := (not_lt_iff e2 e1).1 (hs1 e2 (by simp)); omega
  have h2r : ∀ e ∈ rest, e2.w.toNat ≤ e.w.toNat := fun e he => by
    have := (not_lt_iff e e2).1 (hs2 e he); omega
  have hlen : (BitVec.ofNat 9 node.length).toNat = node.length := toNat_ofNat_ref hsmall
  have hnd : (e1 :: e2 :: rest).map (·.ref.toNat) |>.Nodup := (List.nodup_append.1 h.nodup).1
  have hne : e1.ref.toNat ≠ e2.ref.toNat := by
    simp only [List.map_cons, List.nodup_cons, List.mem_cons] at hnd
    exact fun hc => hnd.1 (.inl hc)
  simp only at hl1 hl2
  have hnode : ((Builder.mk rest node).place (.internal (e1.w + e2.w) e1.ref e2.ref)).node
      = node ++ [.internal (e1.w + e2.w) e1.ref e2.ref] := rfl
  have hpq : ((Builder.mk rest node).place (.internal (e1.w + e2.w) e1.ref e2.ref)).pq
      = pqAdd ⟨e1.w + e2.w, BitVec.ofNat 9 node.length⟩ rest := rfl
  have hmerge : MergeOk (node ++ [.internal (e1.w + e2.w) e1.ref e2.ref]) node.length
      (e1.w + e2.w) e1.ref e2.ref := by
    have hk1 : keyOf node e1.ref.toNat = e1 := h.keyOf_ref hm1
    have hk2 : keyOf node e2.ref.toNat = e2 := h.keyOf_ref hm2
    refine MergeOk.concat ⟨hl1, hl2, ?_, ?_, ?_, ?_, ?_⟩ (Nat.le_refl _)
    · obtain ⟨x, hx, hxw⟩ := h.keyed e1 hm1
      obtain ⟨y, hy, hyw⟩ := h.keyed e2 hm2
      exact ⟨x, y, hx, hy, by rw [hxw, hyw, hadd]⟩
    · exact (h.pending_iff _).2 ⟨e1, hm1, rfl⟩
    · exact (h.pending_iff _).2 ⟨e2, hm2, rfl⟩
    · rw [hk1, hk2]
      refine lt_of_ne (hs1 e2 (by simp)) fun hc => hne (by rw [hc])
    · intro j hj hj1 hj2
      obtain ⟨e, he, rfl⟩ := (h.pending_iff j).1 hj
      have hke : keyOf node e.ref.toNat = e := h.keyOf_ref he
      simp only [List.mem_cons] at he
      rcases he with rfl | rfl | he
      · exact absurd rfl hj1
      · exact absurd rfl hj2
      · rw [hk2, hke]
        exact lt_of_ne (hs2 e he) fun hc => hj2 (by rw [hc])
  refine ⟨?_, ?_, ?_, ?_, ?_, ?_, ?_, ?_, ?_⟩
  · rw [hpq]; exact pqAdd_sorted hs3
  · rw [hpq, hnode]
    intro e he
    rcases mem_pqAdd.1 he with rfl | he
    · refine ⟨.internal (e1.w + e2.w) e1.ref e2.ref, ?_, rfl⟩
      unfold nodeOf
      rw [hlen]
      exact getElem?_concat_length _ _
    · rw [nodeOf_concat (h.ref_lt (hmr e he))]
      exact h.keyed e (hmr e he)
  · rw [hpq, hnode]
    refine (((pqAdd_perm _ rest).map (·.ref.toNat)).append_right _).trans ?_
    rw [List.length_append, List.length_singleton, List.range_succ]
    refine List.Perm.trans ?_ ((h.pending.cons node.length).trans
      (List.perm_append_singleton node.length (List.range node.length)).symm)
    simp only [List.map_cons, hlen, List.flatMap_append, List.flatMap_cons, List.flatMap_nil,
      List.append_nil, Node.children, List.cons_append]
    refine List.Perm.cons _ ?_
    rw [← List.append_assoc]
    exact List.perm_append_comm
  · rw [hpq, ((pqAdd_perm _ rest).map (·.w.toNat)).sum_eq]
    simp only [List.map_cons, List.sum_cons, hadd]
    omega
  · rw [hnode, List.length_append]; exact Nat.le_add_right_of_le h.le_length
  · rw [hnode]
    intro k x hx
    rcases Nat.lt_or_ge k node.length with hlt | hge
    · rw [getElem?_concat_lt hlt] at hx
      exact h.kinds k x hx
    · have hk := lt_length_of_getElem? hx
      rw [List.length_append, List.length_singleton] at hk
      have hkl : k = node.length := by omega
      subst hkl
      rw [getElem?_concat_length] at hx
      cases hx
      exact ⟨fun _ => ⟨_, _, _, rfl⟩, fun _ => h.le_length⟩
  · rw [hnode]
    intro k w l r hx
    rcases Nat.lt_or_ge k node.length with hlt | hge
    · rw [getElem?_concat_lt hlt] at hx
      exact (h.merges k w l r hx).concat (by simp only; omega)
    · have hk := lt_length_of_getElem? hx
      rw [List.length_append, List.length_singleton] at hk
      have hkl : k = node.length := by omega
      subst hkl
      rw [getElem?_concat_length] at hx
      cases hx
      exact hmerge
  · rw [hnode]
    intro j k x y hj hjk hx hy
    have hk := lt_length_of_getElem? hy
    rw [List.length_append, List.length_singleton] at hk
    rcases Nat.lt_or_ge k node.length with hlt | hge
    · rw [getElem?_concat_lt hlt] at hy
      rw [getElem?_concat_lt (by omega)] at hx
      exact h.ordered j k x y hj hjk hx hy
    · have hkl : k = node.length := by omega
      subst hkl
      rw [getElem?_concat_length] at hy
      cases hy
      rcases Nat.lt_or_ge j node.length with hlt | hge'
      · rw [getElem?_concat_lt hlt] at hx
        have := h.light e1 hm1 j x hj hx
        rw [BitVec.le_def, show (Node.internal (e1.w + e2.w) e1.ref e2.ref).weight = e1.w + e2.w from rfl,
          hadd]
        omega
      · have hjl : j = node.length := by omega
        subst hjl
        rw [getElem?_concat_length] at hx
        cases hx
        exact BitVec.le_refl _
  · rw [hpq, hnode]
    intro e he k x hk hx
    have hkb := lt_length_of_getElem? hx
    rw [List.length_append, List.length_singleton] at hkb
    have hle : e2.w.toNat ≤ e.w.toNat := by
      rcases mem_pqAdd.1 he with rfl | he
      · simp only [hadd]; omega
      · exact h2r e he
    rcases Nat.lt_or_ge k node.length with hlt | hge
    · rw [getElem?_concat_lt hlt] at hx
      have := h.light e1 hm1 k x hk hx
      omega
    · have hkl : k = node.length := by omega
      subst hkl
      rw [getElem?_concat_length] at hx
      cases hx
      simp only [Node.weight, hadd]
      omega

/-- The merging loop keeps the invariant and the first records, and ends with at most one tree. -/
theorem mergeAll_spec {n total : Nat} (htotal : total < 2 ^ 40) :
    ∀ (k : Nat) (b : Builder), BuildInv n total b → b.pq.length ≤ k + 1 →
      b.node.length + b.pq.length ≤ 512 →
      BuildInv n total (mergeAll k b)
        ∧ (mergeAll k b).node.length + (mergeAll k b).pq.length = b.node.length + b.pq.length
        ∧ (mergeAll k b).pq.length ≤ 1
        ∧ (mergeAll k b).node.take b.node.length = b.node
        ∧ (b.pq ≠ [] → (mergeAll k b).pq ≠ []) := by
  intro k
  induction k with
  | zero =>
    intro b h hk _
    exact ⟨h, rfl, by simpa [mergeAll] using hk, by simp [mergeAll], by simp [mergeAll]⟩
  | succ k ih =>
    rintro ⟨pq, node⟩ h hk hs
    match pq, h, hk, hs with
    | [], h, _, _ => exact ⟨h, rfl, by simp [mergeAll, mergeTwo, pqRem],
        by simp [mergeAll, mergeTwo, pqRem], by simp⟩
    | [e], h, _, _ => exact ⟨h, rfl, by simp [mergeAll, mergeTwo, pqRem],
        by simp [mergeAll, mergeTwo, pqRem], by simp [mergeAll, mergeTwo, pqRem]⟩
    | e1 :: e2 :: rest, h, hk, hs =>
      simp only [List.length_cons] at hk hs
      have hstep : mergeAll (k + 1) ⟨e1 :: e2 :: rest, node⟩
          = mergeAll k ((Builder.mk rest node).place (.internal (e1.w + e2.w) e1.ref e2.ref)) := rfl
      have hnode : ((Builder.mk rest node).place (.internal (e1.w + e2.w) e1.ref e2.ref)).node
          = node ++ [.internal (e1.w + e2.w) e1.ref e2.ref] := rfl
      have hpql : ((Builder.mk rest node).place (.internal (e1.w + e2.w) e1.ref e2.ref)).pq.length
          = rest.length + 1 := by simp [Builder.place]
      have hnl : ((Builder.mk rest node).place (.internal (e1.w + e2.w) e1.ref e2.ref)).node.length
          = node.length + 1 := by simp [hnode]
      obtain ⟨i1, i2, i3, i4, i5⟩ := ih _ (buildInv_merge h htotal (by omega))
        (by rw [hpql]; omega) (by rw [hpql, hnl]; omega)
      rw [hstep]
      refine ⟨i1, ?_, i3, ?_, fun _ => i5 ?_⟩
      · rw [i2, hpql, hnl]; simp only [List.length_cons]; omega
      · have := congrArg (List.take node.length) i4
        rw [hnl, List.take_take, Nat.min_eq_left (by omega), hnode] at this
        simpa using this
      · intro hc
        rw [hc] at hpql
        simp at hpql

/-! ### The finished tree -/

theorem sum_map_le (freq : Byte → Count) (l : List Byte) :
    (l.map fun a => (freq a).toNat).sum ≤ l.length * (2 ^ 32 - 1) := by
  induction l with
  | nil => simp
  | cons a l ih =>
    have := (freq a).isLt
    simp only [List.map_cons, List.sum_cons, List.length_cons, Nat.add_mul]
    omega

/-- "a weight is a sum of distinct counts, at most 256 · (2^32 − 1) < 2^40" (R18). -/
theorem totalCount_lt (freq : Byte → Count) : totalCount freq < 2 ^ 40 := by
  have := sum_map_le freq allSymbols
  rw [length_allSymbols] at this
  unfold totalCount
  omega

theorem leavesFor_length (freq : Byte → Count) :
    (leavesFor freq).length = (presentSymbols freq).length := by simp [leavesFor]

theorem presentSymbols_length_le (freq : Byte → Count) : (presentSymbols freq).length ≤ 256 := by
  have := List.length_filter_le (fun a => decide (0 < freq a)) allSymbols
  rw [length_allSymbols] at this
  exact this

theorem mem_presentSymbols (freq : Byte → Count) (a : Byte) :
    a ∈ presentSymbols freq ↔ 0 < freq a := by
  simp [presentSymbols, mem_allSymbols]

theorem allSymbols_sorted : allSymbols.Pairwise (· < ·) := by
  refine List.Pairwise.map _ ?_ (List.Pairwise.imp_of_mem ?_ List.pairwise_lt_range)
    (R := fun j k => j < k ∧ k < 256)
  · rintro j k ⟨h1, h2⟩
    rw [BitVec.lt_def, BitVec.toNat_ofNat, BitVec.toNat_ofNat, Nat.mod_eq_of_lt (by omega),
      Nat.mod_eq_of_lt (by omega)]
    exact h1
  · intro j k _ hk hjk
    exact ⟨hjk, List.mem_range.1 hk⟩

theorem presentSymbols_sorted (freq : Byte → Count) : (presentSymbols freq).Pairwise (· < ·) :=
  allSymbols_sorted.filter _

/-- TB.BUILD's two loops on a table with a present symbol: the selector holds the one tree left, whose
root is the last record; the arena is a complete tree over the present symbols, whose leaves stand first;
each internal record joins the least and the next least tree pending. -/
theorem buildTree_spec (freq : Byte → Count) (hpos : ∃ a, 0 < freq a) :
    let b := buildTree freq
    let n := (presentSymbols freq).length
    (∃ w, b.pq = [⟨w, BitVec.ofNat 9 (2 * n - 2)⟩] ∧ w.toNat = totalCount freq
      ∧ ∃ x, b.node[2 * n - 2]? = some x ∧ x.weight = w)
    ∧ ArenaOk b.node (BitVec.ofNat 9 (2 * n - 2)) n
    ∧ b.node.take n = leavesFor freq
    ∧ ∀ k w l r, b.node[k]? = some (.internal w l r) → MergeOk b.node k w l r := by
  intro b n
  have hn1 : 1 ≤ n := by
    obtain ⟨a, ha⟩ := hpos
    exact List.length_pos_of_mem ((mem_presentSymbols freq a).2 ha)
  have hn2 : n ≤ 256 := presentSymbols_length_le freq
  obtain ⟨s1, s2, s3⟩ := seedLeaves_spec freq
  have hln : (leavesFor freq).length = n := leavesFor_length freq
  rw [hln] at s2 s3
  have hsn : (seedLeaves freq).node.length = n := by rw [s1, hln]
  obtain ⟨hb, hsumlen, hle1, htake, hne⟩ := mergeAll_spec (totalCount_lt freq)
    (seedLeaves freq).pq.length (seedLeaves freq) s2 (by omega) (by omega)
  have hbd : mergeAll (seedLeaves freq).pq.length (seedLeaves freq) = b := rfl
  rw [hbd] at hb hsumlen hle1 htake hne
  have hne' : b.pq ≠ [] := hne (by intro hc; rw [hc] at s3; simp at s3; omega)
  obtain ⟨e, he⟩ : ∃ e, b.pq = [e] := by
    match hq : b.pq with
    | [] => exact absurd hq hne'
    | [e] => exact ⟨e, rfl⟩
    | _ :: _ :: _ => rw [hq] at hle1; simp at hle1
  have hcount : b.node.length = 2 * n - 1 := by
    rw [he, s3, hsn] at hsumlen; simp at hsumlen; omega
  have htake' : b.node.take n = leavesFor freq := by rw [← hsn, htake, s1]
  -- children stand below the last record
  have hchild : ∀ c ∈ b.node.flatMap Node.children, c < 2 * n - 2 := by
    intro c hc
    obtain ⟨x, hx, hcx⟩ := List.mem_flatMap.1 hc
    obtain ⟨k, hk, hkx⟩ := List.mem_iff_getElem.1 hx
    have hkx' : b.node[k]? = some x := by rw [List.getElem?_eq_getElem hk, hkx]
    cases x with
    | leaf w a => simp [Node.children] at hcx
    | internal w l r =>
      have hm := hb.merges k w l r hkx'
      have h1 := hm.left_lt
      have h2 := hm.right_lt
      simp only [Node.children, List.mem_cons, List.not_mem_nil, or_false] at hcx
      rcases hcx with rfl | rfl <;> omega
  have hpend := hb.pending
  rw [he, hcount] at hpend
  simp only [List.map_cons, List.map_nil, List.cons_append, List.nil_append] at hpend
  have heref : e.ref.toNat = 2 * n - 2 := by
    have hmem : 2 * n - 2 ∈ List.range (2 * n - 1) := List.mem_range.2 (by omega)
    rcases List.mem_cons.1 (hpend.mem_iff.2 hmem) with hh | hh
    · exact hh.symm
    · have := hchild _ hh; omega
  have href : e.ref = BitVec.ofNat 9 (2 * n - 2) := by
    apply BitVec.eq_of_toNat_eq
    rw [toNat_ofNat_ref (by omega), heref]
  have hroot : (BitVec.ofNat 9 (2 * n - 2)).toNat = 2 * n - 2 := toNat_ofNat_ref (by omega)
  have hleaf : ∀ k x, k < n → (b.node[k]? = some x ↔ (leavesFor freq)[k]? = some x) := by
    intro k x hk
    rw [← htake', List.getElem?_take_of_lt hk]
  have hleafk : ∀ k, k < n → ∃ w a, b.node[k]? = some (.leaf w a) ∧ 0 < w := by
    intro k hk
    have hk' : k < (presentSymbols freq).length := hk
    have hmem := List.getElem_mem hk'
    rw [mem_presentSymbols] at hmem
    refine ⟨(freq ((presentSymbols freq)[k])).setWidth 40, (presentSymbols freq)[k],
      (hleaf k _ hk).2 (by simp [leavesFor, hk']), ?_⟩
    rw [BitVec.lt_def] at hmem ⊢
    have := (freq ((presentSymbols freq)[k])).isLt
    rw [BitVec.toNat_setWidth, Nat.mod_eq_of_lt (by omega)]
    simpa using hmem
  refine ⟨⟨e.w, ?_, ?_, ?_⟩, ⟨⟨hn1, hn2⟩, hcount, hroot, hleafk, ?_, ?_, ?_, ?_, ?_⟩, htake', hb.merges⟩
  · rw [he, ← href]
  · have := hb.sum; rw [he] at this; simpa using this
  · obtain ⟨x, hx, hw⟩ := hb.keyed e (by rw [he]; simp)
    unfold nodeOf at hx
    rw [heref] at hx
    exact ⟨x, hx, hw⟩
  · intro j k w w' p q hjk hj hk
    have hkn : k < n := by
      rcases Nat.lt_or_ge k n with h' | h'
      · exact h'
      · obtain ⟨_, _, _, hc⟩ := (hb.kinds k _ hk).1 h'; cases hc
    have hj' := (hleaf j _ (by omega)).1 hj
    have hk' := (hleaf k _ hkn).1 hk
    unfold leavesFor at hj' hk'
    rw [List.getElem?_map] at hj' hk'
    obtain ⟨p', hp', hpe⟩ := Option.map_eq_some_iff.1 hj'
    obtain ⟨q', hq', hqe⟩ := Option.map_eq_some_iff.1 hk'
    cases hpe; cases hqe
    obtain ⟨hjl, hpe⟩ := List.getElem?_eq_some_iff.1 hp'
    obtain ⟨hkl, hqe⟩ := List.getElem?_eq_some_iff.1 hq'
    have := List.pairwise_iff_getElem.1 (presentSymbols_sorted freq) j k hjl hkl hjk
    rwa [hpe, hqe] at this
  · intro k hk1 hk2
    have hk3 : k < b.node.length := by omega
    obtain ⟨w, l, r, hx⟩ := (hb.kinds k _ (List.getElem?_eq_getElem hk3)).1 hk1
    have hx' : b.node[k]? = some (.internal w l r) := by rw [List.getElem?_eq_getElem hk3, hx]
    have hm := hb.merges k w l r hx'
    exact ⟨w, l, r, hx', hm.left_lt, hm.right_lt⟩
  · intro k w l r hx
    exact (hb.merges k w l r hx).sum
  · intro j k x y hj hjk hx hy
    exact hb.ordered j k x y hj hjk hx hy
  · have hrange : List.range (2 * n - 1) = List.range (2 * n - 2) ++ [2 * n - 2] := by
      rw [show 2 * n - 1 = (2 * n - 2) + 1 by omega, List.range_succ]
    rw [hrange, heref] at hpend
    exact (hpend.trans (List.perm_append_singleton _ _)).cons_inv

/-- The default of `takeTree` is never used: with a present symbol one tree is left. -/
theorem buildTree_last (freq : Byte → Count) (hpos : ∃ a, 0 < freq a) :
    ∃ e, pqRem (buildTree freq).pq = some (e, []) := by
  obtain ⟨⟨w, hw, _⟩, _⟩ := buildTree_spec freq hpos
  exact ⟨_, by rw [hw]; rfl⟩

end Sys2Proof.Laws
end

