-- ==== Sys2Proof/Laws/Codec.lean ====
section
/-! SUPPORT. The fields of a command word and of a response word (30_encoding.md R70 to R74): what a field
of a concatenation is, as bits and as numbers. -/

namespace Sys2Proof.Laws

open Sys2Proof Sys2Proof.Machine

/-- The opcode byte of an opcode byte put before an operand field. -/
@[simp] theorem opField_append (op : Byte) (arg : Arg) : opField (op ++ arg : Word) = op := by
  apply BitVec.eq_of_toNat_eq
  have := op.isLt
  have := arg.isLt
  rw [opField, BitVec.extractLsb'_toNat, BitVec.toNat_append, Nat.shiftLeft_eq, Nat.shiftRight_eq_div_pow,
    ← Nat.shiftLeft_eq, ← Nat.shiftLeft_add_eq_or_of_lt arg.isLt, Nat.shiftLeft_eq]
  omega

/-- Its operand field. -/
@[simp] theorem argField_append (op : Byte) (arg : Arg) : argField (op ++ arg : Word) = arg := by
  apply BitVec.eq_of_toNat_eq
  have := op.isLt
  have := arg.isLt
  rw [argField, BitVec.extractLsb'_toNat, BitVec.toNat_append, Nat.shiftRight_eq_div_pow,
    ← Nat.shiftLeft_add_eq_or_of_lt arg.isLt, Nat.shiftLeft_eq]
  omega

/-- A word is its opcode byte and its operand field. -/
theorem word_eq_fields (c : Word) : (opField c ++ argField c : Word) = c := by
  apply BitVec.eq_of_toNat_eq
  have := c.isLt
  have harg : (argField c).toNat < 2 ^ 56 := (argField c).isLt
  rw [BitVec.toNat_append, ← Nat.shiftLeft_add_eq_or_of_lt harg, Nat.shiftLeft_eq]
  simp only [opField, argField, BitVec.extractLsb'_toNat, Nat.shiftRight_eq_div_pow]
  omega

/-- A concatenation as a number. -/
theorem toNat_append_eq {m n : Nat} (a : BitVec m) (b : BitVec n) :
    (a ++ b).toNat = a.toNat * 2 ^ n + b.toNat := by
  rw [BitVec.toNat_append, ← Nat.shiftLeft_add_eq_or_of_lt b.isLt, Nat.shiftLeft_eq]

/-- A slice as a number. -/
theorem toNat_slice {n : Nat} (v : BitVec n) (lo len : Nat) :
    (v.extractLsb' lo len).toNat = v.toNat / 2 ^ lo % 2 ^ len := by
  rw [BitVec.extractLsb'_toNat, Nat.shiftRight_eq_div_pow]

/-- A command word as a number. -/
theorem encode_toNat (i : Instr) : (encode i).toNat = i.op.code.toNat * 2 ^ 56 + i.arg.toNat :=
  toNat_append_eq _ _

@[simp] theorem opField_encode (i : Instr) : opField (encode i) = i.op.code := opField_append _ _

@[simp] theorem argField_encode (i : Instr) : argField (encode i) = i.arg := argField_append _ _

/-! ### Response words -/

@[simp] theorem rspStatus_word (r : Response) : rspStatus r.word = r.status := by
  apply BitVec.eq_of_toNat_eq
  have h1 := r.status.isLt
  have h2 := r.causeField.isLt
  have h3 := r.value.isLt
  unfold rspStatus Response.word
  rw [toNat_slice, toNat_append_eq, toNat_append_eq]
  omega

@[simp] theorem rspCause_word (r : Response) : rspCause r.word = r.causeField := by
  apply BitVec.eq_of_toNat_eq
  have h1 := r.status.isLt
  have h2 := r.causeField.isLt
  have h3 := r.value.isLt
  unfold rspCause Response.word
  rw [toNat_slice, toNat_append_eq, toNat_append_eq]
  omega

@[simp] theorem rspValue_word (r : Response) : rspValue r.word = r.value := by
  apply BitVec.eq_of_toNat_eq
  have h1 := r.status.isLt
  have h2 := r.causeField.isLt
  have h3 := r.value.isLt
  unfold rspValue Response.word
  rw [toNat_slice, toNat_append_eq, toNat_append_eq]
  omega

/-- The only response word with status 3 (R73). -/
theorem refused_word : Response.refused.word = 0xC000000000000000#64 := by decide

/-- A refusal is told from every other response by its status. -/
theorem word_eq_refused_iff (r : Response) : r.word = 0xC000000000000000#64 ↔ r = .refused := by
  rw [← refused_word]
  constructor
  · intro h
    have := congrArg rspStatus h
    simp only [rspStatus_word] at this
    cases r <;> simp_all [Response.status]
  · rintro rfl; rfl

end Sys2Proof.Laws
end

