-- ==== Sys2Proof/Laws/Decoding.lean ====
section
/-! SUPPORT. Decoding (30_encoding.md R70 to R78): what each format reads, and what it is for a word to
decode to a command. -/

namespace Sys2Proof.Laws

open Sys2Proof Sys2Proof.Machine

/-- A field of operands below zeros. -/
theorem fields_app {n m : Nat} (z : BitVec m) (a : BitVec n) :
    (z ++ a).extractLsb' n m = z ∧ (z ++ a).extractLsb' 0 n = a := by
  constructor
  · apply BitVec.eq_of_toNat_eq
    rw [toNat_slice, toNat_append_eq, Nat.add_comm, Nat.add_mul_div_right _ _ (Nat.two_pow_pos n),
      Nat.div_eq_of_lt a.isLt, Nat.zero_add, Nat.mod_eq_of_lt z.isLt]
  · apply BitVec.eq_of_toNat_eq
    rw [toNat_slice, toNat_append_eq, Nat.pow_zero, Nat.div_one, Nat.add_comm,
      Nat.add_mul_mod_self_right, Nat.mod_eq_of_lt a.isLt]

/-- A vector is its upper and its lower part. -/
theorem split_app {n m k : Nat} (v : BitVec k) (h : k = m + n) :
    v = (v.extractLsb' n m ++ v.extractLsb' 0 n).cast h.symm := by
  subst h
  apply BitVec.eq_of_toNat_eq
  have := v.isLt
  rw [BitVec.toNat_cast, toNat_append_eq, toNat_slice, toNat_slice, Nat.pow_zero, Nat.div_one,
    Nat.mod_eq_of_lt (a := v.toNat / 2 ^ n)]
  · rw [Nat.mul_comm, Nat.div_add_mod]
  · rw [Nat.div_lt_iff_lt_mul (Nat.two_pow_pos n), ← Nat.pow_add]; exact this

/-- Format Z (R71). -/
theorem readZ_eq_ok {arg : Arg} {i j : Instr} : readZ arg j = .ok i ↔ arg = 0 ∧ j = i := by
  unfold readZ; split <;> simp_all

/-- Format S (R71). -/
theorem readS_eq_ok {arg : Arg} {i : Instr} {mk : Byte → Instr} :
    readS arg mk = .ok i ↔ ∃ a : Byte, arg = 0#48 ++ a ∧ mk a = i := by
  unfold readS
  constructor
  · intro h
    split at h
    · next hz => exact ⟨_, by conv_lhs => rw [split_app (m := 48) (n := 8) arg rfl, hz]
                              rfl, Except.ok.inj h⟩
    · cases h
  · rintro ⟨a, rfl, rfl⟩
    have := fields_app (0#48) a
    rw [this.1, this.2]; rfl

/-- Format N (R71). -/
theorem readN_eq_ok {arg : Arg} {i : Instr} {mk : Ref → Instr} :
    readN arg mk = .ok i ↔ ∃ a : Ref, arg = 0#47 ++ a ∧ mk a = i := by
  unfold readN
  constructor
  · intro h
    split at h
    · next hz => exact ⟨_, by conv_lhs => rw [split_app (m := 47) (n := 9) arg rfl, hz]
                              rfl, Except.ok.inj h⟩
    · cases h
  · rintro ⟨a, rfl, rfl⟩
    have := fields_app (0#47) a
    rw [this.1, this.2]; rfl

/-- Format T (R71). -/
theorem readT_eq_ok {arg : Arg} {i : Instr} {mk : BitVec 1 → Instr} :
    readT arg mk = .ok i ↔ ∃ a : BitVec 1, arg = 0#55 ++ a ∧ mk a = i := by
  unfold readT
  constructor
  · intro h
    split at h
    · next hz => exact ⟨_, by conv_lhs => rw [split_app (m := 55) (n := 1) arg rfl, hz]
                              rfl, Except.ok.inj h⟩
    · cases h
  · rintro ⟨a, rfl, rfl⟩
    have := fields_app (0#55) a
    rw [this.1, this.2]; rfl

/-- Format K (R71). -/
theorem readK_eq_ok {arg : Arg} {i : Instr} {mk : BitCount → Instr} :
    readK arg mk = .ok i ↔ ∃ a : BitCount, arg = 0#8 ++ a ∧ mk a = i := by
  unfold readK
  constructor
  · intro h
    split at h
    · next hz => exact ⟨_, by conv_lhs => rw [split_app (m := 8) (n := 48) arg rfl, hz]
                              rfl, Except.ok.inj h⟩
    · cases h
  · rintro ⟨a, rfl, rfl⟩
    have := fields_app (0#8) a
    rw [this.1, this.2]; rfl

/-- Format Q (R71). -/
theorem readQ_eq_ok {arg : Arg} {i : Instr} {mk : Weight → Ref → Instr} :
    readQ arg mk = .ok i ↔ ∃ (w : Weight) (r : Ref), arg = 0#7 ++ r ++ w ∧ mk w r = i := by
  unfold readQ
  constructor
  · intro h
    split at h
    · next hz =>
      refine ⟨_, _, ?_, Except.ok.inj h⟩
      have hz' := congrArg BitVec.toNat (show _ = BitVec.ofNat _ 0 from hz)
      have := arg.isLt
      rw [toNat_slice] at hz'
      simp only [BitVec.toNat_ofNat] at hz'
      apply BitVec.eq_of_toNat_eq
      simp only [toNat_append_eq, toNat_slice, BitVec.toNat_ofNat]
      omega
    · cases h
  · rintro ⟨w, r, rfl, rfl⟩
    have := w.isLt
    have := r.isLt
    have h1 : (0#7 ++ r ++ w).extractLsb' 49 7 = 0#7 := by
      apply BitVec.eq_of_toNat_eq
      simp only [toNat_append_eq, toNat_slice, BitVec.toNat_ofNat]
      omega
    have h2 : (0#7 ++ r ++ w).extractLsb' 40 9 = r := by
      apply BitVec.eq_of_toNat_eq
      simp only [toNat_append_eq, toNat_slice, BitVec.toNat_ofNat]
      omega
    refine (if_pos h1).trans ?_
    rw [h2, (fields_app (0#7 ++ r) w).2]

/-- Format SI (R71). -/
theorem readSI_eq_ok {arg : Arg} {i : Instr} {mk : Byte → Byte → Instr} :
    readSI arg mk = .ok i ↔ ∃ a k : Byte, arg = 0#40 ++ k ++ a ∧ mk a k = i := by
  unfold readSI
  constructor
  · intro h
    split at h
    · next hz =>
      refine ⟨_, _, ?_, Except.ok.inj h⟩
      have hz' := congrArg BitVec.toNat (show _ = BitVec.ofNat _ 0 from hz)
      have := arg.isLt
      rw [toNat_slice] at hz'
      simp only [BitVec.toNat_ofNat] at hz'
      apply BitVec.eq_of_toNat_eq
      simp only [toNat_append_eq, toNat_slice, BitVec.toNat_ofNat]
      omega
    · cases h
  · rintro ⟨w, r, rfl, rfl⟩
    have := w.isLt
    have := r.isLt
    have h1 : (0#40 ++ r ++ w).extractLsb' 16 40 = 0#40 := by
      apply BitVec.eq_of_toNat_eq
      simp only [toNat_append_eq, toNat_slice, BitVec.toNat_ofNat]
      omega
    have h2 : (0#40 ++ r ++ w).extractLsb' 8 8 = r := by
      apply BitVec.eq_of_toNat_eq
      simp only [toNat_append_eq, toNat_slice, BitVec.toNat_ofNat]
      omega
    refine (if_pos h1).trans ?_
    rw [h2, (fields_app (0#40 ++ r) w).2]

/-- The read of an operation's operand field. -/
def readArg (o : Op) (arg : Arg) : Except Illegal Instr :=
  match o with
  | .sysNop => readZ arg .sysNop
  | .sysReset => readZ arg .sysReset
  | .sysStatus => readZ arg .sysStatus
  | .fcClr => readZ arg .fcClr
  | .fcPut => readS arg .fcPut
  | .fcGet => readS arg .fcGet
  | .pqClr => readZ arg .pqClr
  | .pqAdd => readQ arg .pqAdd
  | .pqRem => readZ arg .pqRem
  | .pqLen => readZ arg .pqLen
  | .tbBuild => readZ arg .tbBuild
  | .tbRoot => readZ arg .tbRoot
  | .tbWeight => readN arg .tbWeight
  | .tbLink => readN arg .tbLink
  | .caAssign => readZ arg .caAssign
  | .caLen => readS arg .caLen
  | .caBit => readSI arg .caBit
  | .bpClr => readZ arg .bpClr
  | .bpPut => readT arg .bpPut
  | .bpFlush => readZ arg .bpFlush
  | .bpCount => readZ arg .bpCount
  | .buStart => readK arg .buStart
  | .buFeed => readS arg .buFeed
  | .buNext => readZ arg .buNext
  | .buRem => readZ arg .buRem

/-- A listed opcode byte is decoded by its operation's format. -/
theorem decode_listed {c : Word} {o : Op} (h : opField c = o.code) : decode c = readArg o (argField c) := by
  unfold decode
  rw [h]
  cases o <;> rfl

/-- Any other is no command's (R78). -/
theorem decode_unlisted {c : Word} (h : ∀ o : Op, opField c ≠ o.code) :
    decode c = .error (if 7#4 ≤ unitField c then .reservedUnit else .undefinedFn) := by
  unfold decode
  dsimp only
  split
  next heq => exact absurd heq (h .sysNop)
  next heq => exact absurd heq (h .sysReset)
  next heq => exact absurd heq (h .sysStatus)
  next heq => exact absurd heq (h .fcClr)
  next heq => exact absurd heq (h .fcPut)
  next heq => exact absurd heq (h .fcGet)
  next heq => exact absurd heq (h .pqClr)
  next heq => exact absurd heq (h .pqAdd)
  next heq => exact absurd heq (h .pqRem)
  next heq => exact absurd heq (h .pqLen)
  next heq => exact absurd heq (h .tbBuild)
  next heq => exact absurd heq (h .tbRoot)
  next heq => exact absurd heq (h .tbWeight)
  next heq => exact absurd heq (h .tbLink)
  next heq => exact absurd heq (h .caAssign)
  next heq => exact absurd heq (h .caLen)
  next heq => exact absurd heq (h .caBit)
  next heq => exact absurd heq (h .bpClr)
  next heq => exact absurd heq (h .bpPut)
  next heq => exact absurd heq (h .bpFlush)
  next heq => exact absurd heq (h .bpCount)
  next heq => exact absurd heq (h .buStart)
  next heq => exact absurd heq (h .buFeed)
  next heq => exact absurd heq (h .buNext)
  next heq => exact absurd heq (h .buRem)
  next => rfl

/-- Reading an operand field and writing it are inverse (R71). -/
theorem readArg_eq_ok {o : Op} {arg : Arg} {i : Instr} :
    readArg o arg = .ok i ↔ i.op = o ∧ arg = i.arg := by
  constructor
  · intro h
    cases o with
    | sysNop => obtain ⟨h1, rfl⟩ := readZ_eq_ok.1 h; exact ⟨rfl, h1⟩
    | sysReset => obtain ⟨h1, rfl⟩ := readZ_eq_ok.1 h; exact ⟨rfl, h1⟩
    | sysStatus => obtain ⟨h1, rfl⟩ := readZ_eq_ok.1 h; exact ⟨rfl, h1⟩
    | fcClr => obtain ⟨h1, rfl⟩ := readZ_eq_ok.1 h; exact ⟨rfl, h1⟩
    | fcPut => obtain ⟨_, h1, rfl⟩ := readS_eq_ok.1 h; exact ⟨rfl, h1⟩
    | fcGet => obtain ⟨_, h1, rfl⟩ := readS_eq_ok.1 h; exact ⟨rfl, h1⟩
    | pqClr => obtain ⟨h1, rfl⟩ := readZ_eq_ok.1 h; exact ⟨rfl, h1⟩
    | pqAdd => obtain ⟨_, _, h1, rfl⟩ := readQ_eq_ok.1 h; exact ⟨rfl, h1⟩
    | pqRem => obtain ⟨h1, rfl⟩ := readZ_eq_ok.1 h; exact ⟨rfl, h1⟩
    | pqLen => obtain ⟨h1, rfl⟩ := readZ_eq_ok.1 h; exact ⟨rfl, h1⟩
    | tbBuild => obtain ⟨h1, rfl⟩ := readZ_eq_ok.1 h; exact ⟨rfl, h1⟩
    | tbRoot => obtain ⟨h1, rfl⟩ := readZ_eq_ok.1 h; exact ⟨rfl, h1⟩
    | tbWeight => obtain ⟨_, h1, rfl⟩ := readN_eq_ok.1 h; exact ⟨rfl, h1⟩
    | tbLink => obtain ⟨_, h1, rfl⟩ := readN_eq_ok.1 h; exact ⟨rfl, h1⟩
    | caAssign => obtain ⟨h1, rfl⟩ := readZ_eq_ok.1 h; exact ⟨rfl, h1⟩
    | caLen => obtain ⟨_, h1, rfl⟩ := readS_eq_ok.1 h; exact ⟨rfl, h1⟩
    | caBit => obtain ⟨_, _, h1, rfl⟩ := readSI_eq_ok.1 h; exact ⟨rfl, h1⟩
    | bpClr => obtain ⟨h1, rfl⟩ := readZ_eq_ok.1 h; exact ⟨rfl, h1⟩
    | bpPut => obtain ⟨_, h1, rfl⟩ := readT_eq_ok.1 h; exact ⟨rfl, h1⟩
    | bpFlush => obtain ⟨h1, rfl⟩ := readZ_eq_ok.1 h; exact ⟨rfl, h1⟩
    | bpCount => obtain ⟨h1, rfl⟩ := readZ_eq_ok.1 h; exact ⟨rfl, h1⟩
    | buStart => obtain ⟨_, h1, rfl⟩ := readK_eq_ok.1 h; exact ⟨rfl, h1⟩
    | buFeed => obtain ⟨_, h1, rfl⟩ := readS_eq_ok.1 h; exact ⟨rfl, h1⟩
    | buNext => obtain ⟨h1, rfl⟩ := readZ_eq_ok.1 h; exact ⟨rfl, h1⟩
    | buRem => obtain ⟨h1, rfl⟩ := readZ_eq_ok.1 h; exact ⟨rfl, h1⟩
  · rintro ⟨rfl, rfl⟩
    cases i with
    | sysNop => exact readZ_eq_ok.2 ⟨rfl, rfl⟩
    | sysReset => exact readZ_eq_ok.2 ⟨rfl, rfl⟩
    | sysStatus => exact readZ_eq_ok.2 ⟨rfl, rfl⟩
    | fcClr => exact readZ_eq_ok.2 ⟨rfl, rfl⟩
    | fcPut _ => exact readS_eq_ok.2 ⟨_, rfl, rfl⟩
    | fcGet _ => exact readS_eq_ok.2 ⟨_, rfl, rfl⟩
    | pqClr => exact readZ_eq_ok.2 ⟨rfl, rfl⟩
    | pqAdd _ _ => exact readQ_eq_ok.2 ⟨_, _, rfl, rfl⟩
    | pqRem => exact readZ_eq_ok.2 ⟨rfl, rfl⟩
    | pqLen => exact readZ_eq_ok.2 ⟨rfl, rfl⟩
    | tbBuild => exact readZ_eq_ok.2 ⟨rfl, rfl⟩
    | tbRoot => exact readZ_eq_ok.2 ⟨rfl, rfl⟩
    | tbWeight _ => exact readN_eq_ok.2 ⟨_, rfl, rfl⟩
    | tbLink _ => exact readN_eq_ok.2 ⟨_, rfl, rfl⟩
    | caAssign => exact readZ_eq_ok.2 ⟨rfl, rfl⟩
    | caLen _ => exact readS_eq_ok.2 ⟨_, rfl, rfl⟩
    | caBit _ _ => exact readSI_eq_ok.2 ⟨_, _, rfl, rfl⟩
    | bpClr => exact readZ_eq_ok.2 ⟨rfl, rfl⟩
    | bpPut _ => exact readT_eq_ok.2 ⟨_, rfl, rfl⟩
    | bpFlush => exact readZ_eq_ok.2 ⟨rfl, rfl⟩
    | bpCount => exact readZ_eq_ok.2 ⟨rfl, rfl⟩
    | buStart _ => exact readK_eq_ok.2 ⟨_, rfl, rfl⟩
    | buFeed _ => exact readS_eq_ok.2 ⟨_, rfl, rfl⟩
    | buNext => exact readZ_eq_ok.2 ⟨rfl, rfl⟩
    | buRem => exact readZ_eq_ok.2 ⟨rfl, rfl⟩

/-- What it is for a word to decode to a command: the command's opcode byte and operand field. -/
theorem decode_eq_ok {c : Word} {i : Instr} :
    decode c = .ok i ↔ opField c = i.op.code ∧ argField c = i.arg := by
  constructor
  · intro h
    by_cases hl : ∃ o : Op, opField c = o.code
    · obtain ⟨o, ho⟩ := hl
      rw [decode_listed ho] at h
      obtain ⟨rfl, ha⟩ := readArg_eq_ok.1 h
      exact ⟨ho, ha⟩
    · rw [decode_unlisted fun o ho => hl ⟨o, ho⟩] at h
      cases h
  · rintro ⟨ho, ha⟩
    rw [decode_listed ho]
    exact readArg_eq_ok.2 ⟨rfl, ha⟩
/-! ### Lines of assembler text (R81) -/

/-- One operand within its field. -/
theorem allBelow_one {n : Nat} (a : BitVec n) :
    ([a.toNat].zip [n]).all (fun p => decide (p.1 < 2 ^ p.2)) = true := by
  simp [a.isLt]

/-- Two operands within their fields. -/
theorem allBelow_two {m n : Nat} (a : BitVec m) (b : BitVec n) :
    ([a.toNat, b.toNat].zip [m, n]).all (fun p => decide (p.1 < 2 ^ p.2)) = true := by
  simp [a.isLt, b.isLt]

/-- The line of a command is well formed (R72: every operand is within its field). -/
theorem Instr.line_wellFormed (i : Instr) : i.line.wellFormed = true := by
  cases i with
  | fcPut a | fcGet a | caLen a | buFeed a => exact allBelow_one a
  | pqAdd w r => exact allBelow_two w r
  | tbWeight r | tbLink r => exact allBelow_one r
  | caBit a k => exact allBelow_two a k
  | bpPut b => exact allBelow_one b
  | buStart n => exact allBelow_one n
  | _ => rfl

end Sys2Proof.Laws
end

