-- ==== Sys2Proof/Laws/Exec.lean ====
section
/-! SUPPORT. What `exec` is, command by command, on a block that is not faulted (one equation each, which
later proofs cite instead of unfolding the meanings), and on one that is; and what every command does to
the ports. -/

namespace Sys2Proof.Laws

open Sys2Proof Sys2Proof.Machine

/-! ### The check for a taken fault (R14) -/

theorem unlessFaulted_false {s : State} (h : s.faulted = false) (run : Result) :
    s.unlessFaulted run = run := by simp [State.unlessFaulted, h]

theorem unlessFaulted_true {s : State} (h : s.faulted = true) (run : Result) :
    s.unlessFaulted run = .next (s.respond .refused) := by simp [State.unlessFaulted, h, answer]

/-- R206: a faulted block refuses every command but the two exempt ones. -/
theorem exec_faulted {i : Instr} {s : State} (h : s.faulted = true) (h1 : i ≠ .sysReset)
    (h2 : i ≠ .sysStatus) : exec i s = .next (s.respond .refused) := by
  cases i <;> first | exact unlessFaulted_true h _ | exact absurd rfl h1 | exact absurd rfl h2

/-! ### The commands, on a block that is not faulted -/

section NotFaulted

variable {s : State} (h : s.faulted = false)

include h

theorem exec_sysNop : exec .sysNop s = .next (s.respond (.ok 0)) := unlessFaulted_false h _

theorem exec_fcClr :
    exec .fcClr s = .next ({ s with freq := Vector.replicate 256 0 }.respond (.ok 0)) :=
  unlessFaulted_false h _

theorem exec_fcPut (a : Byte) :
    exec (.fcPut a) s = .next (if s.freqAt a = 0xFFFFFFFF then s.raise .fcOverflow a
      else (s.setFreq a (s.freqAt a + 1)).respond (.ok 0)) := by
  refine (unlessFaulted_false h _).trans ?_
  split <;> rfl

theorem exec_fcGet (a : Byte) :
    exec (.fcGet a) s = .next (s.respond (.ok ((s.freqAt a).setWidth 56))) := unlessFaulted_false h _

theorem exec_pqClr : exec .pqClr s = .next ({ s with pq := [] }.respond (.ok 0)) :=
  unlessFaulted_false h _

theorem exec_pqAdd (w : Weight) (r : Ref) :
    exec (.pqAdd w r) s = .next (if s.pq.length < Config.pqCap then
      { s with pq := pqAdd ⟨w, r⟩ s.pq }.respond (.ok 0) else s.respond .refused) := by
  refine (unlessFaulted_false h _).trans ?_
  split <;> rfl

theorem exec_pqRem_nil (hq : s.pq = []) : exec .pqRem s = .next (s.respond .none) := by
  refine (unlessFaulted_false h _).trans ?_
  simp [pqRem, hq, answer]

theorem exec_pqRem_cons {e : Entry} {rest : List Entry} (hq : s.pq = e :: rest) :
    exec .pqRem s = .next ({ s with pq := rest }.respond (.ok e.value)) := by
  refine (unlessFaulted_false h _).trans ?_
  simp [pqRem, hq, answer]

theorem exec_pqLen : exec .pqLen s = .next (s.respond (.ok (s.pqLen.setWidth 56))) :=
  unlessFaulted_false h _

theorem exec_tbBuild_empty (he : ∀ a, s.freqAt a = 0) :
    exec .tbBuild s = .next (s.raise .emptyInput 0) := by
  refine (unlessFaulted_false h _).trans ?_
  rw [if_pos ((noSymbol_iff s).2 he)]

theorem exec_tbBuild (hp : ∃ a, s.freqAt a ≠ 0) :
    exec .tbBuild s = (s.takeTree (buildTree s.freqAt)).answerRoot := by
  refine (unlessFaulted_false h _).trans ?_
  obtain ⟨a, ha⟩ := hp
  rw [if_neg fun hc => ha ((noSymbol_iff s).1 hc a)]

theorem exec_tbRoot :
    exec .tbRoot s = .next (if s.tbValid then s.respond (.ok (rootValue s.nodeCount s.tbRoot))
      else s.respond .none) := by
  refine (unlessFaulted_false h _).trans ?_
  split <;> rfl

theorem exec_tbWeight (r : Ref) :
    exec (.tbWeight r) s = .next (match s.treeNode r with
      | none => s.respond .none
      | some n => s.respond (.ok (n.weight.setWidth 56))) := by
  refine (unlessFaulted_false h _).trans ?_
  cases s.treeNode r <;> rfl

theorem exec_tbLink (r : Ref) :
    exec (.tbLink r) s = .next (match s.treeNode r with
      | none => s.respond .none
      | some n => s.respond (.ok n.linkValue)) := by
  refine (unlessFaulted_false h _).trans ?_
  cases s.treeNode r <;> rfl

theorem exec_caAssign_noTree (hv : s.tbValid = false) :
    exec .caAssign s = .next (s.respond .refused) := by
  refine (unlessFaulted_false h _).trans ?_
  simp [hv, answer]

theorem exec_caAssign (hv : s.tbValid = true) :
    exec .caAssign s = (match assignCodes s.node s.tbRoot with
      | none => .fault .arenaNotATree
      | some t => .next ({ s with code := t }.respond
          (.ok ((BitVec.ofNat 8 (maxLen t)).setWidth 56)))) := by
  refine (unlessFaulted_false h _).trans ?_
  rw [if_pos hv]
  rfl

theorem exec_caLen (a : Byte) :
    exec (.caLen a) s = .next (match s.codeAt a with
      | none => s.respond .none
      | some c => s.respond (.ok c.lenValue)) := by
  refine (unlessFaulted_false h _).trans ?_
  cases s.codeAt a <;> rfl

theorem exec_caBit (a k : Byte) :
    exec (.caBit a k) s = .next (match (s.codeAt a).bind fun bits => bits[k.toNat]? with
      | none => s.respond .none
      | some b => s.respond (.ok (bitValue b))) := by
  refine (unlessFaulted_false h _).trans ?_
  cases hc : s.codeAt a with
  | none => rfl
  | some bits =>
    cases hb : bits[k.toNat]? with
    | none => simp [answer, hb]
    | some b => simp [answer, hb]

theorem exec_bpClr :
    exec .bpClr s
      = .next ({ s with bpAcc := 0, bpN := 0, bpTotal := 0, bpFinal := false }.respond (.ok 0)) :=
  unlessFaulted_false h _

theorem exec_bpPut_final (b : BitVec 1) (hf : s.bpFinal = true) :
    exec (.bpPut b) s = .next (s.respond .refused) := by
  refine (unlessFaulted_false h _).trans ?_
  simp [hf, answer]

theorem exec_bpPut (b : BitVec 1) (hf : s.bpFinal = false) :
    exec (.bpPut b) s = .next (if s.bpTotal = 0xFFFFFFFFFFFF then s.raise .bpOverflow 0
      else if s.bpN = 7 then
        { s with bpTotal := s.bpTotal + 1, bpAcc := 0, bpN := 0 }.respond
          (.ok ((packBit s.bpAcc b).setWidth 56))
      else { s with bpTotal := s.bpTotal + 1, bpAcc := packBit s.bpAcc b, bpN := s.bpN + 1 }.respond
          .none) := by
  refine (unlessFaulted_false h _).trans ?_
  rw [if_neg (by simp [hf])]
  split
  · rfl
  · dsimp only
    split <;> rfl

theorem exec_bpFlush_final (hf : s.bpFinal = true) :
    exec .bpFlush s = .next (s.respond .refused) := by
  refine (unlessFaulted_false h _).trans ?_
  simp [hf, answer]

theorem exec_bpFlush (hf : s.bpFinal = false) :
    exec .bpFlush s = .next (if s.bpN = 0 then { s with bpFinal := true }.respond .none
      else { s with bpFinal := true, bpAcc := 0, bpN := 0 }.respond
        (.ok ((padByte s.bpAcc s.bpN).setWidth 56))) := by
  refine (unlessFaulted_false h _).trans ?_
  rw [if_neg (by simp [hf])]
  split <;> rfl

theorem exec_bpCount : exec .bpCount s = .next (s.respond (.ok (s.bpTotal.setWidth 56))) :=
  unlessFaulted_false h _

theorem exec_buStart (n : BitCount) :
    exec (.buStart n) s
      = .next ({ s with buFifo := [], buCur := 0, buLeft := 0, buRem := n }.respond (.ok 0)) :=
  unlessFaulted_false h _

theorem exec_buFeed (b : Byte) :
    exec (.buFeed b) s = .next (if fifoHasRoom s.buFifoCap s.buFifo.length then
      { s with buFifo := s.buFifo ++ [b] }.respond (.ok 0) else s.respond .refused) := by
  refine (unlessFaulted_false h _).trans ?_
  split <;> rfl

theorem exec_buNext_done (hr : s.buRem = 0) : exec .buNext s = .next (s.respond .none) := by
  refine (unlessFaulted_false h _).trans ?_
  rw [if_pos hr]; rfl

theorem exec_buNext_held (hr : s.buRem ≠ 0) (hl : s.buLeft ≠ 0) :
    exec .buNext s = .next ({ s with
      buCur := s.buCur <<< 1, buLeft := s.buLeft - 1, buRem := s.buRem - 1 }.respond
        (.ok (bitValue s.buCur.msb))) := by
  refine (unlessFaulted_false h _).trans ?_
  rw [if_neg hr, if_neg hl]; rfl

theorem exec_buNext_empty (hr : s.buRem ≠ 0) (hl : s.buLeft = 0) (hq : s.buFifo = []) :
    exec .buNext s = .next (s.raise .corrupt 0) := by
  refine (unlessFaulted_false h _).trans ?_
  rw [if_neg hr, if_pos hl, hq]

theorem exec_buNext_fetch (hr : s.buRem ≠ 0) (hl : s.buLeft = 0) {b : Byte} {rest : List Byte}
    (hq : s.buFifo = b :: rest) :
    exec .buNext s = .next ({ s with
      buFifo := rest, buCur := b <<< 1, buLeft := 7, buRem := s.buRem - 1 }.respond
        (.ok (bitValue b.msb))) := by
  refine (unlessFaulted_false h _).trans ?_
  rw [if_neg hr, if_pos hl, hq]
  have h7 : (8 : BitVec 4) - 1 = 7 := by decide
  simp only [State.deliverBit, answer, h7]

theorem exec_buRem : exec .buRem s = .next (s.respond (.ok (s.buRem.setWidth 56))) :=
  unlessFaulted_false h _

end NotFaulted

theorem exec_sysReset (s : State) : exec .sysReset s = .next (s.resetBlock.respond (.ok 0)) := rfl

theorem exec_sysStatus (s : State) :
    exec .sysStatus s = .next (s.respond (.ok (s.statusReg.setWidth 56))) := rfl

/-! ### TB.BUILD's next state -/

/-- With a present symbol: the one tree left is taken, and nothing but the selector and the arena
changes. -/
theorem takeTree_of_last {s : State} {b : Builder} {e : Entry} (h : pqRem b.pq = some (e, [])) :
    s.takeTree b = { s with pq := [], node := b.node, tbRoot := e.ref, tbValid := true } := by
  simp [State.takeTree, h]

end Sys2Proof.Laws
end

