-- ==== Sys2Proof/Laws/Walk.lean ====
section
/-! SUPPORT. The code assigner's walk (43_code_assigner.md R133) and the paths of an arena (R131): what the
walk writes, that it ends on a complete tree, and that each leaf has exactly one path. -/

namespace Sys2Proof.Laws

open Sys2Proof Sys2Proof.Machine

/-! ### Paths -/

theorem follow_nil (node : List Node) (r : Ref) : follow node [] r = nodeOf node r := rfl

theorem follow_internal {node : List Node} {r : Ref} {w : Weight} {l rr : Ref} (b : Bool) (c : Code)
    (h : nodeOf node r = some (.internal w l rr)) :
    follow node (b :: c) r = follow node c (if b then rr else l) := by
  simp [follow, h]

theorem follow_leaf {node : List Node} {r : Ref} {w : Weight} {a : Byte} (b : Bool) (c : Code)
    (h : nodeOf node r = some (.leaf w a)) : follow node (b :: c) r = none := by
  simp [follow, h]

theorem follow_absent {node : List Node} {r : Ref} (c : Code) (h : nodeOf node r = none) :
    follow node c r = none := by
  cases c <;> simp [follow, h]

/-- A path that ends at a leaf goes no further. -/
theorem follow_append_leaf {node : List Node} {w : Weight} {a : Byte} (b : Bool) (d : Code) :
    ∀ (c : Code) (r : Ref), follow node c r = some (.leaf w a) → follow node (c ++ b :: d) r = none := by
  intro c
  induction c with
  | nil => intro r h; exact follow_leaf b d h
  | cons x c ih =>
    intro r h
    match hn : nodeOf node r with
    | none => rw [follow_absent _ hn] at h; cases h
    | some (.leaf _ _) => rw [follow_leaf _ _ hn] at h; cases h
    | some (.internal _ _ _) =>
      rw [follow_internal _ _ hn] at h
      rw [List.cons_append, follow_internal _ _ hn]
      exact ih _ h

/-- R137: "a direct consequence of path-uniqueness": of two paths to leaves, one that begins the other is
the other, and the leaf is the same. -/
theorem leadsTo_prefix {node : List Node} {r : Ref} {c d : Code} {a b : Byte}
    (hc : LeadsTo node r c a) (hd : LeadsTo node r d b) (h : c <+: d) : c = d ∧ a = b := by
  obtain ⟨w, hc⟩ := hc
  obtain ⟨w', hd⟩ := hd
  obtain ⟨e, rfl⟩ := h
  cases e with
  | nil =>
    rw [List.append_nil, hc] at hd
    cases hd
    exact ⟨by simp, rfl⟩
  | cons x e =>
    rw [follow_append_leaf x e c r hc] at hd
    cases hd

/-! ### What the walk writes -/

/-- A walk that ends writes, for each symbol it finds a path to, that path after the prefix, and leaves
every other entry alone; no path is longer than the bound allows. -/
theorem walk_spec {node : List Node} :
    ∀ (k : Nat) (r : Ref) (p : Code) (t t' : CodeTable), walk node k r p t = some t' →
      ∀ a, (∃ q, LeadsTo node r q a ∧ codeOf t' a = some (p ++ q) ∧ q.length < k)
        ∨ ((∀ q, ¬ LeadsTo node r q a) ∧ codeOf t' a = codeOf t a) := by
  intro k
  induction k with
  | zero => intro r p t t' h; simp [walk] at h
  | succ k ih =>
    intro r p t t' h a
    match hn : nodeOf node r with
    | none => simp [walk, hn] at h
    | some (.leaf w s) =>
      simp only [walk, hn, Option.some.injEq] at h
      subst h
      rw [codeOf_setCode]
      split
      next heq =>
        subst heq
        exact .inl ⟨[], ⟨w, by rw [follow_nil, hn]⟩, by simp, by simp⟩
      next hne =>
        refine .inr ⟨?_, rfl⟩
        rintro q ⟨w', hq⟩
        cases q with
        | nil => rw [follow_nil, hn] at hq; cases hq; exact hne rfl
        | cons b q => rw [follow_leaf b q hn] at hq; cases hq
    | some (.internal w l rr) =>
      simp only [walk, hn] at h
      obtain ⟨t1, h1, h2⟩ := Option.bind_eq_some_iff.1 h
      have hstep : ∀ (b : Bool) (q : Code), LeadsTo node r (b :: q) a
          ↔ LeadsTo node (if b then rr else l) q a := by
        intro b q
        simp only [LeadsTo, follow_internal b q hn]
      rcases ih rr _ _ _ h2 a with ⟨q, hq, hc, hl⟩ | ⟨hno, hc⟩
      · exact .inl ⟨true :: q, (hstep true q).2 (by simpa using hq), by simp [hc], by simpa using hl⟩
      · rcases ih l _ _ _ h1 a with ⟨q, hq, hc1, hl⟩ | ⟨hno1, hc1⟩
        · exact .inl ⟨false :: q, (hstep false q).2 (by simpa using hq), by simp [hc, hc1],
            by simpa using hl⟩
        · refine .inr ⟨?_, by rw [hc, hc1]⟩
          intro q hq
          cases q with
          | nil =>
            obtain ⟨w', hq⟩ := hq
            rw [follow_nil, hn] at hq
            cases hq
          | cons b q =>
            have := (hstep b q).1 hq
            cases b
            · exact hno1 q (by simpa using this)
            · exact hno q (by simpa using this)

/-- On a complete tree the walk ends, if the bound leaves room for the internal records below `r`. -/
theorem walk_total {node : List Node} {root : Ref} {n : Nat} (h : ArenaOk node root n) :
    ∀ (k : Nat) (r : Ref) (p : Code) (t : CodeTable), r.toNat < 2 * n - 1 → r.toNat + 2 ≤ n + k → 1 ≤ k →
      ∃ t', walk node k r p t = some t' := by
  intro k
  induction k with
  | zero => intro r p t _ _ hk; omega
  | succ k ih =>
    intro r p t hr hk _
    rcases Nat.lt_or_ge r.toNat n with hlt | hge
    · obtain ⟨w, a, hx, _⟩ := h.leaves r.toNat hlt
      have hn : nodeOf node r = some (.leaf w a) := hx
      exact ⟨setCode t a p, by simp only [walk, hn]⟩
    · obtain ⟨w, l, rr, hx, hl, hrr⟩ := h.internals r.toNat hge hr
      have hn : nodeOf node r = some (.internal w l rr) := hx
      obtain ⟨t1, h1⟩ := ih l (p ++ [false]) t (by omega) (by omega) (by omega)
      obtain ⟨t2, h2⟩ := ih rr (p ++ [true]) t1 (by omega) (by omega) (by omega)
      exact ⟨t2, by simp only [walk, hn, h1, Option.bind_some, h2]⟩

/-! ### Each leaf of a complete tree has exactly one path -/

/-- The child of a record on one side. -/
def childRef (node : List Node) (b : Bool) (r : Ref) : Option Ref :=
  match nodeOf node r with
  | some (.internal _ l rr) => some (if b then rr else l)
  | _ => none

/-- The reference a path ends at. -/
def endRef (node : List Node) : Code → Ref → Option Ref
  | [], r => some r
  | b :: c, r => (childRef node b r).bind (endRef node c)

theorem endRef_append (node : List Node) (d : Code) :
    ∀ (c : Code) (r : Ref), endRef node (c ++ d) r = (endRef node c r).bind (endRef node d) := by
  intro c
  induction c with
  | nil => intro r; rfl
  | cons b c ih =>
    intro r
    simp only [List.cons_append, endRef]
    cases childRef node b r with
    | none => rfl
    | some x => simpa using ih x

theorem follow_eq_endRef (node : List Node) :
    ∀ (c : Code) (r : Ref), follow node c r = (endRef node c r).bind (nodeOf node) := by
  intro c
  induction c with
  | nil => intro r; rfl
  | cons b c ih =>
    intro r
    match hn : nodeOf node r with
    | none => rw [follow_absent _ hn]; simp [endRef, childRef, hn]
    | some (.leaf _ _) => rw [follow_leaf _ _ hn]; simp [endRef, childRef, hn]
    | some (.internal _ _ _) => rw [follow_internal _ _ hn, ih]; simp [endRef, childRef, hn]

theorem childRef_mem {node : List Node} {b : Bool} {r j : Ref} (h : childRef node b r = some j) :
    ∃ x, node[r.toNat]? = some x ∧ j.toNat ∈ x.children := by
  unfold childRef at h
  match hn : nodeOf node r with
  | none => rw [hn] at h; cases h
  | some (.leaf _ _) => rw [hn] at h; cases h
  | some (.internal w l rr) =>
    rw [hn] at h
    refine ⟨_, hn, ?_⟩
    cases b <;> cases h <;> simp [Node.children]

theorem child_lt_root {node : List Node} {root : Ref} {n : Nat} (h : ArenaOk node root n)
    {b : Bool} {r j : Ref} (hj : childRef node b r = some j) : j.toNat < 2 * n - 2 := by
  obtain ⟨x, hx, hm⟩ := childRef_mem hj
  have : j.toNat ∈ node.flatMap Node.children :=
    List.mem_flatMap.2 ⟨x, List.mem_of_getElem? hx, hm⟩
  exact List.mem_range.1 (h.parents.mem_iff.1 this)

/-- R29: each reference is the child of at most one record, on one side. -/
theorem parent_unique {node : List Node} {root : Ref} {n : Nat} (h : ArenaOk node root n)
    {b b' : Bool} {r r' j : Ref} (h1 : childRef node b r = some j) (h2 : childRef node b' r' = some j) :
    r = r' ∧ b = b' := by
  have hnd : (node.flatMap Node.children).Nodup := (h.parents.nodup_iff).2 List.nodup_range
  obtain ⟨hin, hpw⟩ := List.nodup_flatMap.1 hnd
  obtain ⟨x, hx, hm⟩ := childRef_mem h1
  obtain ⟨x', hx', hm'⟩ := childRef_mem h2
  have hrr : r.toNat = r'.toNat := by
    obtain ⟨hk, hke⟩ := List.getElem?_eq_some_iff.1 hx
    obtain ⟨hk', hke'⟩ := List.getElem?_eq_some_iff.1 hx'
    have hpw' := List.pairwise_iff_getElem.1 hpw
    rcases Nat.lt_trichotomy r.toNat r'.toNat with hlt | heq | hgt
    · have := hpw' _ _ hk hk' hlt
      rw [Function.onFun, hke, hke'] at this
      exact absurd hm' (this hm)
    · exact heq
    · have := hpw' _ _ hk' hk hgt
      rw [Function.onFun, hke, hke'] at this
      exact absurd hm (this hm')
  have hr : r = r' := BitVec.eq_of_toNat_eq hrr
  refine ⟨hr, ?_⟩
  subst hr
  have hnx := hin x (List.mem_of_getElem? hx)
  unfold childRef at h1 h2
  match hn : nodeOf node r with
  | none => rw [hn] at h1; cases h1
  | some (.leaf _ _) => rw [hn] at h1; cases h1
  | some (.internal w l rr) =>
    rw [hn] at h1 h2
    have hxe : x = .internal w l rr := by
      have : node[r.toNat]? = some (.internal w l rr) := hn
      rw [this] at hx; exact (Option.some.inj hx).symm
    subst hxe
    simp only [Node.children, List.nodup_cons, List.mem_cons, List.not_mem_nil, or_false] at hnx
    simp only [Option.some.injEq] at h1 h2
    cases b <;> cases b' <;> simp_all

theorem endRef_snoc {node : List Node} {c : Code} {b : Bool} {r j : Ref} :
    endRef node (c ++ [b]) r = some j ↔ ∃ i, endRef node c r = some i ∧ childRef node b i = some j := by
  rw [endRef_append, Option.bind_eq_some_iff]
  refine exists_congr fun i => and_congr_right fun _ => ?_
  simp only [endRef]
  cases childRef node b i <;> simp

/-- Two paths from the root to the same record are the same path. -/
theorem endRef_unique {node : List Node} {root : Ref} {n : Nat} (h : ArenaOk node root n) :
    ∀ (c d : Code) (j : Ref), endRef node c root = some j → endRef node d root = some j → c = d := by
  have hroot : ∀ (c : Code) (b : Bool), endRef node (c ++ [b]) root ≠ some root := by
    intro c b hc
    obtain ⟨i, _, hi⟩ := endRef_snoc.1 hc
    have := child_lt_root h hi
    have := h.root_last
    omega
  intro c
  induction c using List.reverseRecOn with
  | nil =>
    intro d j hc hd
    cases hc
    rcases List.eq_nil_or_concat d with rfl | ⟨d, b, rfl⟩
    · rfl
    · rw [List.concat_eq_append] at hd
      exact absurd hd (hroot d b)
  | append_singleton c b ih =>
    intro d j hc hd
    rcases List.eq_nil_or_concat d with rfl | ⟨d, b', rfl⟩
    · cases hd
      exact absurd hc (hroot c b)
    · rw [List.concat_eq_append] at hd ⊢
      obtain ⟨i, hi, hib⟩ := endRef_snoc.1 hc
      obtain ⟨i', hi', hib'⟩ := endRef_snoc.1 hd
      obtain ⟨rfl, rfl⟩ := parent_unique h hib hib'
      rw [ih d i hi hi']

/-- Every record of a complete tree lies on a path from the root. -/
theorem endRef_exists {node : List Node} {root : Ref} {n : Nat} (h : ArenaOk node root n) (j : Ref)
    (hj : j.toNat < 2 * n - 1) : ∃ c, endRef node c root = some j := by
  have hb := h.bounds
  have key : ∀ (m : Nat) (j : Ref), 2 * n - 2 - j.toNat = m → j.toNat < 2 * n - 1 →
      ∃ c, endRef node c root = some j := by
    intro m
    induction m using Nat.strongRecOn with
    | _ m ih =>
      intro j hm hj
      rcases Nat.lt_or_ge j.toNat (2 * n - 2) with hlt | hge
      · have hmem := h.parents.mem_iff.2 (List.mem_range.2 hlt)
        obtain ⟨x, hx, hc⟩ := List.mem_flatMap.1 hmem
        obtain ⟨k, hk, hkx⟩ := List.mem_iff_getElem.1 hx
        have hkx' : node[k]? = some x := by rw [List.getElem?_eq_getElem hk, hkx]
        cases x with
        | leaf w a => simp [Node.children] at hc
        | internal w l r =>
          have hcount := h.count
          have hkn : n ≤ k := by
            by_contra hlt'
            obtain ⟨w', a, hx', _⟩ := h.leaves k (by omega)
            rw [hkx'] at hx'; cases hx'
          obtain ⟨w', l', r', hx', hl, hr⟩ := h.internals k hkn (by omega)
          rw [hkx'] at hx'
          cases hx'
          have hkr : (BitVec.ofNat 9 k).toNat = k := by
            rw [BitVec.toNat_ofNat]; exact Nat.mod_eq_of_lt (by omega)
          have hnode : nodeOf node (BitVec.ofNat 9 k) = some (.internal w l r) := by
            unfold nodeOf; rw [hkr, hkx']
          simp only [Node.children, List.mem_cons, List.not_mem_nil, or_false] at hc
          have hjk : j.toNat < k := by rcases hc with hc | hc <;> omega
          obtain ⟨c, hcr⟩ := ih (2 * n - 2 - k) (by omega) (BitVec.ofNat 9 k) (by rw [hkr]) (by omega)
          rcases hc with hc | hc
          · refine ⟨c ++ [false], endRef_snoc.2 ⟨_, hcr, ?_⟩⟩
            simp only [childRef, hnode]
            simp [BitVec.eq_of_toNat_eq hc]
          · refine ⟨c ++ [true], endRef_snoc.2 ⟨_, hcr, ?_⟩⟩
            simp only [childRef, hnode]
            simp [BitVec.eq_of_toNat_eq hc]
      · refine ⟨[], ?_⟩
        have : root = j := BitVec.eq_of_toNat_eq (by have := h.root_last; omega)
        simp [endRef, this]
  exact key _ j rfl hj

/-- In a complete tree the paths to the leaf of one symbol are one path. -/
theorem leadsTo_unique {node : List Node} {root : Ref} {n : Nat} (h : ArenaOk node root n)
    {c d : Code} {a : Byte} (hc : LeadsTo node root c a) (hd : LeadsTo node root d a) : c = d := by
  obtain ⟨w, hc⟩ := hc
  obtain ⟨w', hd⟩ := hd
  rw [follow_eq_endRef] at hc hd
  obtain ⟨i, hi, hni⟩ := Option.bind_eq_some_iff.1 hc
  obtain ⟨j, hj, hnj⟩ := Option.bind_eq_some_iff.1 hd
  have hij : i = j := by
    apply BitVec.eq_of_toNat_eq
    rcases Nat.lt_trichotomy i.toNat j.toNat with hlt | heq | hgt
    · have := h.ascending _ _ _ _ _ _ hlt hni hnj
      exact absurd this (BitVec.lt_irrefl a)
    · exact heq
    · have := h.ascending _ _ _ _ _ _ hgt hnj hni
      exact absurd this (BitVec.lt_irrefl a)
  subst hij
  exact endRef_unique h c d i hi hj

/-- Every leaf of a complete tree has a path. -/
theorem leadsTo_exists {node : List Node} {root : Ref} {n : Nat} (h : ArenaOk node root n)
    {k : Nat} {w : Weight} {a : Byte} (hk : node[k]? = some (.leaf w a)) :
    ∃ c, LeadsTo node root c a := by
  have hlt : k < node.length := by
    by_contra hc
    rw [List.getElem?_eq_none (by omega)] at hk
    cases hk
  have hcount := h.count
  have hb := h.bounds
  have hkr : (BitVec.ofNat 9 k).toNat = k := by
    rw [BitVec.toNat_ofNat]; exact Nat.mod_eq_of_lt (by omega)
  obtain ⟨c, hc⟩ := endRef_exists h (BitVec.ofNat 9 k) (by omega)
  refine ⟨c, w, ?_⟩
  rw [follow_eq_endRef, hc, Option.bind_some]
  unfold nodeOf
  rw [hkr, hk]

/-! ### CA.ASSIGN's table -/

/-- A table of one leaf: the one-bit code `0` (R132). -/
theorem assignCodes_leaf {node : List Node} {root : Ref} {w : Weight} {s : Byte}
    (h : nodeOf node root = some (.leaf w s)) :
    assignCodes node root = some (setCode noCodes s [false]) := by
  simp [assignCodes, h]

theorem assignCodes_walk {node : List Node} {root : Ref}
    (h : ∀ w s, nodeOf node root ≠ some (.leaf w s)) :
    assignCodes node root = walk node (Config.codeMax + 1) root [] noCodes := by
  unfold assignCodes
  split
  next w s heq => exact absurd heq (h w s)
  · rfl

/-- On a complete tree CA.ASSIGN has a table. -/
theorem assignCodes_total {node : List Node} {root : Ref} {n : Nat} (h : ArenaOk node root n) :
    ∃ t, assignCodes node root = some t := by
  have hb := h.bounds
  have hr := h.root_last
  by_cases hleaf : ∃ w s, nodeOf node root = some (.leaf w s)
  · obtain ⟨w, s, hl⟩ := hleaf
    exact ⟨_, assignCodes_leaf hl⟩
  · rw [assignCodes_walk fun w s hl => hleaf ⟨w, s, hl⟩]
    exact walk_total h _ _ _ _ (by omega) (by simp only [Config.codeMax]; omega) (by simp)

/-- What any table of CA.ASSIGN holds: for a root that is a leaf the one code `0`; otherwise, for each
symbol, a path to its leaf, of 1 to 255 bits, or `absent` if there is none. -/
theorem assignCodes_spec {node : List Node} {root : Ref} {t : CodeTable}
    (h : assignCodes node root = some t) :
    (∃ w s, nodeOf node root = some (.leaf w s)
        ∧ ∀ a, codeOf t a = if a = s then some [false] else none)
      ∨ ((∃ w l r, nodeOf node root = some (.internal w l r))
        ∧ ∀ a, (∃ q, LeadsTo node root q a ∧ codeOf t a = some q ∧ 1 ≤ q.length
              ∧ q.length ≤ Config.codeMax)
            ∨ ((∀ q, ¬ LeadsTo node root q a) ∧ codeOf t a = none)) := by
  match hn : nodeOf node root with
  | some (.leaf w s) =>
    rw [assignCodes_leaf hn] at h
    cases h
    exact .inl ⟨w, s, rfl, fun a => by rw [codeOf_setCode]; simp⟩
  | none =>
    rw [assignCodes_walk (by simp [hn])] at h
    simp [walk, hn] at h
  | some (.internal w l r) =>
    rw [assignCodes_walk (by simp [hn])] at h
    refine .inr ⟨⟨w, l, r, rfl⟩, fun a => ?_⟩
    rcases walk_spec _ _ _ _ _ h a with ⟨q, hq, hc, hl⟩ | ⟨hno, hc⟩
    · refine .inl ⟨q, hq, by simpa using hc, ?_, by omega⟩
      cases q with
      | nil =>
        obtain ⟨w', hq⟩ := hq
        rw [follow_nil, hn] at hq
        cases hq
      | cons b q => simp
    · exact .inr ⟨hno, by simpa using hc⟩

/-! ### The greatest length -/

theorem foldl_max_ge (l : List (Option Code)) :
    ∀ m : Nat, m ≤ l.foldl (fun m e => match e with | none => m | some c => max m c.length) m := by
  induction l with
  | nil => intro m; exact Nat.le_refl _
  | cons e l ih =>
    intro m
    rw [List.foldl_cons]
    cases e with
    | none => exact ih m
    | some c => exact Nat.le_trans (Nat.le_max_left _ _) (ih _)

theorem foldl_max_mem (l : List (Option Code)) :
    ∀ (m : Nat) (c : Code), some c ∈ l →
      c.length ≤ l.foldl (fun m e => match e with | none => m | some c => max m c.length) m := by
  induction l with
  | nil => intro m c h; cases h
  | cons e l ih =>
    intro m c h
    rw [List.foldl_cons]
    rcases List.mem_cons.1 h with rfl | h
    · exact Nat.le_trans (Nat.le_max_right _ _) (foldl_max_ge l _)
    · exact ih _ c h

theorem foldl_max_attained (l : List (Option Code)) :
    ∀ m : Nat, l.foldl (fun m e => match e with | none => m | some c => max m c.length) m = m
      ∨ ∃ c, some c ∈ l
        ∧ l.foldl (fun m e => match e with | none => m | some c => max m c.length) m = c.length := by
  induction l with
  | nil => intro m; exact .inl rfl
  | cons e l ih =>
    intro m
    rw [List.foldl_cons]
    cases e with
    | none =>
      rcases ih m with h | ⟨c, hc, h⟩
      · exact .inl h
      · exact .inr ⟨c, by simp [hc], h⟩
    | some d =>
      rcases ih (max m d.length) with h | ⟨c, hc, h⟩
      · rw [h]
        rcases Nat.le_total m d.length with hle | hle
        · exact .inr ⟨d, by simp, by simp [Nat.max_eq_right hle]⟩
        · exact .inl (Nat.max_eq_left hle)
      · exact .inr ⟨c, by simp [hc], h⟩

theorem mem_codeTable {t : CodeTable} {e : Option Code} : e ∈ t.toList ↔ ∃ a, codeOf t a = e := by
  constructor
  · intro h
    obtain ⟨k, hk, rfl⟩ := List.mem_iff_getElem.1 h
    have hk' : k < 256 := by simpa using hk
    exact ⟨BitVec.ofNat 8 k, by simp [codeOf, Nat.mod_eq_of_lt hk']⟩
  · rintro ⟨a, rfl⟩
    simp [codeOf]

/-- No present code is longer than the greatest length. -/
theorem length_le_maxLen {t : CodeTable} {a : Byte} {c : Code} (h : codeOf t a = some c) :
    c.length ≤ maxLen t :=
  foldl_max_mem t.toList 0 c (mem_codeTable.2 ⟨a, h⟩)

/-- The greatest length is a present code's, or 0. -/
theorem maxLen_attained (t : CodeTable) :
    maxLen t = 0 ∨ ∃ a c, codeOf t a = some c ∧ maxLen t = c.length := by
  rcases foldl_max_attained t.toList 0 with h | ⟨c, hc, h⟩
  · exact .inl h
  · obtain ⟨a, ha⟩ := mem_codeTable.1 hc
    exact .inr ⟨a, c, ha, h⟩

end Sys2Proof.Laws
end

