-- ==== Sys2Proof/Laws/Effect.lean ====
section
/-! SUPPORT. What a command can do, said once: one case per path of the meanings, each with its condition and
its next state. A proof about every next state is a case analysis on `exec_effect` (or `step_effect`). -/

namespace Sys2Proof.Laws

open Sys2Proof Sys2Proof.Machine

@[simp] theorem takeTree_inputs (s : State) (b : Builder) : (s.takeTree b).inputs = s.inputs := by
  unfold State.takeTree; split <;> rfl
@[simp] theorem takeTree_rsps (s : State) (b : Builder) : (s.takeTree b).rsps = s.rsps := by
  unfold State.takeTree; split <;> rfl
@[simp] theorem takeTree_buFifoCap (s : State) (b : Builder) :
    (s.takeTree b).buFifoCap = s.buFifoCap := by
  unfold State.takeTree; split <;> rfl
@[simp] theorem takeTree_latched (s : State) (b : Builder) : (s.takeTree b).latched = s.latched := by
  unfold State.takeTree; split <;> rfl

theorem next_inj {s t : State} (h : (Host.Outcome.next s : Result) = .next t) : s = t := by cases h; rfl

theorem count_pos_iff {a : Count} : 0 < a ↔ a ≠ 0 := by
  rw [BitVec.lt_def, ne_eq, ← BitVec.toNat_inj]; simp; omega

/-- A symbol is present when its count is not 0 (R17). -/
theorem present_iff {s : State} : (∃ a, 0 < s.freqAt a) ↔ ∃ a, s.freqAt a ≠ 0 := by
  simp only [count_pos_iff]

/-- The FIFO has room exactly when it is not full (R152, R209(f)). -/
theorem fifoHasRoom_iff (s : State) : fifoHasRoom s.buFifoCap s.buFifo.length = true ↔ ¬ FifoFull s := by
  unfold FifoFull
  cases hl : s.buFifo.length with
  | zero => simp [fifoHasRoom]
  | succ n =>
    cases hc : s.buFifoCap with
    | none => simp [fifoHasRoom]
    | some k => simp [fifoHasRoom]

/-- The next state of a TB.BUILD that finds a present symbol. -/
theorem exec_tbBuild_next {s : State} (h : s.faulted = false) (hp : ∃ a, s.freqAt a ≠ 0) :
    ∃ e : Entry, (buildTree s.freqAt).pq = [e]
      ∧ exec .tbBuild s = .next ({ s with
          pq := [], node := (buildTree s.freqAt).node, tbRoot := e.ref, tbValid := true }.respond
          (.ok (rootValue (BitVec.ofNat 10 (buildTree s.freqAt).node.length) e.ref))) := by
  obtain ⟨e, he⟩ := buildTree_last s.freqAt (present_iff.2 hp)
  refine ⟨e, ?_, ?_⟩
  · cases hq : (buildTree s.freqAt).pq with
    | nil => rw [hq] at he; cases he
    | cons x xs => rw [hq] at he; simp only [pqRem, Option.some.injEq, Prod.mk.injEq] at he; rw [he.1, he.2]
  · rw [exec_tbBuild h hp, takeTree_of_last he]
    rfl

/-- `Effect i s t`: the command `i` takes the block from `s` to `t`, by one of the paths of its rule. -/
inductive Effect : Instr → State → State → Prop
  /-- R206 -/
  | faulted {i} {s} (hf : s.faulted = true) (hr : i ≠ .sysReset) (hs : i ≠ .sysStatus) :
    Effect i s (s.respond .refused)
  /-- R160 -/
  | sysNop {s} (hf : s.faulted = false) :
    Effect .sysNop s (s.respond (.ok 0))
  /-- R161 -/
  | sysReset {s} :
    Effect .sysReset s (s.resetBlock.respond (.ok 0))
  /-- R162 -/
  | sysStatus {s} :
    Effect .sysStatus s (s.respond (.ok (s.statusReg.setWidth 56)))
  /-- R101 -/
  | fcClr {s} (hf : s.faulted = false) :
    Effect .fcClr s ({ s with freq := Vector.replicate 256 0 }.respond (.ok 0))
  /-- R102 -/
  | fcPut {s} {a} (hf : s.faulted = false) (hc : s.freqAt a ≠ 0xFFFFFFFF) :
    Effect (.fcPut a) s ((s.setFreq a (s.freqAt a + 1)).respond (.ok 0))
  /-- R102 -/
  | fcOverflow {s} {a} (hf : s.faulted = false) (hc : s.freqAt a = 0xFFFFFFFF) :
    Effect (.fcPut a) s (s.raise .fcOverflow a)
  /-- R103 -/
  | fcGet {s} {a} (hf : s.faulted = false) :
    Effect (.fcGet a) s (s.respond (.ok ((s.freqAt a).setWidth 56)))
  /-- R114 -/
  | pqClr {s} (hf : s.faulted = false) :
    Effect .pqClr s ({ s with pq := [] }.respond (.ok 0))
  /-- R115 -/
  | pqAdd {s} {w} {r} (hf : s.faulted = false) (hl : s.pq.length < Config.pqCap) :
    Effect (.pqAdd w r) s ({ s with pq := Machine.pqAdd ⟨w, r⟩ s.pq }.respond (.ok 0))
  /-- R115 -/
  | pqFull {s} {w} {r} (hf : s.faulted = false) (hl : Config.pqCap ≤ s.pq.length) :
    Effect (.pqAdd w r) s (s.respond .refused)
  /-- R116 -/
  | pqEmpty {s} (hf : s.faulted = false) (hq : s.pq = []) :
    Effect .pqRem s (s.respond .none)
  /-- R116 -/
  | pqRem {s} {e} {rest} (hf : s.faulted = false) (hq : s.pq = e :: rest) :
    Effect .pqRem s ({ s with pq := rest }.respond (.ok e.value))
  /-- R117 -/
  | pqLen {s} (hf : s.faulted = false) :
    Effect .pqLen s (s.respond (.ok (s.pqLen.setWidth 56)))
  /-- R121 -/
  | emptyInput {s} (hf : s.faulted = false) (hp : ∀ a, s.freqAt a = 0) :
    Effect .tbBuild s (s.raise .emptyInput 0)
  /-- R121 -/
  | tbBuild {s} {e}
      (hf : s.faulted = false)
      (hp : ∃ a, s.freqAt a ≠ 0)
      (hq : (buildTree s.freqAt).pq = [e]) :
    Effect .tbBuild s ({ s with
      pq := [], node := (buildTree s.freqAt).node, tbRoot := e.ref, tbValid := true }.respond
      (.ok (rootValue (BitVec.ofNat 10 (buildTree s.freqAt).node.length) e.ref)))
  /-- R122 -/
  | noRoot {s} (hf : s.faulted = false) (hv : s.tbValid = false) :
    Effect .tbRoot s (s.respond .none)
  /-- R122 -/
  | tbRoot {s} (hf : s.faulted = false) (hv : s.tbValid = true) :
    Effect .tbRoot s (s.respond (.ok (rootValue s.nodeCount s.tbRoot)))
  /-- R123 -/
  | noWeight {s} {r} (hf : s.faulted = false) (hn : s.treeNode r = none) :
    Effect (.tbWeight r) s (s.respond .none)
  /-- R123 -/
  | tbWeight {s} {r} {n} (hf : s.faulted = false) (hn : s.treeNode r = some n) :
    Effect (.tbWeight r) s (s.respond (.ok (n.weight.setWidth 56)))
  /-- R124 -/
  | noLink {s} {r} (hf : s.faulted = false) (hn : s.treeNode r = none) :
    Effect (.tbLink r) s (s.respond .none)
  /-- R124 -/
  | tbLink {s} {r} {n} (hf : s.faulted = false) (hn : s.treeNode r = some n) :
    Effect (.tbLink r) s (s.respond (.ok n.linkValue))
  /-- R133 -/
  | noTree {s} (hf : s.faulted = false) (hv : s.tbValid = false) :
    Effect .caAssign s (s.respond .refused)
  /-- R133 -/
  | caAssign {s} {t}
      (hf : s.faulted = false)
      (hv : s.tbValid = true)
      (ht : assignCodes s.node s.tbRoot = some t) :
    Effect .caAssign s ({ s with code := t }.respond
      (.ok ((BitVec.ofNat 8 (maxLen t)).setWidth 56)))
  /-- R134 -/
  | noLen {s} {a} (hf : s.faulted = false) (hc : s.codeAt a = none) :
    Effect (.caLen a) s (s.respond .none)
  /-- R134 -/
  | caLen {s} {a} {bits} (hf : s.faulted = false) (hc : s.codeAt a = some bits) :
    Effect (.caLen a) s (s.respond (.ok bits.lenValue))
  /-- R135 -/
  | noBit {s} {a} {k}
      (hf : s.faulted = false)
      (hc : ((s.codeAt a).bind fun bits => bits[k.toNat]?) = none) :
    Effect (.caBit a k) s (s.respond .none)
  /-- R135 -/
  | caBit {s} {a} {k} {b}
      (hf : s.faulted = false)
      (hc : ((s.codeAt a).bind fun bits => bits[k.toNat]?) = some b) :
    Effect (.caBit a k) s (s.respond (.ok (bitValue b)))
  /-- R141 -/
  | bpClr {s} (hf : s.faulted = false) :
    Effect .bpClr s ({ s with bpAcc := 0, bpN := 0, bpTotal := 0, bpFinal := false }.respond (.ok 0))
  /-- R142 -/
  | putFinal {s} {b} (hf : s.faulted = false) (hb : s.bpFinal = true) :
    Effect (.bpPut b) s (s.respond .refused)
  /-- R142 -/
  | bpOverflow {s} {b}
      (hf : s.faulted = false)
      (hb : s.bpFinal = false)
      (ht : s.bpTotal = 0xFFFFFFFFFFFF) :
    Effect (.bpPut b) s (s.raise .bpOverflow 0)
  /-- R142 -/
  | bpEmit {s} {b}
      (hf : s.faulted = false)
      (hb : s.bpFinal = false)
      (ht : s.bpTotal ≠ 0xFFFFFFFFFFFF)
      (hn : s.bpN = 7) :
    Effect (.bpPut b) s ({ s with
      bpTotal := s.bpTotal + 1, bpAcc := 0, bpN := 0 }.respond
      (.ok ((packBit s.bpAcc b).setWidth 56)))
  /-- R142 -/
  | bpHold {s} {b}
      (hf : s.faulted = false)
      (hb : s.bpFinal = false)
      (ht : s.bpTotal ≠ 0xFFFFFFFFFFFF)
      (hn : s.bpN ≠ 7) :
    Effect (.bpPut b) s ({ s with
      bpTotal := s.bpTotal + 1, bpAcc := packBit s.bpAcc b, bpN := s.bpN + 1 }.respond .none)
  /-- R143 -/
  | flushFinal {s} (hf : s.faulted = false) (hb : s.bpFinal = true) :
    Effect .bpFlush s (s.respond .refused)
  /-- R143 -/
  | flushEmpty {s} (hf : s.faulted = false) (hb : s.bpFinal = false) (hn : s.bpN = 0) :
    Effect .bpFlush s ({ s with bpFinal := true }.respond .none)
  /-- R143 -/
  | flushEmit {s} (hf : s.faulted = false) (hb : s.bpFinal = false) (hn : s.bpN ≠ 0) :
    Effect .bpFlush s ({ s with bpFinal := true, bpAcc := 0, bpN := 0 }.respond
      (.ok ((padByte s.bpAcc s.bpN).setWidth 56)))
  /-- R144 -/
  | bpCount {s} (hf : s.faulted = false) :
    Effect .bpCount s (s.respond (.ok (s.bpTotal.setWidth 56)))
  /-- R151 -/
  | buStart {s} {n} (hf : s.faulted = false) :
    Effect (.buStart n) s ({ s with buFifo := [], buCur := 0, buLeft := 0, buRem := n }.respond (.ok 0))
  /-- R152 -/
  | buFeed {s} {b} (hf : s.faulted = false) (hq : ¬ FifoFull s) :
    Effect (.buFeed b) s ({ s with buFifo := s.buFifo ++ [b] }.respond (.ok 0))
  /-- R152 -/
  | fifoFull {s} {b} (hf : s.faulted = false) (hq : FifoFull s) :
    Effect (.buFeed b) s (s.respond .refused)
  /-- R153 -/
  | nextDone {s} (hf : s.faulted = false) (hr : s.buRem = 0) :
    Effect .buNext s (s.respond .none)
  /-- R153 -/
  | nextHeld {s} (hf : s.faulted = false) (hr : s.buRem ≠ 0) (hl : s.buLeft ≠ 0) :
    Effect .buNext s ({ s with
      buCur := s.buCur <<< 1, buLeft := s.buLeft - 1, buRem := s.buRem - 1 }.respond
      (.ok (bitValue s.buCur.msb)))
  /-- R153 -/
  | nextFetch {s} {b} {rest}
      (hf : s.faulted = false)
      (hr : s.buRem ≠ 0)
      (hl : s.buLeft = 0)
      (hq : s.buFifo = b :: rest) :
    Effect .buNext s ({ s with
      buFifo := rest, buCur := b <<< 1, buLeft := 7, buRem := s.buRem - 1 }.respond
      (.ok (bitValue b.msb)))
  /-- R153 -/
  | corrupt {s} (hf : s.faulted = false) (hr : s.buRem ≠ 0) (hl : s.buLeft = 0) (hq : s.buFifo = []) :
    Effect .buNext s (s.raise .corrupt 0)
  /-- R154 -/
  | buRem {s} (hf : s.faulted = false) :
    Effect .buRem s (s.respond (.ok (s.buRem.setWidth 56)))

/-- Every next state of a command is one of the effects. -/
theorem exec_effect {i : Instr} {s t : State} (h : exec i s = .next t) : Effect i s t := by
  by_cases hf : s.faulted = true
  · by_cases h1 : i = .sysReset
    · subst h1; rw [← next_inj h]; exact .sysReset
    · by_cases h2 : i = .sysStatus
      · subst h2; rw [← next_inj h]; exact .sysStatus
      · rw [exec_faulted hf h1 h2] at h
        rw [← next_inj h]; exact .faulted hf h1 h2
  · have hf : s.faulted = false := by simpa using hf
    cases i with
    | sysNop => rw [exec_sysNop hf] at h; rw [← next_inj h]; exact .sysNop hf
    | sysReset => rw [← next_inj h]; exact .sysReset
    | sysStatus => rw [← next_inj h]; exact .sysStatus
    | fcClr => rw [exec_fcClr hf] at h; rw [← next_inj h]; exact .fcClr hf
    | fcPut a =>
      rw [exec_fcPut hf] at h; rw [← next_inj h]
      split
      next hc => exact .fcOverflow hf hc
      next hc => exact .fcPut hf hc
    | fcGet a => rw [exec_fcGet hf] at h; rw [← next_inj h]; exact .fcGet hf
    | pqClr => rw [exec_pqClr hf] at h; rw [← next_inj h]; exact .pqClr hf
    | pqAdd w r =>
      rw [exec_pqAdd hf] at h; rw [← next_inj h]
      split
      next hc => exact .pqAdd hf hc
      next hc => exact .pqFull hf (Nat.le_of_not_lt hc)
    | pqRem =>
      cases hq : s.pq with
      | nil => rw [exec_pqRem_nil hf hq] at h; rw [← next_inj h]; exact .pqEmpty hf hq
      | cons e rest => rw [exec_pqRem_cons hf hq] at h; rw [← next_inj h]; exact .pqRem hf hq
    | pqLen => rw [exec_pqLen hf] at h; rw [← next_inj h]; exact .pqLen hf
    | tbBuild =>
      by_cases he : ∀ a, s.freqAt a = 0
      · rw [exec_tbBuild_empty hf he] at h; rw [← next_inj h]; exact .emptyInput hf he
      · have hp : ∃ a, s.freqAt a ≠ 0 := by simpa using he
        obtain ⟨e, hq, hx⟩ := exec_tbBuild_next hf hp
        rw [hx] at h; rw [← next_inj h]; exact .tbBuild hf hp hq
    | tbRoot =>
      rw [exec_tbRoot hf] at h; rw [← next_inj h]
      split
      next hc => exact .tbRoot hf hc
      next hc => exact .noRoot hf (by simpa using hc)
    | tbWeight r =>
      rw [exec_tbWeight hf] at h; rw [← next_inj h]
      split
      next hc => exact .noWeight hf hc
      next hc => exact .tbWeight hf hc
    | tbLink r =>
      rw [exec_tbLink hf] at h; rw [← next_inj h]
      split
      next hc => exact .noLink hf hc
      next hc => exact .tbLink hf hc
    | caAssign =>
      cases hv : s.tbValid with
      | false => rw [exec_caAssign_noTree hf hv] at h; rw [← next_inj h]; exact .noTree hf hv
      | true =>
        rw [exec_caAssign hf hv] at h
        split at h
        · cases h
        next ht => rw [← next_inj h]; exact .caAssign hf hv ht
    | caLen a =>
      rw [exec_caLen hf] at h; rw [← next_inj h]
      split
      next hc => exact .noLen hf hc
      next hc => exact .caLen hf hc
    | caBit a k =>
      rw [exec_caBit hf] at h; rw [← next_inj h]
      split
      next hc => exact .noBit hf hc
      next hc => exact .caBit hf hc
    | bpClr => rw [exec_bpClr hf] at h; rw [← next_inj h]; exact .bpClr hf
    | bpPut b =>
      cases hb : s.bpFinal with
      | true => rw [exec_bpPut_final hf b hb] at h; rw [← next_inj h]; exact .putFinal hf hb
      | false =>
        rw [exec_bpPut hf b hb] at h; rw [← next_inj h]
        split
        next ht => exact .bpOverflow hf hb ht
        next ht =>
          split
          next hn => exact .bpEmit hf hb ht hn
          next hn => exact .bpHold hf hb ht hn
    | bpFlush =>
      cases hb : s.bpFinal with
      | true => rw [exec_bpFlush_final hf hb] at h; rw [← next_inj h]; exact .flushFinal hf hb
      | false =>
        rw [exec_bpFlush hf hb] at h; rw [← next_inj h]
        split
        next hn => exact .flushEmpty hf hb hn
        next hn => exact .flushEmit hf hb hn
    | bpCount => rw [exec_bpCount hf] at h; rw [← next_inj h]; exact .bpCount hf
    | buStart n => rw [exec_buStart hf] at h; rw [← next_inj h]; exact .buStart hf
    | buFeed b =>
      rw [exec_buFeed hf] at h; rw [← next_inj h]
      split
      next hc => exact .buFeed hf ((fifoHasRoom_iff s).1 hc)
      next hc => exact .fifoFull hf (by rw [fifoHasRoom_iff] at hc; exact not_not.1 hc)
    | buNext =>
      by_cases hr : s.buRem = 0
      · rw [exec_buNext_done hf hr] at h; rw [← next_inj h]; exact .nextDone hf hr
      · by_cases hl : s.buLeft = 0
        · cases hq : s.buFifo with
          | nil => rw [exec_buNext_empty hf hr hl hq] at h; rw [← next_inj h]; exact .corrupt hf hr hl hq
          | cons b rest =>
            rw [exec_buNext_fetch hf hr hl hq] at h; rw [← next_inj h]; exact .nextFetch hf hr hl hq
        · rw [exec_buNext_held hf hr hl] at h; rw [← next_inj h]; exact .nextHeld hf hr hl
    | buRem => rw [exec_buRem hf] at h; rw [← next_inj h]; exact .buRem hf

/-- Every effect happens. -/
theorem exec_of_effect {i : Instr} {s t : State} (h : Effect i s t) : exec i s = .next t := by
  cases h with
  | faulted hf hr hs => exact exec_faulted hf hr hs
  | sysNop hf => exact exec_sysNop hf
  | sysReset => rfl
  | sysStatus => rfl
  | fcClr hf => exact exec_fcClr hf
  | fcPut hf hc => rw [exec_fcPut hf, if_neg hc]
  | fcOverflow hf hc => rw [exec_fcPut hf, if_pos hc]
  | fcGet hf => exact exec_fcGet hf _
  | pqClr hf => exact exec_pqClr hf
  | pqAdd hf hl => rw [exec_pqAdd hf, if_pos hl]
  | pqFull hf hl => rw [exec_pqAdd hf, if_neg (Nat.not_lt.2 hl)]
  | pqEmpty hf hq => exact exec_pqRem_nil hf hq
  | pqRem hf hq => exact exec_pqRem_cons hf hq
  | pqLen hf => exact exec_pqLen hf
  | emptyInput hf hp => exact exec_tbBuild_empty hf hp
  | tbBuild hf hp hq =>
    obtain ⟨e, hq', hx⟩ := exec_tbBuild_next hf hp
    rw [hq] at hq'
    rw [hx, (List.cons.inj hq').1]
  | noRoot hf hv => rw [exec_tbRoot hf, hv]; rfl
  | tbRoot hf hv => rw [exec_tbRoot hf, if_pos hv]
  | noWeight hf hn => rw [exec_tbWeight hf, hn]
  | tbWeight hf hn => rw [exec_tbWeight hf, hn]
  | noLink hf hn => rw [exec_tbLink hf, hn]
  | tbLink hf hn => rw [exec_tbLink hf, hn]
  | noTree hf hv => exact exec_caAssign_noTree hf hv
  | caAssign hf hv ht => rw [exec_caAssign hf hv, ht]
  | noLen hf hc => rw [exec_caLen hf, hc]
  | caLen hf hc => rw [exec_caLen hf, hc]
  | noBit hf hc => rw [exec_caBit hf, hc]
  | caBit hf hc => rw [exec_caBit hf, hc]
  | bpClr hf => exact exec_bpClr hf
  | putFinal hf hb => exact exec_bpPut_final hf _ hb
  | bpOverflow hf hb ht => rw [exec_bpPut hf _ hb, if_pos ht]
  | bpEmit hf hb ht hn => rw [exec_bpPut hf _ hb, if_neg ht, if_pos hn]
  | bpHold hf hb ht hn => rw [exec_bpPut hf _ hb, if_neg ht, if_neg hn]
  | flushFinal hf hb => exact exec_bpFlush_final hf hb
  | flushEmpty hf hb hn => rw [exec_bpFlush hf hb, if_pos hn]
  | flushEmit hf hb hn => rw [exec_bpFlush hf hb, if_neg hn]
  | bpCount hf => exact exec_bpCount hf
  | buStart hf => exact exec_buStart hf _
  | buFeed hf hq => rw [exec_buFeed hf, if_pos ((fifoHasRoom_iff _).2 hq)]
  | fifoFull hf hq => rw [exec_buFeed hf, if_neg fun hc => (fifoHasRoom_iff _).1 hc hq]
  | nextDone hf hr => exact exec_buNext_done hf hr
  | nextHeld hf hr hl => exact exec_buNext_held hf hr hl
  | nextFetch hf hr hl hq => exact exec_buNext_fetch hf hr hl hq
  | corrupt hf hr hl hq => exact exec_buNext_empty hf hr hl hq
  | buRem hf => exact exec_buRem hf

theorem exec_iff_effect {i : Instr} {s t : State} : exec i s = .next t ↔ Effect i s t :=
  ⟨exec_effect, exec_of_effect⟩

/-- Every command but CA.ASSIGN gives a next state in every state, and CA.ASSIGN where it has a table. -/
theorem exec_total {i : Instr} {s : State}
    (h : i = .caAssign → s.tbValid = true → ∃ t, assignCodes s.node s.tbRoot = some t) :
    ∃ t, exec i s = .next t := by
  by_cases hf : s.faulted = true
  · by_cases h1 : i = .sysReset
    · subst h1; exact ⟨_, rfl⟩
    · by_cases h2 : i = .sysStatus
      · subst h2; exact ⟨_, rfl⟩
      · exact ⟨_, exec_faulted hf h1 h2⟩
  · have hf : s.faulted = false := by simpa using hf
    cases i with
    | sysNop => exact ⟨_, exec_sysNop hf⟩
    | sysReset => exact ⟨_, rfl⟩
    | sysStatus => exact ⟨_, rfl⟩
    | fcClr => exact ⟨_, exec_fcClr hf⟩
    | fcPut a => exact ⟨_, exec_fcPut hf a⟩
    | fcGet a => exact ⟨_, exec_fcGet hf a⟩
    | pqClr => exact ⟨_, exec_pqClr hf⟩
    | pqAdd w r => exact ⟨_, exec_pqAdd hf w r⟩
    | pqRem =>
      cases hq : s.pq with
      | nil => exact ⟨_, exec_pqRem_nil hf hq⟩
      | cons e rest => exact ⟨_, exec_pqRem_cons hf hq⟩
    | pqLen => exact ⟨_, exec_pqLen hf⟩
    | tbBuild =>
      by_cases he : ∀ a, s.freqAt a = 0
      · exact ⟨_, exec_tbBuild_empty hf he⟩
      · obtain ⟨e, _, hx⟩ := exec_tbBuild_next hf (by simpa using he)
        exact ⟨_, hx⟩
    | tbRoot => exact ⟨_, exec_tbRoot hf⟩
    | tbWeight r => exact ⟨_, exec_tbWeight hf r⟩
    | tbLink r => exact ⟨_, exec_tbLink hf r⟩
    | caAssign =>
      cases hv : s.tbValid with
      | false => exact ⟨_, exec_caAssign_noTree hf hv⟩
      | true =>
        obtain ⟨t, ht⟩ := h rfl hv
        exact ⟨_, by rw [exec_caAssign hf hv, ht]⟩
    | caLen a => exact ⟨_, exec_caLen hf a⟩
    | caBit a k => exact ⟨_, exec_caBit hf a k⟩
    | bpClr => exact ⟨_, exec_bpClr hf⟩
    | bpPut b =>
      cases hb : s.bpFinal with
      | true => exact ⟨_, exec_bpPut_final hf b hb⟩
      | false => exact ⟨_, exec_bpPut hf b hb⟩
    | bpFlush =>
      cases hb : s.bpFinal with
      | true => exact ⟨_, exec_bpFlush_final hf hb⟩
      | false => exact ⟨_, exec_bpFlush hf hb⟩
    | bpCount => exact ⟨_, exec_bpCount hf⟩
    | buStart n => exact ⟨_, exec_buStart hf n⟩
    | buFeed b => exact ⟨_, exec_buFeed hf b⟩
    | buNext =>
      by_cases hr : s.buRem = 0
      · exact ⟨_, exec_buNext_done hf hr⟩
      · by_cases hl : s.buLeft = 0
        · cases hq : s.buFifo with
          | nil => exact ⟨_, exec_buNext_empty hf hr hl hq⟩
          | cons b rest => exact ⟨_, exec_buNext_fetch hf hr hl hq⟩
        · exact ⟨_, exec_buNext_held hf hr hl⟩
    | buRem => exact ⟨_, exec_buRem hf⟩

/-- What a TB.BUILD that takes no fault leaves. -/
theorem exec_tbBuild_spec {s t : State} (hf : s.faulted = false) (h : exec .tbBuild s = .next t)
    (ht : t.faulted = false) :
    (∃ a, s.freqAt a ≠ 0)
      ∧ t = { s with
          pq := [], node := (buildTree s.freqAt).node,
          tbRoot := BitVec.ofNat 9 (2 * (presentSymbols s.freqAt).length - 2), tbValid := true }.respond
          (.ok (rootValue t.nodeCount t.tbRoot))
      ∧ ArenaOk t.node t.tbRoot (presentSymbols s.freqAt).length
      ∧ t.node.take (presentSymbols s.freqAt).length = leavesFor s.freqAt
      ∧ (∃ x, t.node[2 * (presentSymbols s.freqAt).length - 2]? = some x
          ∧ x.weight.toNat = totalCount s.freqAt)
      ∧ ∀ k w l r, t.node[k]? = some (.internal w l r) → MergeOk t.node k w l r := by
  cases exec_effect h
  case emptyInput => cases ht
  case faulted _ _ hx => rw [hf] at hx; cases hx
  case tbBuild e _ hp hq =>
    obtain ⟨⟨w, hw, hwt, x, hx, hxw⟩, h2, h3, h4⟩ := buildTree_spec s.freqAt (present_iff.2 hp)
    rw [hq] at hw
    have he : e.ref = BitVec.ofNat 9 (2 * (presentSymbols s.freqAt).length - 2) := by
      rw [(List.cons.inj hw).1]
    exact ⟨hp, by rw [he]; rfl, by simpa [he] using h2, h3, ⟨x, hx, by rw [hxw, hwt]⟩, h4⟩

/-- Every command that gives a next state gives one response and leaves the rest of the ports. -/
theorem exec_ports {i : Instr} {s t : State} (h : exec i s = .next t) :
    ∃ r : Response, t.rsps = s.rsps ++ [r.word] ∧ t.inputs = s.inputs ∧ t.buFifoCap = s.buFifoCap := by
  cases exec_effect h <;> exact ⟨_, rfl, rfl, rfl⟩

/-! ### A step -/

theorem step_command {s : State} {c : Word} {rest : List HostInput} {i : Instr}
    (hi : s.inputs = .command c :: rest) (hd : decode c = .ok i) :
    step s = exec i { s with inputs := rest } := by
  simp only [step, hi, hd]

theorem step_illegal {s : State} {c : Word} {rest : List HostInput} {e : Illegal}
    (hi : s.inputs = .command c :: rest) (hd : decode c = .error e) :
    step s = .next ({ s with inputs := rest }.respond .refused) := by
  simp only [step, hi, hd]
  rfl

theorem step_hardReset {s : State} {rest : List HostInput} (hi : s.inputs = .hardReset :: rest) :
    step s = .next { s with inputs := rest }.resetBlock := by
  simp only [step, hi]

theorem step_idle {s : State} (hi : s.inputs = []) : step s = .next s := by
  simp only [step, hi]

/-- What a step can be. -/
theorem step_effect {s t : State} (h : step s = .next t) :
    (s.inputs = [] ∧ t = s)
      ∨ (∃ rest, s.inputs = .hardReset :: rest ∧ t = { s with inputs := rest }.resetBlock)
      ∨ (∃ c rest e, s.inputs = .command c :: rest ∧ decode c = .error e
          ∧ t = { s with inputs := rest }.respond .refused)
      ∨ ∃ c rest i, s.inputs = .command c :: rest ∧ decode c = .ok i
          ∧ Effect i { s with inputs := rest } t := by
  match hi : s.inputs with
  | [] => rw [step_idle hi] at h; exact .inl ⟨rfl, (next_inj h).symm⟩
  | .hardReset :: rest =>
    rw [step_hardReset hi] at h; exact .inr (.inl ⟨rest, rfl, (next_inj h).symm⟩)
  | .command c :: rest =>
    match hd : decode c with
    | .error e =>
      rw [step_illegal hi hd] at h
      exact .inr (.inr (.inl ⟨c, rest, e, rfl, hd, (next_inj h).symm⟩))
    | .ok i =>
      rw [step_command hi hd] at h
      exact .inr (.inr (.inr ⟨c, rest, i, rfl, hd, exec_effect h⟩))

end Sys2Proof.Laws
end

