-- ==== Sys2Proof/Laws/Runs.lean ====
section
/-! SUPPORT. Runs of commands with their responses, and what the packer and the unpacker
(44_bit_packer.md, 45_bit_unpacker.md) have done at each moment of a run. -/

namespace Sys2Proof.Laws

open Sys2Proof Sys2Proof.Machine

/-! ### A run and its responses -/

/-- The commands take the block from one state to another and answer these responses. -/
inductive Run : List Instr → State → List Response → State → Prop
  | nil (s : State) : Run [] s [] s
  | cons {i : Instr} {is : List Instr} {s u t : State} {r : Response} {rs : List Response}
      (hi : Effect i s u) (hr : u.rsps = s.rsps ++ [r.word]) (h : Run is u rs t) :
      Run (i :: is) s (r :: rs) t

theorem Run.one {i : Instr} {s u : State} {r : Response} (h : Effect i s u)
    (hr : u.rsps = s.rsps ++ [r.word]) : Run [i] s [r] u :=
  .cons h hr (.nil u)

theorem Run.append {is js : List Instr} {s u t : State} {rs qs : List Response} (h : Run is s rs u)
    (h' : Run js u qs t) : Run (is ++ js) s (rs ++ qs) t := by
  induction h with
  | nil _ => exact h'
  | cons hi hr _ ih => exact .cons hi hr (ih h')

theorem Run.execAll {is : List Instr} {s t : State} {rs : List Response} (h : Run is s rs t) :
    execAll is s = .next t := by
  induction h with
  | nil _ => rfl
  | cons hi _ _ ih => simp only [Machine.execAll, exec_of_effect hi]; exact ih

theorem Run.rsps {is : List Instr} {s t : State} {rs : List Response} (h : Run is s rs t) :
    t.rsps = s.rsps ++ rs.map Response.word := by
  induction h with
  | nil _ => simp
  | cons _ hr _ ih => rw [ih, hr]; simp

theorem Run.length {is : List Instr} {s t : State} {rs : List Response} (h : Run is s rs t) :
    rs.length = is.length := by
  induction h with
  | nil _ => rfl
  | cons _ _ _ ih => simp [ih]

theorem Run.newResponses {is : List Instr} {s t : State} {rs : List Response} (h : Run is s rs t) :
    newResponses s t = rs.map Response.word := by
  simp [Machine.newResponses, h.rsps]

theorem Run.buFifoCap {is : List Instr} {s t : State} {rs : List Response} (h : Run is s rs t) :
    t.buFifoCap = s.buFifoCap := by
  induction h with
  | nil _ => rfl
  | cons hi _ _ ih =>
    obtain ⟨_, _, _, hc⟩ := exec_ports (exec_of_effect hi)
    rw [ih, hc]

/-- Every list of commands that ends in a next state is a run. -/
theorem run_of_execAll {is : List Instr} {s t : State} (h : Machine.execAll is s = .next t) :
    ∃ rs, Run is s rs t := by
  induction is generalizing s with
  | nil => cases next_inj h; exact ⟨[], .nil _⟩
  | cons i is ih =>
    simp only [Machine.execAll] at h
    split at h
    next u hu =>
      obtain ⟨rs, hrs⟩ := ih h
      obtain ⟨r, hr, _⟩ := exec_ports hu
      exact ⟨r :: rs, .cons (exec_effect hu) hr hrs⟩
    · cases h
    · cases h

/-- A run over two lists is a run over each. -/
theorem Run.split {is js : List Instr} {s t : State} {rs : List Response} (h : Run (is ++ js) s rs t) :
    ∃ u qs ps, rs = qs ++ ps ∧ Run is s qs u ∧ Run js u ps t := by
  induction is generalizing s rs with
  | nil => exact ⟨s, [], rs, rfl, .nil s, h⟩
  | cons i is ih =>
    cases h with
    | cons hi hr h' =>
      obtain ⟨u, qs, ps, rfl, h1, h2⟩ := ih h'
      exact ⟨u, _ :: qs, ps, rfl, .cons hi hr h1, h2⟩

theorem word_injective {r r' : Response} (h : r.word = r'.word) : r = r' := by
  have hs := congrArg rspStatus h
  have hc := congrArg rspCause h
  have hv := congrArg rspValue h
  simp only [rspStatus_word, rspCause_word, rspValue_word] at hs hc hv
  cases r <;> cases r' <;> simp_all [Response.status, Response.causeField, Response.value]
  rename_i c k c' k'
  refine ⟨?_, ?_⟩
  · cases c <;> cases c' <;> simp_all [Cause.code]
  · have := congrArg BitVec.toNat hv
    simp only [BitVec.toNat_setWidth] at this
    apply BitVec.eq_of_toNat_eq
    have := k.isLt
    have := k'.isLt
    omega

/-- A command that answers no `ERR` leaves an unfaulted block unfaulted. -/
theorem Effect.unfaulted {i : Instr} {s t : State} {r : Response} (h : Effect i s t)
    (hf : s.faulted = false) (hr : t.rsps = s.rsps ++ [r.word]) (hg : r.status ≠ 2) :
    t.faulted = false := by
  have key : ∀ {c k}, t.rsps = s.rsps ++ [(Response.err c k).word] → False := by
    intro c k ht
    rw [hr] at ht
    have := word_injective (List.cons.inj (List.append_cancel_left ht)).1
    exact hg (by rw [this]; rfl)
  cases h <;> first | exact hf | exact rfl | exact (key rfl).elim

/-- A command that answers `ERR` leaves the block faulted. -/
theorem Effect.faulted_of_err {i : Instr} {s t : State} {r : Response} (h : Effect i s t)
    (hr : t.rsps = s.rsps ++ [r.word]) (he : r.status = 2) : t.faulted = true := by
  have key : ∀ {q : Response}, q.status ≠ 2 → t.rsps = s.rsps ++ [q.word] → False := by
    intro q hq ht
    rw [hr] at ht
    exact hq (word_injective (List.cons.inj (List.append_cancel_left ht)).1 ▸ he)
  cases h <;> first | exact rfl | exact (key (by decide) rfl).elim | exact (key (q := .ok _) (by simp [Response.status]) rfl).elim

theorem Run.unfaulted {is : List Instr} {s t : State} {rs : List Response} (h : Run is s rs t)
    (hf : s.faulted = false) (hg : ∀ r ∈ rs, r.status ≠ 2) : t.faulted = false := by
  induction h with
  | nil _ => exact hf
  | cons hi hr _ ih =>
    exact ih (hi.unfaulted hf hr (hg _ (by simp))) fun r h => hg r (by simp [h])

/-! ### The packer's stream -/

theorem packBit_toNat (acc : Byte) (b : BitVec 1) :
    (packBit acc b).toNat = (2 * acc.toNat + b.toNat) % 256 := by
  unfold packBit
  rw [BitVec.toNat_setWidth, toNat_append_eq]
  omega

theorem padByte_toNat (acc : Byte) (n : BitVec 3) :
    (padByte acc n).toNat = acc.toNat * 2 ^ (8 - n.toNat) % 256 := by
  unfold padByte
  rw [BitVec.toNat_shiftLeft, Nat.shiftLeft_eq]

/-- The first `n` bits of the `j`-th byte of a bit sequence, the first of them weighing most. -/
def chunkVal (bits : List (BitVec 1)) (j n : Nat) : Nat :=
  ((List.range n).map fun i => (bits.getD (8 * j + i) 0).toNat * 2 ^ (n - 1 - i)).sum

theorem sum_map_two (f g : Nat → Nat) : ∀ n, (∀ i, i < n → f i = 2 * g i) →
    ((List.range n).map f).sum = 2 * ((List.range n).map g).sum := by
  intro n
  induction n with
  | zero => intro _; rfl
  | succ n ih =>
    intro h
    rw [List.range_succ, List.map_append, List.map_append, List.sum_append, List.sum_append,
      ih fun i hi => h i (by omega)]
    simp only [List.map_cons, List.map_nil, List.sum_cons, List.sum_nil, h n (by omega)]
    omega

theorem chunkVal_succ (bits : List (BitVec 1)) (j n : Nat) :
    chunkVal bits j (n + 1) = 2 * chunkVal bits j n + (bits.getD (8 * j + n) 0).toNat := by
  unfold chunkVal
  rw [List.range_succ, List.map_append, List.sum_append]
  rw [sum_map_two _ (fun i => (bits.getD (8 * j + i) 0).toNat * 2 ^ (n - 1 - i)) n]
  · simp
  · intro i hi
    rw [show n + 1 - 1 - i = (n - 1 - i) + 1 by omega, Nat.pow_succ]
    ring

theorem chunkVal_zero (bits : List (BitVec 1)) (j : Nat) : chunkVal bits j 0 = 0 := rfl

theorem chunkVal_lt (bits : List (BitVec 1)) (j n : Nat) : chunkVal bits j n < 2 ^ n := by
  induction n with
  | zero => simp [chunkVal_zero]
  | succ n ih =>
    rw [chunkVal_succ, Nat.pow_succ]
    have := (bits.getD (8 * j + n) 0).isLt
    omega

theorem chunkVal_congr {bits bits' : List (BitVec 1)} {j n : Nat}
    (h : ∀ i, i < n → bits.getD (8 * j + i) 0 = bits'.getD (8 * j + i) 0) :
    chunkVal bits j n = chunkVal bits' j n := by
  unfold chunkVal
  congr 1
  apply List.map_congr_left
  intro i hi
  rw [h i (List.mem_range.1 hi)]

/-- Past the end of the sequence the bits are 0. -/
theorem chunkVal_pad {bits : List (BitVec 1)} {j : Nat} : ∀ {m n : Nat}, bits.length ≤ 8 * j + n →
    chunkVal bits j (n + m) = chunkVal bits j n * 2 ^ m := by
  intro m
  induction m with
  | zero => intro n _; simp
  | succ m ih =>
    intro n h
    rw [← Nat.add_assoc, chunkVal_succ, ih h, List.getD_eq_getElem?_getD,
      List.getElem?_eq_none (by omega), Nat.pow_succ]
    simp
    ring

/-- Byte `j` of a bit sequence (R145). -/
def byteOf (bits : List (BitVec 1)) (j : Nat) : Byte := BitVec.ofNat 8 (chunkVal bits j 8)

theorem byteOf_toNat (bits : List (BitVec 1)) (j : Nat) : (byteOf bits j).toNat = chunkVal bits j 8 := by
  unfold byteOf
  rw [BitVec.toNat_ofNat, Nat.mod_eq_of_lt (chunkVal_lt bits j 8)]

/-- The bytes of a bit sequence, zeros after its end (R145, R146). -/
def payloadOf (bits : List (BitVec 1)) : List Byte :=
  (List.range ((bits.length + 7) / 8)).map (byteOf bits)

/-- The packer after these bits since BP.CLR, none finalised. -/
structure Packing (s : State) (bits : List (BitVec 1)) : Prop where
  unfaulted : s.faulted = false
  open_ : s.bpFinal = false
  total : s.bpTotal.toNat = bits.length
  count : s.bpN.toNat = bits.length % 8
  acc : s.bpAcc.toNat = chunkVal bits (bits.length / 8) (bits.length % 8)

theorem emittedBytes_append (ws vs : List Word) :
    emittedBytes (ws ++ vs) = emittedBytes ws ++ emittedBytes vs := by
  simp [emittedBytes]

theorem emittedBytes_ok (v : Value) : emittedBytes [(Response.ok v).word] = [v.setWidth 8] := by
  simp [emittedBytes, Response.status, Response.value]

theorem emittedBytes_none : emittedBytes [Response.none.word] = [] := by
  simp [emittedBytes, Response.status]

theorem setWidth_widen (b : Byte) : (b.setWidth 56).setWidth 8 = b := by
  apply BitVec.eq_of_toNat_eq
  rw [BitVec.toNat_setWidth, BitVec.toNat_setWidth]
  have := b.isLt
  omega

theorem map_byteOf_concat (bits : List (BitVec 1)) (b : BitVec 1) {k : Nat} (hk : k ≤ bits.length / 8) :
    (List.range k).map (byteOf (bits ++ [b])) = (List.range k).map (byteOf bits) := by
  apply List.map_congr_left
  intro j hj
  have hj := List.mem_range.1 hj
  unfold byteOf
  rw [chunkVal_congr]
  intro i hi
  rw [List.getD_append _ _ _ _ (by omega)]

/-- One more bit: the packer follows, and the completed bytes come out. -/
theorem Packing.put {s : State} {bits : List (BitVec 1)} (h : Packing s bits) (b : BitVec 1)
    (hlen : bits.length + 1 < 2 ^ 48) :
    ∃ (r : Response) (t : State), Effect (.bpPut b) s t ∧ t.rsps = s.rsps ++ [r.word] ∧ Packing t (bits ++ [b])
      ∧ (r.status = 0 ∨ r.status = 1)
      ∧ (List.range ((bits.length + 1) / 8)).map (byteOf (bits ++ [b]))
          = (List.range (bits.length / 8)).map (byteOf bits) ++ emittedBytes [r.word] := by
  have hb1 := b.isLt
  have hl : (bits ++ [b]).length = bits.length + 1 := by simp
  have ht : s.bpTotal ≠ 0xFFFFFFFFFFFF := by
    intro hc
    have := h.total
    rw [hc] at this
    simp at this
    omega
  have htot : (s.bpTotal + 1).toNat = bits.length + 1 := by
    rw [BitVec.toNat_add, h.total]
    simp
    omega
  have hacc : chunkVal (bits ++ [b]) (bits.length / 8) (bits.length % 8 + 1)
      = 2 * s.bpAcc.toNat + b.toNat := by
    rw [chunkVal_succ, h.acc, chunkVal_congr (bits' := bits)]
    · rw [show 8 * (bits.length / 8) + bits.length % 8 = bits.length by omega]
      simp
    · intro i hi
      rw [List.getD_append _ _ _ _ (by omega)]
  have hlt := chunkVal_lt (bits ++ [b]) (bits.length / 8) (bits.length % 8 + 1)
  by_cases hn : s.bpN = 7
  · have h7 : bits.length % 8 = 7 := by rw [← h.count, hn]; rfl
    have hdiv : (bits.length + 1) / 8 = bits.length / 8 + 1 := by omega
    have hmod : (bits.length + 1) % 8 = 0 := by omega
    refine ⟨_, _, .bpEmit h.unfaulted h.open_ ht hn, rfl, ⟨h.unfaulted, h.open_, ?_, ?_, ?_⟩, .inl rfl, ?_⟩
    · rw [hl]; exact htot
    · rw [hl, hmod]; rfl
    · rw [hl, hmod, chunkVal_zero]; rfl
    · rw [hdiv, List.range_succ, List.map_append, map_byteOf_concat _ _ (Nat.le_refl _), emittedBytes_ok,
        setWidth_widen]
      congr 1
      simp only [List.map_cons, List.map_nil, List.cons.injEq, and_true]
      apply BitVec.eq_of_toNat_eq
      rw [h7] at hacc
      rw [byteOf_toNat, packBit_toNat, hacc]
      rw [h7, hacc] at hlt
      omega
  · have h7 : bits.length % 8 ≠ 7 := fun hc => hn (BitVec.eq_of_toNat_eq (by rw [h.count, hc]; rfl))
    have hdiv : (bits.length + 1) / 8 = bits.length / 8 := by omega
    have hmod : (bits.length + 1) % 8 = bits.length % 8 + 1 := by omega
    have hp : 2 ^ (bits.length % 8 + 1) ≤ 2 ^ 7 := Nat.pow_le_pow_right (by decide) (by omega)
    refine ⟨_, _, .bpHold h.unfaulted h.open_ ht hn, rfl, ⟨h.unfaulted, h.open_, ?_, ?_, ?_⟩, .inr rfl, ?_⟩
    · rw [hl]; exact htot
    · show (s.bpN + 1).toNat = _
      rw [hl, hmod, BitVec.toNat_add, h.count]
      simp
      omega
    · show (packBit s.bpAcc b).toNat = _
      rw [hl, hdiv, hmod, hacc, packBit_toNat]
      rw [hacc] at hlt
      omega
    · rw [hdiv, map_byteOf_concat _ _ (Nat.le_refl _), emittedBytes_none, List.append_nil]

/-- The bits of a sequence in turn. -/
theorem Packing.puts {s : State} : ∀ (more bits : List (BitVec 1)), Packing s bits →
    (bits ++ more).length < 2 ^ 48 →
    ∃ rs t, Run (more.map .bpPut) s rs t ∧ Packing t (bits ++ more)
      ∧ (∀ r ∈ rs, r.status = 0 ∨ r.status = 1)
      ∧ (List.range ((bits ++ more).length / 8)).map (byteOf (bits ++ more))
          = (List.range (bits.length / 8)).map (byteOf bits) ++ emittedBytes (rs.map Response.word) := by
  intro more
  induction more generalizing s with
  | nil =>
    intro bits h _
    exact ⟨[], s, .nil s, by simpa using h, by simp, by simp [emittedBytes]⟩
  | cons b more ih =>
    intro bits h hlen
    simp at hlen
    obtain ⟨r, t, h1, h2, h3, h4, h5⟩ := h.put b (by omega)
    obtain ⟨rs, u, r1, r2, r3, r4⟩ := ih (bits ++ [b]) h3 (by simp; omega)
    refine ⟨r :: rs, u, .cons h1 h2 r1, by simpa using r2, ?_, ?_⟩
    · intro x hx
      rcases List.mem_cons.1 hx with rfl | hx
      · exact h4
      · exact r3 x hx
    · simp only [List.append_assoc, List.cons_append, List.nil_append] at r4
      simp only [List.length_append, List.length_cons, List.length_nil] at r4 h5
      rw [List.length_append, List.length_cons, r4, h5, List.append_assoc, List.map_cons,
        ← emittedBytes_append, List.cons_append, List.nil_append]

/-- BP.CLR starts the sequence. -/
theorem packing_clr {s : State} (hf : s.faulted = false) :
    ∃ t, Effect .bpClr s t ∧ t.rsps = s.rsps ++ [(Response.ok 0).word] ∧ Packing t [] :=
  ⟨_, .bpClr hf, rfl, hf, rfl, rfl, rfl, rfl⟩

/-- R145, R146: the bits, then BP.FLUSH: the bytes that come out are the sequence's. -/
theorem Packing.flush {s : State} {bits : List (BitVec 1)} (h : Packing s []) (hlen : bits.length < 2 ^ 48) :
    ∃ rs t, Run (bits.map .bpPut ++ [.bpFlush]) s rs t ∧ t.faulted = false
      ∧ t.bpTotal.toNat = bits.length ∧ (∀ r ∈ rs, r.status = 0 ∨ r.status = 1)
      ∧ emittedBytes (rs.map Response.word) = payloadOf bits := by
  obtain ⟨rs, u, r1, r2, r3, r4⟩ := h.puts bits [] (by simpa using hlen)
  simp only [List.nil_append, List.length_nil, Nat.zero_div, List.range_zero, List.map_nil] at r2 r4
  by_cases hn : u.bpN = 0
  · have h0 : bits.length % 8 = 0 := by simpa [hn] using r2.count.symm
    have hr1 := Run.one (r := .none) (Effect.flushEmpty r2.unfaulted r2.open_ hn) (respond_rsps _ _)
    refine ⟨_, _, r1.append hr1, r2.unfaulted, r2.total, ?_, ?_⟩
    · intro r hr
      rcases List.mem_append.1 hr with hr | hr
      · exact r3 r hr
      · rw [List.mem_singleton.1 hr]; exact .inr rfl
    · rw [List.map_append, emittedBytes_append, ← r4]
      simp only [List.map_cons, List.map_nil, emittedBytes_none, List.append_nil]
      unfold payloadOf
      rw [show (bits.length + 7) / 8 = bits.length / 8 by omega]
  · have h0 : bits.length % 8 ≠ 0 := fun hc => hn (BitVec.eq_of_toNat_eq (by rw [r2.count, hc]; rfl))
    have hr1 := Run.one (r := .ok _) (Effect.flushEmit r2.unfaulted r2.open_ hn) (respond_rsps _ _)
    refine ⟨_, _, r1.append hr1, r2.unfaulted, r2.total, ?_, ?_⟩
    · intro r hr
      rcases List.mem_append.1 hr with hr | hr
      · exact r3 r hr
      · rw [List.mem_singleton.1 hr]; exact .inl rfl
    · rw [List.map_append, emittedBytes_append, ← r4]
      simp only [List.map_cons, List.map_nil, emittedBytes_ok, setWidth_widen]
      unfold payloadOf
      rw [show (bits.length + 7) / 8 = bits.length / 8 + 1 by omega, List.range_succ, List.map_append]
      congr 1
      simp only [List.map_cons, List.map_nil, List.cons.injEq, and_true]
      apply BitVec.eq_of_toNat_eq
      have hpad := chunkVal_pad (bits := bits) (j := bits.length / 8) (m := 8 - bits.length % 8)
        (n := bits.length % 8) (by omega)
      rw [show bits.length % 8 + (8 - bits.length % 8) = 8 by omega] at hpad
      have := chunkVal_lt bits (bits.length / 8) 8
      rw [byteOf_toNat, padByte_toNat, r2.acc, r2.count, hpad, Nat.mod_eq_of_lt]
      omega

/-! ### The unpacker's stream -/

/-- The unpacker since BU.START: these bytes fed, `d` of `count` bits delivered. -/
structure Unpacking (s : State) (fed : List Byte) (count d : Nat) : Prop where
  unfaulted : s.faulted = false
  le : d ≤ count
  rem : s.buRem.toNat + d = count
  fetched : ∃ f, f ≤ fed.length ∧ s.buFifo = fed.drop f ∧ s.buLeft.toNat + d = 8 * f
  left_le : s.buLeft.toNat ≤ 7
  cur : ∀ i, i < s.buLeft.toNat → s.buCur.getLsbD (7 - i) = payloadBit fed (d + i)

theorem unpacking_start {s : State} (hf : s.faulted = false) (n : BitCount) :
    ∃ t, Effect (.buStart n) s t ∧ t.rsps = s.rsps ++ [(Response.ok 0).word] ∧ Unpacking t [] n.toNat 0 :=
  ⟨_, .buStart hf, rfl, hf, Nat.zero_le _, rfl, ⟨0, Nat.le_refl _, rfl, rfl⟩, show (0 : BitVec 4).toNat ≤ 7 by decide,
    fun i hi => absurd hi (Nat.not_lt_zero _)⟩

theorem payloadBit_append {fed : List Byte} {more : List Byte} {j : Nat} (h : j < 8 * fed.length) :
    payloadBit (fed ++ more) j = payloadBit fed j := by
  unfold payloadBit
  rw [List.getD_append _ _ _ _ (by omega)]

/-- One more byte fed. -/
theorem Unpacking.feed {s : State} {fed : List Byte} {count d : Nat} (h : Unpacking s fed count d) (b : Byte)
    (hq : ¬ FifoFull s) :
    ∃ t, Effect (.buFeed b) s t ∧ t.rsps = s.rsps ++ [(Response.ok 0).word]
      ∧ t.buFifo = s.buFifo ++ [b] ∧ Unpacking t (fed ++ [b]) count d := by
  obtain ⟨f, hf1, hf2, hf3⟩ := h.fetched
  refine ⟨_, .buFeed h.unfaulted hq, rfl, rfl, h.unfaulted, h.le, h.rem, ⟨f, by simp; omega, ?_, hf3⟩,
    h.left_le, ?_⟩
  · show s.buFifo ++ [b] = _
    rw [List.drop_append_of_le_length hf1, hf2]
  · intro i hi
    have hi' : i < s.buLeft.toNat := hi
    rw [payloadBit_append (by omega)]
    exact h.cur i hi'

/-- One more bit delivered: the next one of the bytes fed (R156). -/
theorem Unpacking.next {s : State} {fed : List Byte} {count d : Nat} (h : Unpacking s fed count d)
    (hd : d < count) (hb : s.buLeft ≠ 0 ∨ s.buFifo ≠ []) :
    ∃ t, Effect .buNext s t ∧ t.rsps = s.rsps ++ [(Response.ok (bitValue (payloadBit fed d))).word]
      ∧ d < 8 * fed.length ∧ Unpacking t fed count (d + 1) := by
  obtain ⟨f, hf1, hf2, hf3⟩ := h.fetched
  have hrem := h.rem
  have hr : s.buRem ≠ 0 := by
    intro hc
    rw [hc] at hrem
    simp at hrem
    omega
  have hrem' : (s.buRem - 1).toNat + (d + 1) = count := by
    have h0 : s.buRem.toNat ≠ 0 := fun hc => hr (BitVec.eq_of_toNat_eq hc)
    have hlt := s.buRem.isLt
    rw [BitVec.toNat_sub]
    simp
    omega
  have hmsb : ∀ b : Byte, b.msb = b.getLsbD (7 - 0) := fun b => by simp [BitVec.msb_eq_getLsbD_last]
  have hshl : ∀ (b : Byte) (i : Nat), i < 7 → (b <<< 1).getLsbD (7 - i) = b.getLsbD (7 - (i + 1)) := by
    intro b i hi
    rw [BitVec.getLsbD_shiftLeft]
    simp [show 7 - i < 8 by omega, show ¬ 7 - i < 1 by omega, show 7 - i - 1 = 7 - (i + 1) by omega]
  by_cases hl : s.buLeft = 0
  · have hl0 : s.buLeft.toNat = 0 := by rw [hl]; rfl
    rcases hq : s.buFifo with _ | ⟨b, rest⟩
    · rcases hb with hb | hb
      · exact absurd hl hb
      · exact absurd hq hb
    · have hflt : f < fed.length := by
        by_contra hc
        rw [hf2, List.drop_eq_nil_of_le (by omega)] at hq
        cases hq
      rw [hf2, List.drop_eq_getElem_cons hflt] at hq
      obtain ⟨hb', hrest⟩ := List.cons.inj hq
      have hbit : ∀ i, i ≤ 7 → payloadBit fed (d + i) = b.getLsbD (7 - i) := by
        intro i hi
        unfold payloadBit
        rw [show (d + i) / 8 = f by omega, show (d + i) % 8 = i by omega, List.getD_eq_getElem _ _ hflt, hb']
      refine ⟨_, .nextFetch h.unfaulted hr hl (by rw [hf2, List.drop_eq_getElem_cons hflt, hb', hrest]), ?_,
        by omega, h.unfaulted, by omega, hrem', ⟨f + 1, hflt, hrest.symm, ?_⟩, ?_, ?_⟩
      · rw [respond_rsps, hmsb, ← hbit 0 (by omega), Nat.add_zero]
      · show (7 : BitVec 4).toNat + (d + 1) = _
        simp
        omega
      · show (7 : BitVec 4).toNat ≤ 7
        decide
      · intro i hi
        have hi : i < 7 := hi
        show (b <<< 1).getLsbD (7 - i) = _
        rw [hshl b i hi, show d + 1 + i = d + (i + 1) by omega, hbit (i + 1) (by omega)]
  · have h0 : s.buLeft.toNat ≠ 0 := fun hc => hl (BitVec.eq_of_toNat_eq hc)
    have hs : (s.buLeft - 1).toNat = s.buLeft.toNat - 1 := by
      rw [BitVec.toNat_sub]
      have := s.buLeft.isLt
      simp
      omega
    have hle := h.left_le
    refine ⟨_, .nextHeld h.unfaulted hr hl, ?_, by omega, h.unfaulted, by omega, hrem', ⟨f, hf1, hf2, ?_⟩, ?_, ?_⟩
    · rw [respond_rsps, hmsb, h.cur 0 (by omega), Nat.add_zero]
    · show (s.buLeft - 1).toNat + (d + 1) = _
      omega
    · show (s.buLeft - 1).toNat ≤ 7
      omega
    · intro i hi
      have hi : i < (s.buLeft - 1).toNat := hi
      show (s.buCur <<< 1).getLsbD (7 - i) = _
      rw [hshl _ i (by omega), h.cur (i + 1) (by omega), show d + 1 + i = d + (i + 1) by omega]

/-- With the whole count delivered BU.NEXT answers `NONE`. -/
theorem Unpacking.done {s : State} {fed : List Byte} {count : Nat} (h : Unpacking s fed count count) :
    ∃ t, Effect .buNext s t ∧ t.rsps = s.rsps ++ [Response.none.word] ∧ Unpacking t fed count count := by
  have hr : s.buRem = 0 := BitVec.eq_of_toNat_eq (by have := h.rem; simp; omega)
  exact ⟨_, .nextDone h.unfaulted hr, rfl, h.unfaulted, h.le, h.rem, h.fetched, h.left_le, h.cur⟩

/-- Bit `j` of a sequence's bytes is its `j`-th bit (R145, R155). -/
theorem payloadBit_payloadOf {bits : List (BitVec 1)} {j : Nat} (hj : j < bits.length) :
    payloadBit (payloadOf bits) j = (bits[j]).getLsbD 0 := by
  have hk : j / 8 < (bits.length + 7) / 8 := by omega
  have key : ∀ n i, i < n → (chunkVal bits (j / 8) n).testBit (n - 1 - i)
      = (bits.getD (8 * (j / 8) + i) 0).getLsbD 0 := by
    intro n
    induction n with
    | zero => intro i hi; omega
    | succ n ih =>
      intro i hi
      rw [chunkVal_succ]
      have hb := (bits.getD (8 * (j / 8) + n) 0).isLt
      rcases Nat.lt_or_ge i n with hlt | hge
      · rw [show n + 1 - 1 - i = (n - 1 - i) + 1 by omega, Nat.testBit_succ,
          show (2 * chunkVal bits (j / 8) n + (bits.getD (8 * (j / 8) + n) 0).toNat) / 2
            = chunkVal bits (j / 8) n by omega]
        exact ih i hlt
      · have : i = n := by omega
        subst this
        rw [show i + 1 - 1 - i = 0 by omega, BitVec.getLsbD]
        simp only [Nat.testBit_zero]
        congr 1
        rw [eq_iff_iff]
        omega
  unfold payloadBit
  rw [List.getD_eq_getElem _ _ (by simpa [payloadOf] using hk)]
  have h8 := key 8 (j % 8) (by omega)
  rw [show 8 * (j / 8) + j % 8 = j by omega, List.getD_eq_getElem _ _ hj] at h8
  rw [← h8]
  simp only [payloadOf, List.getElem_map, List.getElem_range, BitVec.getLsbD]
  rw [byteOf_toNat]

end Sys2Proof.Laws
end

