-- ==== Sys2Proof/Laws/Counting.lean ====
section
/-! SUPPORT. What runs of FC.PUT leave in `FREQ` (40_frequency_counter.md R102, R104), and sums of counts
over the symbols. -/

namespace Sys2Proof.Laws

open Machine

theorem nodup_allSymbols : allSymbols.Nodup :=
  allSymbols_sorted.imp fun {a b} h => by
    rintro rfl
    exact absurd h (BitVec.lt_irrefl a)

/-- The occurrences of all symbols add up to the length. -/
theorem length_eq_sum_count (x : List Byte) : x.length = (allSymbols.map fun a => x.count a).sum := by
  induction x with
  | nil => simp
  | cons b x ih =>
    have key : ∀ l : List Byte, l.Nodup → (l.map fun a => (b :: x).count a).sum
        = (l.map fun a => x.count a).sum + (if b ∈ l then 1 else 0) := by
      intro l
      induction l with
      | nil => intro _; simp
      | cons c l ih2 =>
        intro hn
        rw [List.nodup_cons] at hn
        rw [List.map_cons, List.sum_cons, ih2 hn.2, List.map_cons, List.sum_cons, List.count_cons]
        by_cases h : b = c
        · subst h; simp [hn.1]; omega
        · simp [h]; omega
    rw [key _ nodup_allSymbols, if_pos (mem_allSymbols b), ← ih]
    rfl

/-- A faulted block stays faulted through commands that are no SYS.RESET. -/
theorem Run.faulted_stays {is : List Instr} {s t : State} {rs : List Response} (h : Run is s rs t)
    (hs : s.faulted = true) (hr : Instr.sysReset ∉ is) : t.faulted = true := by
  induction h with
  | nil _ => exact hs
  | cons hi _ _ ih =>
    rw [List.mem_cons, not_or] at hr
    refine ih ?_ hr.2
    cases hi <;> simp_all

/-- FC.PUT commands that do not fault add their symbols' occurrences to the counts. -/
theorem fcPuts_counts {y : List Byte} : ∀ {s t : State} {rs : List Response},
    Run (fcPuts y) s rs t → s.faulted = false → t.faulted = false →
    ∀ a, (t.freqAt a).toNat = (s.freqAt a).toNat + y.count a := by
  induction y with
  | nil => intro s t rs h _ _ a; cases h; simp
  | cons b y ih =>
    intro s t rs h hs ht a
    unfold fcPuts at h
    rw [List.map_cons] at h
    cases h with
    | cons hi _ h =>
      cases hi with
      | faulted hf => rw [hs] at hf; cases hf
      | fcOverflow _ _ =>
        have := h.faulted_stays rfl (by simp)
        rw [ht] at this; cases this
      | fcPut _ hc =>
        have hne : (s.freqAt b).toNat ≠ 2 ^ 32 - 1 := fun h => hc (BitVec.eq_of_toNat_eq h)
        rw [ih h hs ht a, respond_freqAt, setFreq_freqAt, List.count_cons]
        have hlt := (s.freqAt b).isLt
        by_cases hab : a = b
        · subst hab
          rw [if_pos rfl, BitVec.toNat_add]
          simp
          omega
        · have hba : b ≠ a := fun h => hab h.symm
          simp [hab, hba]

/-- FC.PUT commands that cannot overflow a counter run through without a fault. -/
theorem fcPuts_run (y : List Byte) : ∀ (s : State), s.faulted = false →
    (∀ a, (s.freqAt a).toNat + y.count a < 2 ^ 32) →
    ∃ rs t, Run (fcPuts y) s rs t ∧ t.faulted = false ∧ ∀ r ∈ rs, r = .ok 0 := by
  induction y with
  | nil => intro s hf _; exact ⟨[], s, .nil s, hf, by simp⟩
  | cons b y ih =>
    intro s hf hlt
    have hb := hlt b
    rw [List.count_cons_self] at hb
    have hne : s.freqAt b ≠ 0xFFFFFFFF := by
      intro hc; rw [hc] at hb; simp at hb; omega
    obtain ⟨rs, t, h, ht, hr⟩ := ih ((s.setFreq b (s.freqAt b + 1)).respond (.ok 0)) hf (by
      intro a
      have := hlt a
      rw [List.count_cons] at this
      rw [respond_freqAt, setFreq_freqAt]
      by_cases hab : a = b
      · subst hab; rw [if_pos rfl, BitVec.toNat_add]; simp at this ⊢; omega
      · have hba : b ≠ a := fun h => hab h.symm
        simp [hab, hba] at this ⊢; exact this)
    exact ⟨_, t, .cons (.fcPut hf hne) rfl h, ht, by
      intro x hx
      rcases List.mem_cons.1 hx with rfl | hx
      · rfl
      · exact hr x hx⟩

end Sys2Proof.Laws
end

