-- ==== Sys2Proof/Laws/Optimal.lean ====
section
/-! SUPPORT. Why the tree of TB.BUILD is a Huffman tree (42_tree_builder.md R128): Kraft's inequality for
prefix-free codes, the exchange argument for one merge, the weight the merges add up to, and that this
weight is the cost of the paths. -/

namespace Sys2Proof.Laws

open Machine

/-! ### Weights with lengths -/

/-- The cost of a list of (weight, length) pairs. -/
def pairCost (p : List (Nat × Nat)) : Nat := (p.map fun q => q.1 * q.2).sum

/-- Kraft's sum, scaled by `2 ^ top`. -/
def kraftSum (top : Nat) (p : List (Nat × Nat)) : Nat := (p.map fun q => 2 ^ (top - q.2)).sum

@[simp] theorem pairCost_cons (q : Nat × Nat) (p : List (Nat × Nat)) :
    pairCost (q :: p) = q.1 * q.2 + pairCost p := by simp [pairCost]

@[simp] theorem kraftSum_cons (top : Nat) (q : Nat × Nat) (p : List (Nat × Nat)) :
    kraftSum top (q :: p) = 2 ^ (top - q.2) + kraftSum top p := by simp [kraftSum]

theorem pairCost_perm {p q : List (Nat × Nat)} (h : p.Perm q) : pairCost p = pairCost q :=
  (h.map _).sum_eq

theorem kraftSum_perm {top : Nat} {p q : List (Nat × Nat)} (h : p.Perm q) :
    kraftSum top p = kraftSum top q :=
  (h.map _).sum_eq

/-- Exchanges lengths along the list so that the greatest of them and `x` comes out first. -/
def floatLength : Nat → List (Nat × Nat) → Nat × List (Nat × Nat)
  | x, [] => (x, [])
  | x, (w, l) :: t => ((floatLength (max x l) t).1, (w, min x l) :: (floatLength (max x l) t).2)

theorem floatLength_weights (p : List (Nat × Nat)) : ∀ x,
    (floatLength x p).2.map Prod.fst = p.map Prod.fst := by
  induction p with
  | nil => intro x; rfl
  | cons q p ih => intro x; simp [floatLength, ih]

theorem floatLength_kraft (top : Nat) (p : List (Nat × Nat)) : ∀ x,
    2 ^ (top - (floatLength x p).1) + kraftSum top (floatLength x p).2
      = 2 ^ (top - x) + kraftSum top p := by
  induction p with
  | nil => intro x; rfl
  | cons q p ih =>
    intro x
    obtain ⟨w, l⟩ := q
    have h := ih (max x l)
    simp only [floatLength, kraftSum_cons]
    rcases Nat.le_total x l with hxl | hxl
    · rw [Nat.max_eq_right hxl] at h ⊢; rw [Nat.min_eq_left hxl]; omega
    · rw [Nat.max_eq_left hxl] at h ⊢; rw [Nat.min_eq_right hxl]; omega

theorem floatLength_cost (w : Nat) (p : List (Nat × Nat)) : ∀ x, (∀ q ∈ p, w ≤ q.1) →
    w * (floatLength x p).1 + pairCost (floatLength x p).2 ≤ w * x + pairCost p := by
  induction p with
  | nil => intro x _; exact Nat.le_refl _
  | cons q p ih =>
    intro x hw
    obtain ⟨v, l⟩ := q
    have hv : w ≤ v := hw (v, l) (by simp)
    have h := ih (max x l) fun q hq => hw q (by simp [hq])
    simp only [floatLength, pairCost_cons]
    rcases Nat.le_total x l with hxl | hxl
    · rw [Nat.max_eq_right hxl] at h ⊢; rw [Nat.min_eq_left hxl]
      obtain ⟨d, rfl⟩ := Nat.exists_eq_add_of_le hxl
      have := Nat.mul_le_mul_right d hv
      simp only [Nat.mul_add] at h ⊢
      omega
    · rw [Nat.max_eq_left hxl] at h ⊢; rw [Nat.min_eq_right hxl]; omega

theorem floatLength_greatest (p : List (Nat × Nat)) : ∀ x,
    x ≤ (floatLength x p).1 ∧ ∀ q ∈ (floatLength x p).2, q.2 ≤ (floatLength x p).1 := by
  induction p with
  | nil => intro x; simp [floatLength]
  | cons q p ih =>
    intro x
    obtain ⟨v, l⟩ := q
    have ⟨h1, h2⟩ := ih (max x l)
    refine ⟨Nat.le_trans (Nat.le_max_left x l) h1, ?_⟩
    intro q hq
    rcases List.mem_cons.1 hq with rfl | hq
    · exact Nat.le_trans (Nat.min_le_left x l) (Nat.le_trans (Nat.le_max_left x l) h1)
    · exact h2 q hq

theorem floatLength_le {top : Nat} (p : List (Nat × Nat)) : ∀ x, x ≤ top → (∀ q ∈ p, q.2 ≤ top) →
    (floatLength x p).1 ≤ top ∧ ∀ q ∈ (floatLength x p).2, q.2 ≤ top := by
  induction p with
  | nil => intro x hx _; exact ⟨hx, by simp [floatLength]⟩
  | cons q p ih =>
    intro x hx hp
    obtain ⟨v, l⟩ := q
    have hl : l ≤ top := hp (v, l) (by simp)
    obtain ⟨h1, h2⟩ := ih (max x l) (Nat.max_le.2 ⟨hx, hl⟩) fun q hq => hp q (by simp [hq])
    refine ⟨h1, fun q hq => ?_⟩
    rcases List.mem_cons.1 hq with rfl | hq
    · exact Nat.le_trans (Nat.min_le_left x l) hx
    · exact h2 q hq

/-- One merge of the two least weights: lengths within Kraft's bound for the weights give lengths within
it for the merged weights, cheaper by at least the merged weight. -/
theorem merge_exchange {top w1 w2 x y : Nat} {p : List (Nat × Nat)} (h12 : w1 ≤ w2)
    (hp : ∀ q ∈ p, w2 ≤ q.1) (hx : x ≤ top) (hy : y ≤ top) (hl : ∀ q ∈ p, q.2 ≤ top)
    (hk : kraftSum top ((w1, x) :: (w2, y) :: p) ≤ 2 ^ top) :
    ∃ (z : Nat) (q : List (Nat × Nat)), q.map Prod.fst = p.map Prod.fst ∧ z ≤ top
      ∧ (∀ r ∈ q, r.2 ≤ top) ∧ kraftSum top ((w1 + w2, z) :: q) ≤ 2 ^ top
      ∧ pairCost ((w1 + w2, z) :: q) + (w1 + w2) ≤ pairCost ((w1, x) :: (w2, y) :: p) := by
  -- the greatest length to the least weight, the greatest of the others to the next
  have hp1 : ∀ q ∈ (w2, y) :: p, w1 ≤ q.1 := by
    intro q hq
    rcases List.mem_cons.1 hq with rfl | hq
    · exact h12
    · exact Nat.le_trans h12 (hp q hq)
  have hl1 : ∀ q ∈ (w2, y) :: p, q.2 ≤ top := by
    intro q hq
    rcases List.mem_cons.1 hq with rfl | hq
    · exact hy
    · exact hl q hq
  have f1 := floatLength_kraft top ((w2, y) :: p) x
  have f2 := floatLength_cost w1 ((w2, y) :: p) x hp1
  have f3 := (floatLength_greatest ((w2, y) :: p) x).2
  have f4 := floatLength_le ((w2, y) :: p) x hx hl1
  have f5 := floatLength_weights ((w2, y) :: p) x
  generalize floatLength x ((w2, y) :: p) = r1 at f1 f2 f3 f4 f5
  obtain ⟨a, s⟩ := r1
  match s, f5 with
  | (v, y') :: p', f5 =>
    simp only [List.map_cons, List.cons.injEq] at f5
    obtain ⟨rfl, f6⟩ := f5
    have hp2 : ∀ q ∈ p', v ≤ q.1 := by
      intro q hq
      have hm : q.1 ∈ p'.map Prod.fst := List.mem_map.2 ⟨q, hq, rfl⟩
      rw [f6] at hm
      obtain ⟨r, hr, hrq⟩ := List.mem_map.1 hm
      rw [← hrq]; exact hp r hr
    have hya : y' ≤ a := f3 (v, y') (by simp)
    have hpa : ∀ q ∈ p', q.2 ≤ a := fun q hq => f3 q (by simp [hq])
    have hat : a ≤ top := f4.1
    have g1 := floatLength_kraft top p' y'
    have g2 := floatLength_cost v p' y' hp2
    have g3 := (floatLength_greatest p' y').2
    have g4 := floatLength_le p' y' hya hpa
    have g5 := floatLength_weights p' y'
    generalize floatLength y' p' = r2 at g1 g2 g3 g4 g5
    obtain ⟨b, q⟩ := r2
    simp only [kraftSum_cons, pairCost_cons] at *
    -- all lengths but the first are at most `b`, so the first may be `b` too
    have hdvd : ∀ q' : List (Nat × Nat), (∀ r ∈ q', r.2 ≤ b) → 2 ^ (top - b) ∣ kraftSum top q' := by
      intro q'
      induction q' with
      | nil => intro _; simp [kraftSum]
      | cons r q' ih =>
        intro hq'
        rw [kraftSum_cons]
        refine Nat.dvd_add (Nat.pow_dvd_pow 2 ?_) (ih fun r hr => hq' r (by simp [hr]))
        have := hq' r (by simp); omega
    obtain ⟨d, hd⟩ := hdvd q g3
    have hbt : b ≤ top := Nat.le_trans g4.1 hat
    have htop : 2 ^ top = 2 ^ (top - b) * 2 ^ b := by rw [← pow_add]; congr 1; omega
    have hpos : 0 < 2 ^ (top - b) := Nat.pos_of_ne_zero (by simp)
    have hposa : 0 < 2 ^ (top - a) := Nat.pos_of_ne_zero (by simp)
    have hd2 : d + 2 ≤ 2 ^ b := by
      have hlt : 2 ^ (top - b) * (1 + d) < 2 ^ (top - b) * 2 ^ b := by
        rw [← htop, Nat.mul_add, Nat.mul_one, ← hd]; omega
      have := Nat.lt_of_mul_lt_mul_left hlt
      omega
    have hb1 : 1 ≤ b := by
      rcases Nat.eq_zero_or_pos b with h0 | h0
      · rw [h0] at hd2; simp at hd2
      · exact h0
    refine ⟨b - 1, q, by rw [g5, f6], by omega, fun r hr => Nat.le_trans (g4.2 r hr) hat, ?_, ?_⟩
    · have he : 2 ^ (top - (b - 1)) = 2 ^ (top - b) * 2 := by rw [← pow_succ]; congr 1; omega
      rw [he, hd, htop, ← Nat.mul_add]
      exact Nat.mul_le_mul_left _ (by omega)
    · have h1 : w1 * b ≤ w1 * a := Nat.mul_le_mul_left _ g4.1
      have h2 : (w1 + v) * (b - 1) + (w1 + v) = w1 * b + v * b := by
        obtain ⟨b', rfl⟩ := Nat.exists_eq_add_of_le hb1
        rw [Nat.add_sub_cancel_left]; ring
      omega

/-! ### The weight the merges add up to -/

/-- The weight of an internal record; 0 for a leaf. -/
def innerWeight : Node → Nat
  | .leaf _ _ => 0
  | .internal w _ _ => w.toNat

/-- The weights of the internal records together. -/
def innerSum (node : List Node) : Nat := (node.map innerWeight).sum

theorem perm_cons_of_map_fst {w : Nat} {ws : List Nat} {p : List (Nat × Nat)}
    (h : (p.map Prod.fst).Perm (w :: ws)) :
    ∃ x q, p.Perm ((w, x) :: q) ∧ (q.map Prod.fst).Perm ws := by
  have hm : w ∈ p.map Prod.fst := h.mem_iff.2 (by simp)
  obtain ⟨⟨w', x⟩, hq, he⟩ := List.mem_map.1 hm
  obtain rfl : w' = w := he
  have hp := List.perm_cons_erase hq
  refine ⟨x, p.erase (w', x), hp, ?_⟩
  have := (hp.map Prod.fst).symm.trans h
  exact this.cons_inv

/-- Whatever lengths within Kraft's bound the weights in the selector have, they cost at least what the
merging loop adds in internal records. -/
theorem mergeAll_cost {n total top : Nat} (htotal : total < 2 ^ 40) :
    ∀ (k : Nat) (b : Builder) (p : List (Nat × Nat)), BuildInv n total b →
      b.node.length + b.pq.length ≤ 512 → (p.map Prod.fst).Perm (b.pq.map (·.w.toNat)) →
      (∀ q ∈ p, q.2 ≤ top) → kraftSum top p ≤ 2 ^ top →
      innerSum (mergeAll k b).node ≤ innerSum b.node + pairCost p := by
  intro k
  induction k with
  | zero => intro b p _ _ _ _ _; exact Nat.le_add_right _ _
  | succ k ih =>
    rintro ⟨pq, node⟩ p h hs hp hl hk
    match pq, h, hs, hp with
    | [], _, _, _ => exact Nat.le_add_right _ _
    | [e], _, _, _ => exact Nat.le_add_right _ _
    | e1 :: e2 :: rest, h, hs, hp =>
      simp only [List.length_cons] at hs
      have hstep : mergeAll (k + 1) ⟨e1 :: e2 :: rest, node⟩
          = mergeAll k ((Builder.mk rest node).place (.internal (e1.w + e2.w) e1.ref e2.ref)) := rfl
      obtain ⟨hs1, hs'⟩ := List.pairwise_cons.1 h.sorted
      obtain ⟨hs2, _⟩ := List.pairwise_cons.1 hs'
      have h12 : e1.w.toNat ≤ e2.w.toNat := by
        have := (not_lt_iff e2 e1).1 (hs1 e2 (by simp)); omega
      have h2r : ∀ e ∈ rest, e2.w.toNat ≤ e.w.toNat := fun e he => by
        have := (not_lt_iff e e2).1 (hs2 e he); omega
      have hsum := h.sum
      simp only [List.map_cons, List.sum_cons] at hsum
      have hadd : (e1.w + e2.w).toNat = e1.w.toNat + e2.w.toNat := by
        rw [BitVec.toNat_add]; exact Nat.mod_eq_of_lt (by omega)
      obtain ⟨x, p1, hp1, hr1⟩ := perm_cons_of_map_fst hp
      obtain ⟨y, p2, hp2, hr2⟩ := perm_cons_of_map_fst hr1
      have hpp : p.Perm ((e1.w.toNat, x) :: (e2.w.toNat, y) :: p2) := hp1.trans (hp2.cons _)
      have hw2 : ∀ q ∈ p2, e2.w.toNat ≤ q.1 := by
        intro q hq
        have hm : q.1 ∈ p2.map Prod.fst := List.mem_map.2 ⟨q, hq, rfl⟩
        obtain ⟨e, he, hq'⟩ := List.mem_map.1 (hr2.mem_iff.1 hm)
        rw [← hq']; exact h2r e he
      have hlp : ∀ q ∈ (e1.w.toNat, x) :: (e2.w.toNat, y) :: p2, q.2 ≤ top :=
        fun q hq => hl q (hpp.mem_iff.2 hq)
      rw [kraftSum_perm hpp] at hk
      obtain ⟨z, q, hq1, hz, hq2, hq3, hq4⟩ := merge_exchange h12 hw2
        (hlp (e1.w.toNat, x) (by simp)) (hlp (e2.w.toNat, y) (by simp))
        (fun q hq => hlp q (by simp [hq])) hk
      have := ih ((Builder.mk rest node).place (.internal (e1.w + e2.w) e1.ref e2.ref))
        ((e1.w.toNat + e2.w.toNat, z) :: q) (buildInv_merge h htotal (by omega))
        (by simp only [Builder.place, pqAdd_length, List.length_append, List.length_singleton]; omega)
        (by
          refine List.Perm.trans ?_ ((pqAdd_perm _ rest).map (·.w.toNat)).symm
          simp only [List.map_cons]
          rw [show (Node.internal (e1.w + e2.w) e1.ref e2.ref).weight.toNat
            = e1.w.toNat + e2.w.toNat from hadd, hq1]
          exact hr2.cons _)
        (by
          intro r hr
          rcases List.mem_cons.1 hr with rfl | hr
          · exact hz
          · exact hq2 r hr) hq3
      rw [hstep]
      refine Nat.le_trans this ?_
      have hin : innerSum ((Builder.mk rest node).place (.internal (e1.w + e2.w) e1.ref e2.ref)).node
          = innerSum node + (e1.w.toNat + e2.w.toNat) := by
        simp [innerSum, Builder.place, innerWeight, hadd]
      rw [hin, pairCost_perm hpp]
      dsimp only at hq4 ⊢
      omega

/-! ### Kraft's inequality -/

/-- Codes none of which is a prefix of another in the list. -/
def PrefixFreeList (cs : List Code) : Prop := cs.Pairwise fun c d => ¬ c <+: d ∧ ¬ d <+: c

/-- The tails of the codes that begin with a bit. -/
def tailsOf (b : Bool) (cs : List Code) : List Code :=
  cs.filterMap fun c => match c with
    | [] => none
    | x :: t => if x = b then some t else none

theorem tailsOf_prefixFree {b : Bool} {cs : List Code} (h : PrefixFreeList cs) :
    PrefixFreeList (tailsOf b cs) := by
  unfold PrefixFreeList tailsOf
  rw [List.pairwise_filterMap]
  refine List.Pairwise.imp ?_ h
  intro c d hcd t ht t' ht'
  cases c with
  | nil => cases ht
  | cons x c =>
    cases d with
    | nil => cases ht'
    | cons y d =>
      simp only [Option.ite_none_right_eq_some, Option.some.injEq] at ht ht'
      obtain ⟨rfl, rfl⟩ := ht
      obtain ⟨rfl, rfl⟩ := ht'
      simpa [List.cons_prefix_cons] using hcd

/-- Kraft's inequality, scaled by `2 ^ top`. -/
theorem kraft_le : ∀ (top : Nat) (cs : List Code), PrefixFreeList cs → (∀ c ∈ cs, c.length ≤ top) →
    (cs.map fun c => 2 ^ (top - c.length)).sum ≤ 2 ^ top := by
  intro top
  induction top with
  | zero =>
    intro cs h hl
    match cs, h, hl with
    | [], _, _ => simp
    | [c], _, hl => simp
    | c :: d :: cs, h, hl =>
      have hc : c = [] := List.length_eq_zero_iff.1 (Nat.le_zero.1 (hl c (by simp)))
      have := (List.pairwise_cons.1 h).1 d (by simp)
      rw [hc] at this
      exact absurd List.nil_prefix this.1
  | succ top ih =>
    intro cs h hl
    by_cases hnil : ([] : Code) ∈ cs
    · have hall : ∀ cs : List Code, PrefixFreeList cs → [] ∈ cs → cs = [[]] := by
        intro cs h hm
        match cs, h, hm with
        | [c], _, hm => rw [List.mem_singleton.1 hm]
        | c :: d :: cs, h, hm =>
          have h1 := (List.pairwise_cons.1 h).1
          rcases List.mem_cons.1 hm with rfl | hm
          · exact absurd List.nil_prefix (h1 d (by simp)).1
          · exact absurd List.nil_prefix (h1 [] hm).2
      rw [hall cs h hnil]
      simp
    · have key : ∀ cs : List Code, [] ∉ cs → (∀ c ∈ cs, c.length ≤ top + 1) →
          (cs.map fun c => 2 ^ (top + 1 - c.length)).sum
            = ((tailsOf false cs).map fun c => 2 ^ (top - c.length)).sum
              + ((tailsOf true cs).map fun c => 2 ^ (top - c.length)).sum := by
        intro cs
        induction cs with
        | nil => intro _ _; rfl
        | cons c cs ihc =>
          intro hn hl
          have hi := ihc (fun hc => hn (by simp [hc])) fun c hc => hl c (by simp [hc])
          cases c with
          | nil => exact absurd (by simp) hn
          | cons x c =>
            have he : top + 1 - (x :: c).length = top - c.length := by simp
            rw [List.map_cons, List.sum_cons, hi, he]
            cases x <;> simp [tailsOf] <;> omega
      rw [key cs hnil hl]
      have hlen : ∀ b, ∀ c ∈ tailsOf b cs, c.length ≤ top := by
        intro b c hc
        obtain ⟨d, hd, he⟩ := List.mem_filterMap.1 hc
        cases d with
        | nil => cases he
        | cons x d =>
          simp only [Option.ite_none_right_eq_some, Option.some.injEq] at he
          obtain ⟨_, rfl⟩ := he
          have := hl _ hd
          simpa using this
      have h0 := ih (tailsOf false cs) (tailsOf_prefixFree h) (hlen false)
      have h1 := ih (tailsOf true cs) (tailsOf_prefixFree h) (hlen true)
      rw [pow_succ]
      omega

/-! ### The cost of the paths -/

theorem sum_map_flatMap_children (node : List Node) (f : Nat → Nat) :
    ((node.flatMap Node.children).map f).sum = (node.map fun x => (x.children.map f).sum).sum := by
  induction node with
  | nil => rfl
  | cons x node ih => simp [List.flatMap_cons, ih]

/-- With a depth for every record, 0 at the root and one more at each child: the leaves' weights times
their depths add up to the internal records' weights. -/
theorem leaf_depths_cost {node : List Node} {root : Ref} {n : Nat} (h : ArenaOk node root n)
    (depth : Nat → Nat) (h0 : depth (2 * n - 2) = 0)
    (hl : ∀ (k : Nat) w l r, node[k]? = some (.internal w l r) → depth l.toNat = depth k + 1)
    (hr : ∀ (k : Nat) w l r, node[k]? = some (.internal w l r) → depth r.toNat = depth k + 1) :
    ((List.range n).map fun k => ((node[k]?).map (·.weight.toNat)).getD 0 * depth k).sum
      = innerSum node := by
  have hb := h.bounds
  -- all records but the root, counted by number and by parent
  let wt : Nat → Nat := fun k => ((node[k]?).map (·.weight.toNat)).getD 0
  let f : Nat → Nat := fun k => wt k * depth k
  have hwt : ∀ (r : Ref) x, nodeOf node r = some x → wt r.toNat = x.weight.toNat := by
    intro r x hx
    simp only [wt]
    unfold nodeOf at hx
    rw [hx]; rfl
  have hpar := (h.parents.map f).sum_eq
  rw [sum_map_flatMap_children] at hpar
  have hinner : ∀ k, n ≤ k → k < 2 * n - 1 →
      (((node[k]?).map fun x => (x.children.map f).sum).getD 0)
        = f k + ((node[k]?).map innerWeight).getD 0 := by
    intro k hk1 hk2
    obtain ⟨w, l, r, hx, _, _⟩ := h.internals k hk1 hk2
    obtain ⟨a, b, ha, hb, hw⟩ := h.sums k w l r hx
    have h1 := hwt l a ha
    have h2 := hwt r b hb
    have h3 : wt k = w.toNat := by simp only [wt, hx]; rfl
    rw [hx]
    simp only [Option.map_some, Option.getD_some, Node.children, List.map_cons, List.map_nil,
      List.sum_cons, List.sum_nil, f, hl k w l r hx, hr k w l r hx, h1, h2, h3, innerWeight, hw]
    ring
  have hleaf : ∀ k, k < n → ((node[k]?).map fun x => (x.children.map f).sum).getD 0 = 0
      ∧ ((node[k]?).map innerWeight).getD 0 = 0 := by
    intro k hk
    obtain ⟨w, a, hx, _⟩ := h.leaves k hk
    rw [hx]
    exact ⟨rfl, rfl⟩
  have hsum : ∀ g : Node → Nat, (node.map g).sum
      = ((List.range (2 * n - 1)).map fun k => ((node[k]?).map g).getD 0).sum := by
    intro g
    rw [← h.count]
    congr 1
    apply List.ext_getElem
    · simp
    · intro k h1 h2
      simp at h1
      simp [List.getElem?_eq_getElem h1]
  have hsplit : List.range (2 * n - 1) = List.range n ++ (List.range (n - 1)).map (n + ·) := by
    rw [show 2 * n - 1 = n + (n - 1) by omega, List.range_add]
  have hall : ((List.range (2 * n - 1)).map f).sum = ((List.range (2 * n - 2)).map f).sum := by
    rw [show 2 * n - 1 = (2 * n - 2) + 1 by omega, List.range_succ]
    simp [f, h0]
  rw [hsum, hsplit, List.map_append, List.sum_append] at hpar
  rw [hsplit, List.map_append, List.sum_append] at hall
  have e1 : ((List.range n).map fun k => ((node[k]?).map fun x => (x.children.map f).sum).getD 0).sum = 0 := by
    rw [List.sum_eq_zero]
    intro x hx
    obtain ⟨k, hk, rfl⟩ := List.mem_map.1 hx
    exact (hleaf k (List.mem_range.1 hk)).1
  have e2 : (((List.range (n - 1)).map (n + ·)).map fun k =>
        ((node[k]?).map fun x => (x.children.map f).sum).getD 0).sum
      = (((List.range (n - 1)).map (n + ·)).map f).sum
        + (((List.range (n - 1)).map (n + ·)).map fun k => ((node[k]?).map innerWeight).getD 0).sum := by
    rw [← List.sum_map_add]
    congr 1
    apply List.map_congr_left
    intro k hk
    obtain ⟨j, hj, rfl⟩ := List.mem_map.1 hk
    rw [List.mem_range] at hj
    exact hinner _ (by omega) (by omega)
  have e3 : innerSum node
      = (((List.range (n - 1)).map (n + ·)).map fun k => ((node[k]?).map innerWeight).getD 0).sum := by
    unfold innerSum
    rw [hsum, hsplit, List.map_append, List.sum_append, List.sum_eq_zero, Nat.zero_add]
    intro x hx
    obtain ⟨k, hk, rfl⟩ := List.mem_map.1 hx
    exact (hleaf k (List.mem_range.1 hk)).2
  have : ((List.range n).map fun k => wt k * depth k).sum = ((List.range n).map f).sum := rfl
  show ((List.range n).map f).sum = _
  omega

/-- The length of the path to a record; 0 where there is none. -/
noncomputable def depthOf (node : List Node) (root : Ref) (k : Nat) : Nat :=
  haveI := Classical.propDecidable
  if h : ∃ c : Code, ∃ j : Ref, j.toNat = k ∧ endRef node c root = some j then h.choose.length else 0

theorem depthOf_eq {node : List Node} {root : Ref} {n : Nat} (h : ArenaOk node root n) {c : Code} {j : Ref}
    (hc : endRef node c root = some j) : depthOf node root j.toNat = c.length := by
  have hex : ∃ c : Code, ∃ i : Ref, i.toNat = j.toNat ∧ endRef node c root = some i := ⟨c, j, rfl, hc⟩
  unfold depthOf
  rw [dif_pos hex]
  obtain ⟨i, hi, hci⟩ := hex.choose_spec
  have hij : i = j := BitVec.eq_of_toNat_eq hi
  rw [hij] at hci
  rw [endRef_unique h _ _ j hci hc]

/-- The paths to the leaves cost what the internal records weigh. -/
theorem path_cost {node : List Node} {root : Ref} {n : Nat} (h : ArenaOk node root n) :
    ((List.range n).map fun k => ((node[k]?).map (·.weight.toNat)).getD 0 * depthOf node root k).sum
      = innerSum node := by
  have hb := h.bounds
  have hchild : ∀ (k : Nat) w l r, node[k]? = some (.internal w l r) → ∀ b : Bool,
      depthOf node root (if b then r else l).toNat = depthOf node root k + 1 := by
    intro k w l r hx b
    have hk := lt_length_of_getElem? hx
    rw [h.count] at hk
    have hkr : (BitVec.ofNat 9 k).toNat = k := toNat_ofNat_ref (by omega)
    obtain ⟨c, hc⟩ := endRef_exists h (BitVec.ofNat 9 k) (by omega)
    have hb' : childRef node b (BitVec.ofNat 9 k) = some (if b then r else l) := by
      unfold childRef nodeOf
      rw [hkr, hx]
    have hd := depthOf_eq h (endRef_snoc.2 ⟨_, hc, hb'⟩)
    have hd' := depthOf_eq h hc
    rw [hkr] at hd'
    rw [hd, hd', List.length_append]; rfl
  refine leaf_depths_cost h (depthOf node root) ?_ ?_ ?_
  · have := depthOf_eq h (c := []) (j := root) rfl
    rw [h.root_last] at this
    exact this
  · intro k w l r hx; exact hchild k w l r hx false
  · intro k w l r hx; exact hchild k w l r hx true

/-! ### The tree of TB.BUILD -/

/-- A sum over the present symbols is the sum over all of them: the absent ones weigh nothing. -/
theorem sum_presentSymbols (freq : Byte → Count) (f : Byte → Nat) :
    ((presentSymbols freq).map fun a => (freq a).toNat * f a).sum
      = (allSymbols.map fun a => (freq a).toNat * f a).sum := by
  unfold presentSymbols
  induction allSymbols with
  | nil => rfl
  | cons a l ih =>
    rcases Nat.eq_zero_or_pos (freq a).toNat with h0 | hpos
    · have hz : ¬ 0 < freq a := by rw [BitVec.lt_def]; simp [h0]
      rw [List.filter_cons_of_neg (by simpa using hz), ih, List.map_cons, List.sum_cons, h0]
      simp
    · have hp : 0 < freq a := by simpa [BitVec.lt_def] using hpos
      rw [List.filter_cons_of_pos (by simpa using hp), List.map_cons, List.map_cons, List.sum_cons,
        List.sum_cons, ih]

/-- What the tree of TB.BUILD adds in internal records is at most the cost of any prefix code for the
present symbols. -/
theorem buildTree_optimal (freq : Byte → Count) (d : Byte → Code)
    (hfree : ∀ a b, 0 < freq a → 0 < freq b → a ≠ b → ¬ d a <+: d b) :
    innerSum (buildTree freq).node ≤ (allSymbols.map fun a => (freq a).toNat * (d a).length).sum := by
  obtain ⟨s1, s2, s3⟩ := seedLeaves_spec freq
  have hn := presentSymbols_length_le freq
  have hln := leavesFor_length freq
  let top := ((presentSymbols freq).map fun a => (d a).length).sum
  let p := (presentSymbols freq).map fun a => ((freq a).toNat, (d a).length)
  have hcost : pairCost p = (allSymbols.map fun a => (freq a).toNat * (d a).length).sum := by
    rw [← sum_presentSymbols freq fun a => (d a).length]
    simp [pairCost, p, Function.comp_def]
  have hle : ∀ a ∈ presentSymbols freq, (d a).length ≤ top := fun a ha =>
    List.single_le_sum (by simp) _ (List.mem_map.2 ⟨a, ha, rfl⟩)
  -- the selector's weights after seeding are the counts
  have hw : ((seedLeaves freq).pq.map (·.w.toNat)).Perm (p.map Prod.fst) := by
    have hperm := s2.pending
    rw [s1] at hperm
    have hnil : (leavesFor freq).flatMap Node.children = [] := by
      simp [leavesFor, Node.children, List.flatMap_map]
    rw [hnil, List.append_nil] at hperm
    let g : Nat → Nat := fun k => (((leavesFor freq)[k]?).map (·.weight.toNat)).getD 0
    have h1 : (seedLeaves freq).pq.map (·.w.toNat) = ((seedLeaves freq).pq.map (·.ref.toNat)).map g := by
      rw [List.map_map]
      apply List.map_congr_left
      intro e he
      obtain ⟨x, hx, hxw⟩ := s2.keyed e he
      rw [s1] at hx
      unfold nodeOf at hx
      simp only [Function.comp_apply, g, hx, Option.map_some, Option.getD_some, hxw]
    rw [h1]
    refine (hperm.map g).trans ?_
    refine List.Perm.of_eq ?_
    apply List.ext_getElem
    · simp [p, hln]
    · intro k hk1 hk2
      simp only [List.length_map, List.length_range] at hk1
      have hk3 : k < (presentSymbols freq).length := by omega
      simp only [List.getElem_map, List.getElem_range, g, p]
      rw [show (leavesFor freq)[k]? = some (.leaf ((freq (presentSymbols freq)[k]).setWidth 40)
        (presentSymbols freq)[k]) by simp [leavesFor, hk3]]
      have := (freq (presentSymbols freq)[k]).isLt
      simp only [Option.map_some, Option.getD_some, Node.weight, BitVec.toNat_setWidth]
      exact Nat.mod_eq_of_lt (by omega)
  have hkraft : kraftSum top p ≤ 2 ^ top := by
    have hpf : PrefixFreeList ((presentSymbols freq).map d) := by
      unfold PrefixFreeList
      rw [List.pairwise_map]
      refine (presentSymbols_sorted freq).imp_of_mem ?_
      intro a b ha hb hab
      have hne : a ≠ b := by rintro rfl; exact absurd hab (BitVec.lt_irrefl a)
      rw [mem_presentSymbols] at ha hb
      exact ⟨hfree a b ha hb hne, hfree b a hb ha hne.symm⟩
    have := kraft_le top _ hpf (by
      intro c hc
      obtain ⟨a, ha, rfl⟩ := List.mem_map.1 hc
      exact hle a ha)
    simpa [kraftSum, p, Function.comp_def] using this
  have := mergeAll_cost (top := top) (totalCount_lt freq) (seedLeaves freq).pq.length (seedLeaves freq) p s2
    (by rw [s1, s3]; omega) hw.symm (by
      intro q hq
      obtain ⟨a, ha, rfl⟩ := List.mem_map.1 hq
      exact hle a ha) hkraft
  have h0 : innerSum (seedLeaves freq).node = 0 := by
    rw [s1]
    simp [innerSum, leavesFor, innerWeight, Function.comp_def]
  rw [h0, Nat.zero_add, hcost] at this
  exact this

end Sys2Proof.Laws
end

