-- ==== Sys2Proof/Laws/PerInstr.lean ====
section
/-! SUPPORT. Statements about every command as syntax, one lemma per constructor. -/

namespace Sys2Proof.Laws.Fields

open Sys2Proof Sys2Proof.Machine Sys2Proof.Laws

/-- The word of a command carries its opcode byte in bits 63:56 and its operand field in bits 55:0 (R70),
and that byte is the opcode byte of the command's row of R76. -/
def Statement (i : Instr) : Prop :=
  opField (encode i) = i.op.code ∧ argField (encode i) = i.arg
    ∧ ∃ r ∈ opRows, r.op = i.op ∧ opField r.pattern = i.op.code

theorem sysNop : Statement .sysNop :=
  ⟨opField_encode _, argField_encode _, opRows[0], List.getElem_mem _, rfl, rfl⟩
theorem sysReset : Statement .sysReset :=
  ⟨opField_encode _, argField_encode _, opRows[1], List.getElem_mem _, rfl, rfl⟩
theorem sysStatus : Statement .sysStatus :=
  ⟨opField_encode _, argField_encode _, opRows[2], List.getElem_mem _, rfl, rfl⟩
theorem fcClr : Statement .fcClr :=
  ⟨opField_encode _, argField_encode _, opRows[3], List.getElem_mem _, rfl, rfl⟩
theorem fcPut (a : Byte) : Statement (.fcPut a) :=
  ⟨opField_encode _, argField_encode _, opRows[4], List.getElem_mem _, rfl, rfl⟩
theorem fcGet (a : Byte) : Statement (.fcGet a) :=
  ⟨opField_encode _, argField_encode _, opRows[5], List.getElem_mem _, rfl, rfl⟩
theorem pqClr : Statement .pqClr :=
  ⟨opField_encode _, argField_encode _, opRows[6], List.getElem_mem _, rfl, rfl⟩
theorem pqAdd (a : Weight) (b : Ref) : Statement (.pqAdd a b) :=
  ⟨opField_encode _, argField_encode _, opRows[7], List.getElem_mem _, rfl, rfl⟩
theorem pqRem : Statement .pqRem :=
  ⟨opField_encode _, argField_encode _, opRows[8], List.getElem_mem _, rfl, rfl⟩
theorem pqLen : Statement .pqLen :=
  ⟨opField_encode _, argField_encode _, opRows[9], List.getElem_mem _, rfl, rfl⟩
theorem tbBuild : Statement .tbBuild :=
  ⟨opField_encode _, argField_encode _, opRows[10], List.getElem_mem _, rfl, rfl⟩
theorem tbRoot : Statement .tbRoot :=
  ⟨opField_encode _, argField_encode _, opRows[11], List.getElem_mem _, rfl, rfl⟩
theorem tbWeight (a : Ref) : Statement (.tbWeight a) :=
  ⟨opField_encode _, argField_encode _, opRows[12], List.getElem_mem _, rfl, rfl⟩
theorem tbLink (a : Ref) : Statement (.tbLink a) :=
  ⟨opField_encode _, argField_encode _, opRows[13], List.getElem_mem _, rfl, rfl⟩
theorem caAssign : Statement .caAssign :=
  ⟨opField_encode _, argField_encode _, opRows[14], List.getElem_mem _, rfl, rfl⟩
theorem caLen (a : Byte) : Statement (.caLen a) :=
  ⟨opField_encode _, argField_encode _, opRows[15], List.getElem_mem _, rfl, rfl⟩
theorem caBit (a : Byte) (b : Byte) : Statement (.caBit a b) :=
  ⟨opField_encode _, argField_encode _, opRows[16], List.getElem_mem _, rfl, rfl⟩
theorem bpClr : Statement .bpClr :=
  ⟨opField_encode _, argField_encode _, opRows[17], List.getElem_mem _, rfl, rfl⟩
theorem bpPut (a : BitVec 1) : Statement (.bpPut a) :=
  ⟨opField_encode _, argField_encode _, opRows[18], List.getElem_mem _, rfl, rfl⟩
theorem bpFlush : Statement .bpFlush :=
  ⟨opField_encode _, argField_encode _, opRows[19], List.getElem_mem _, rfl, rfl⟩
theorem bpCount : Statement .bpCount :=
  ⟨opField_encode _, argField_encode _, opRows[20], List.getElem_mem _, rfl, rfl⟩
theorem buStart (a : BitCount) : Statement (.buStart a) :=
  ⟨opField_encode _, argField_encode _, opRows[21], List.getElem_mem _, rfl, rfl⟩
theorem buFeed (a : Byte) : Statement (.buFeed a) :=
  ⟨opField_encode _, argField_encode _, opRows[22], List.getElem_mem _, rfl, rfl⟩
theorem buNext : Statement .buNext :=
  ⟨opField_encode _, argField_encode _, opRows[23], List.getElem_mem _, rfl, rfl⟩
theorem buRem : Statement .buRem :=
  ⟨opField_encode _, argField_encode _, opRows[24], List.getElem_mem _, rfl, rfl⟩

end Sys2Proof.Laws.Fields
end

