-- ==== Sys2Proof/Laws/Procedures.lean ====
section
/-! SUPPORT. The host's procedures (47_environment.md): what presenting a command answers, that a required
list of commands is a run without `ERR` and `REFUSED`, that reading the code table reads it, and that feeding
the unpacker feeds a prefix, and that a procedure leaves the block faulted exactly if an `ERR` ended it. -/

namespace Sys2Proof.Laws

open Sys2Proof Sys2Proof.Machine

/-! ### Presenting a command -/

/-- Presenting a command's word executes it. -/
theorem step_present (i : Instr) (s : State) :
    step { s with inputs := .command (encode i) :: s.inputs } = exec i s := by
  rw [step_command (i := i) rfl (decode_eq_ok.2 ⟨opField_encode i, argField_encode i⟩)]

@[simp] theorem andThen_ok {α β : Type} (a : α) (t : State) (k : α → State → HostRun β) :
    andThen (.ok (a, t)) k = k a t := rfl

@[simp] theorem andThen_error {α β : Type} (f : Failure) (k : α → State → HostRun β) :
    andThen (.error f) k = .error f := rfl

/-- A procedure that succeeds does so in both its parts. -/
theorem andThen_eq_ok {α β : Type} {r : HostRun α} {k : α → State → HostRun β} {x : β × State}
    (h : andThen r k = .ok x) : ∃ a t, r = .ok (a, t) ∧ k a t = .ok x := by
  rcases r with f | ⟨a, t⟩
  · cases h
  · exact ⟨a, t, rfl, h⟩

theorem issue_of_effect {i : Instr} {s t : State} {r : Response} (h : Effect i s t)
    (hr : t.rsps = s.rsps ++ [r.word]) :
    issue i s = if r.status = 2 then .error ⟨errorOf r.causeField, true, t⟩ else .ok (r.word, t) := by
  unfold issue
  rw [step_present, exec_of_effect h]
  simp [hr]

theorem issue_eq_ok {i : Instr} {s t : State} {w : Word} (h : issue i s = .ok (w, t)) :
    ∃ r : Response, w = r.word ∧ Effect i s t ∧ t.rsps = s.rsps ++ [r.word] ∧ r.status ≠ 2 := by
  unfold issue at h
  rw [step_present] at h
  split at h
  next u hu =>
    obtain ⟨r, hr, _⟩ := exec_ports hu
    rw [hr] at h
    simp only [List.getLast?_append, List.getLast?_singleton, Option.some_or, rspStatus_word] at h
    split at h
    · cases h
    next hs => cases h; exact ⟨r, rfl, exec_effect hu, hr, hs⟩
  · cases h
  · cases h

theorem require_of_effect {i : Instr} {s t : State} {r : Response} (h : Effect i s t)
    (hr : t.rsps = s.rsps ++ [r.word]) (hg : r.status = 0 ∨ r.status = 1) :
    require i s = .ok (r.word, t) := by
  unfold require
  rw [issue_of_effect h hr]
  rcases hg with hg | hg <;> simp [hg]

/-- A status that is neither `ERR` nor `REFUSED` is `OK` or `NONE`. -/
theorem status_good {r : Response} (h2 : r.status ≠ 2) (h3 : r.status ≠ 3) :
    r.status = 0 ∨ r.status = 1 := by
  cases r <;> simp_all [Response.status]

theorem require_eq_ok {i : Instr} {s t : State} {w : Word} (h : require i s = .ok (w, t)) :
    ∃ r : Response, w = r.word ∧ Effect i s t ∧ t.rsps = s.rsps ++ [r.word]
      ∧ (r.status = 0 ∨ r.status = 1) := by
  obtain ⟨w', t', hi, h⟩ := andThen_eq_ok h
  obtain ⟨r, rfl, he, hr, h2⟩ := issue_eq_ok hi
  rw [rspStatus_word] at h
  split at h
  · cases h
  next h3 => cases h; exact ⟨r, rfl, he, hr, status_good h2 h3⟩

/-- A run without `ERR` and `REFUSED` is what `requireAll` asks for. -/
theorem requireAll_of_run {is : List Instr} {s t : State} {rs : List Response} (h : Run is s rs t)
    (hg : ∀ r ∈ rs, r.status = 0 ∨ r.status = 1) : requireAll is s = .ok (rs.map Response.word, t) := by
  induction h with
  | nil _ => rfl
  | cons hi hr _ ih =>
    simp only [requireAll, require_of_effect hi hr (hg _ (by simp)),
      ih fun r hr => hg r (by simp [hr]), List.map_cons, andThen_ok]

theorem requireAll_eq_ok {is : List Instr} {s t : State} {ws : List Word}
    (h : requireAll is s = .ok (ws, t)) :
    ∃ rs, ws = rs.map Response.word ∧ Run is s rs t ∧ ∀ r ∈ rs, r.status = 0 ∨ r.status = 1 := by
  induction is generalizing s ws with
  | nil => cases h; exact ⟨[], rfl, .nil _, by simp⟩
  | cons i is ih =>
    obtain ⟨w, u, hi, h⟩ := andThen_eq_ok h
    obtain ⟨ws', v, hv, h⟩ := andThen_eq_ok h
    obtain ⟨r, rfl, he, hr, hg⟩ := require_eq_ok hi
    cases h
    obtain ⟨rs, rfl, h1, h2⟩ := ih hv
    refine ⟨r :: rs, rfl, .cons he hr h1, fun x hx => ?_⟩
    rcases List.mem_cons.1 hx with rfl | hx
    · exact hg
    · exact h2 x hx

theorem good_ne_err {r : Response} (h : r.status = 0 ∨ r.status = 1) : r.status ≠ 2 := by
  rcases h with h | h <;> rw [h] <;> decide

/-! ### Reading the code table (R173) -/

/-- The same block, further responses taken. -/
def SameBlock (s t : State) : Prop := ∃ ws, t = { s with rsps := s.rsps ++ ws }

theorem SameBlock.refl (s : State) : SameBlock s s := ⟨[], by simp⟩

theorem SameBlock.trans {s t u : State} (h : SameBlock s t) (h' : SameBlock t u) : SameBlock s u := by
  obtain ⟨ws, rfl⟩ := h
  obtain ⟨vs, rfl⟩ := h'
  exact ⟨ws ++ vs, by simp⟩

theorem SameBlock.respond (s : State) (r : Response) : SameBlock s (s.respond r) := ⟨[r.word], rfl⟩

theorem SameBlock.faulted {s t : State} (h : SameBlock s t) : t.faulted = s.faulted := by
  obtain ⟨_, rfl⟩ := h; rfl

theorem SameBlock.code {s t : State} (h : SameBlock s t) : t.code = s.code := by
  obtain ⟨_, rfl⟩ := h; rfl

/-- Reading the bits of a present code. -/
theorem readBits_run {sym : Byte} {bits : Code} : ∀ (ks : List Nat) (s : State), s.faulted = false →
    s.codeAt sym = some bits → bits.length ≤ 255 → (∀ k ∈ ks, k < bits.length) →
    ∃ rs t, Run (ks.map fun k => .caBit sym (BitVec.ofNat 8 k)) s rs t ∧ SameBlock s t
      ∧ (∀ r ∈ rs, r.status = 0 ∨ r.status = 1)
      ∧ (rs.map Response.word).map (fun b => (rspValue b).getLsbD 0)
          = ks.map fun k => bits.getD k false := by
  intro ks
  induction ks with
  | nil => intro s _ _ _ _; exact ⟨[], s, .nil s, .refl s, by simp, rfl⟩
  | cons k ks ih =>
    intro s hf hc hl hk
    have hk' := hk k (by simp)
    have hkk : (BitVec.ofNat 8 k).toNat = k := by
      rw [BitVec.toNat_ofNat]; exact Nat.mod_eq_of_lt (by omega)
    have h1 : Effect (.caBit sym (BitVec.ofNat 8 k)) s (s.respond (.ok (bitValue bits[k]))) :=
      .caBit hf (by rw [hc, Option.bind_some, hkk, List.getElem?_eq_getElem hk'])
    obtain ⟨rs, t, r1, r2, r3, r4⟩ := ih (s.respond (.ok (bitValue bits[k]))) hf hc hl
      fun j hj => hk j (by simp [hj])
    refine ⟨.ok (bitValue bits[k]) :: rs, t, .cons h1 rfl r1, (SameBlock.respond _ _).trans r2, ?_, ?_⟩
    · intro x hx
      rcases List.mem_cons.1 hx with rfl | hx
      · exact .inl rfl
      · exact r3 x hx
    · simp only [List.map_cons, r4, rspValue_word, Response.value]
      rw [List.getD_eq_getElem _ _ hk']
      congr 1
      cases bits[k] <;> rfl

theorem map_getD_range (bits : Code) : (List.range bits.length).map (fun k => bits.getD k false) = bits := by
  apply List.ext_getElem
  · simp
  · intro k h1 h2
    simp [h2]

/-- CA.LEN, then CA.BIT for each position: the entry of the symbol. -/
theorem readCode_spec {s : State} (hf : s.faulted = false) (sym : Byte)
    (hl : ∀ bits, s.codeAt sym = some bits → bits.length ≤ 255) :
    ∃ t, readCode sym s = .ok (s.codeAt sym, t) ∧ SameBlock s t := by
  cases hc : s.codeAt sym with
  | none =>
    refine ⟨_, ?_, SameBlock.respond s .none⟩
    unfold readCode
    rw [require_of_effect (.noLen hf hc) rfl (.inr rfl)]
    rfl
  | some bits =>
    have hlen := hl bits hc
    have hv : ((Response.ok bits.lenValue).value).toNat = bits.length := by
      show bits.lenValue.toNat = _
      rw [Code.lenValue, BitVec.toNat_setWidth, BitVec.toNat_ofNat]
      omega
    obtain ⟨rs, t, r1, r2, r3, r4⟩ := readBits_run (List.range bits.length)
      (s.respond (.ok bits.lenValue)) hf hc hlen fun k hk => List.mem_range.1 hk
    refine ⟨t, ?_, (SameBlock.respond _ _).trans r2⟩
    unfold readCode
    rw [require_of_effect (.caLen hf hc) rfl (.inl rfl)]
    simp only [andThen_ok, rspStatus_word, rspValue_word, hv, requireAll_of_run r1 r3, r4, map_getD_range]
    rfl

/-- The table read is the block's, at the symbols read. -/
theorem readTable_spec {s : State} (hf : s.faulted = false)
    (hl : ∀ a bits, s.codeAt a = some bits → bits.length ≤ 255) :
    ∀ (l : List Byte) (t : CodeTable), ∃ t' u, readTable l t s = .ok (t', u) ∧ SameBlock s u
      ∧ ∀ a, codeOf t' a = if a ∈ l then s.codeAt a else codeOf t a := by
  intro l
  induction l generalizing s with
  | nil => intro t; exact ⟨t, s, rfl, .refl s, by simp⟩
  | cons sym l ih =>
    intro t
    obtain ⟨u, h1, h2⟩ := readCode_spec hf sym (hl sym)
    have hcu : ∀ a, u.codeAt a = s.codeAt a := fun a => by unfold State.codeAt; rw [h2.code]
    obtain ⟨t', v, h3, h4, h5⟩ := ih (s := u) (h2.faulted.trans hf)
      (fun a bits h => hl a bits (by rw [← hcu]; exact h)) (t.set sym.toNat (s.codeAt sym) (symIndex sym))
    refine ⟨t', v, ?_, h2.trans h4, ?_⟩
    · simp only [readTable, h1, h3, andThen_ok]
    · intro a
      rw [h5 a, hcu]
      have hset : codeOf (t.set sym.toNat (s.codeAt sym) (symIndex sym)) a
          = if a = sym then s.codeAt sym else codeOf t a := by
        have h : sym.toNat = a.toNat ↔ a = sym := by rw [← BitVec.toNat_inj, eq_comm]
        simp [codeOf, Vector.getElem_set, h]
      rw [hset]
      by_cases ha : a ∈ l
      · simp [ha]
      · by_cases has : a = sym
        · simp [has]
        · simp [ha, has]

/-- `readTable allSymbols` reads the whole table. -/
theorem readTable_all {s : State} (hf : s.faulted = false)
    (hl : ∀ a bits, s.codeAt a = some bits → bits.length ≤ 255) :
    ∃ u, readTable allSymbols noCodes s = .ok (s.code, u) ∧ SameBlock s u := by
  obtain ⟨t', u, h1, h2, h3⟩ := readTable_spec hf hl allSymbols noCodes
  have : t' = s.code := code_ext fun a => by rw [h3 a, if_pos (mem_allSymbols a)]; rfl
  exact ⟨u, by rw [h1, this], h2⟩

/-! ### What an end of a procedure says of the block (R181) -/

/-- The block is left faulted exactly if a response `ERR` ended the part of the procedure. -/
def FaultedIfErred {α : Type} (r : HostRun α) : Prop :=
  match r with
  | .ok (_, t) => t.faulted = false
  | .error f => f.block.faulted = f.erred

theorem faultedIfErred_andThen {α β : Type} {r : HostRun α} {k : α → State → HostRun β}
    (h : FaultedIfErred r) (hk : ∀ (a : α) (t : State), t.faulted = false → FaultedIfErred (k a t)) :
    FaultedIfErred (andThen r k) := by
  rcases r with f | ⟨a, t⟩
  · exact h
  · exact hk a t h

theorem faultedIfErred_issue (i : Instr) {s : State} (hf : s.faulted = false) :
    FaultedIfErred (issue i s) := by
  unfold issue
  rw [step_present]
  split
  next t ht =>
    obtain ⟨r, hr, _⟩ := exec_ports ht
    rw [hr]
    simp only [List.getLast?_append, List.getLast?_singleton, Option.some_or, rspStatus_word]
    split
    next h2 => exact (exec_effect ht).faulted_of_err hr h2
    next h2 => exact (exec_effect ht).unfaulted hf hr h2
  · exact hf
  · exact hf

theorem faultedIfErred_require (i : Instr) {s : State} (hf : s.faulted = false) :
    FaultedIfErred (require i s) :=
  faultedIfErred_andThen (faultedIfErred_issue i hf) fun _ _ ht => by split <;> exact ht

theorem faultedIfErred_requireAll (is : List Instr) : ∀ {s : State}, s.faulted = false →
    FaultedIfErred (requireAll is s) := by
  induction is with
  | nil => exact id
  | cons i is ih =>
    exact fun hf => faultedIfErred_andThen (faultedIfErred_require i hf) fun _ _ ht =>
      faultedIfErred_andThen (ih ht) fun _ _ hu => hu

theorem faultedIfErred_readCode (sym : Byte) {s : State} (hf : s.faulted = false) :
    FaultedIfErred (readCode sym s) :=
  faultedIfErred_andThen (faultedIfErred_require _ hf) fun _ _ ht => by
    split
    · exact ht
    · exact faultedIfErred_andThen (faultedIfErred_requireAll _ ht) fun _ _ hu => hu

theorem faultedIfErred_readTable (l : List Byte) : ∀ (t : CodeTable) {s : State}, s.faulted = false →
    FaultedIfErred (readTable l t s) := by
  induction l with
  | nil => exact fun _ _ hf => hf
  | cons sym l ih =>
    exact fun _ _ hf => faultedIfErred_andThen (faultedIfErred_readCode sym hf) fun _ _ ht => ih _ ht

theorem faultedIfErred_feedBytes (l : List Byte) : ∀ {s : State}, s.faulted = false →
    FaultedIfErred (feedBytes l s) := by
  induction l with
  | nil => exact id
  | cons b l ih =>
    exact fun hf => faultedIfErred_andThen (faultedIfErred_issue _ hf) fun _ _ ht => by
      split
      · exact ht
      · exact ih ht

theorem faultedIfErred_decodeLoop (t : CodeTable) (k : Nat) : ∀ (pending : List Byte) (cand : Code)
    (out : List Byte) {s : State}, s.faulted = false →
    FaultedIfErred (decodeLoop k t pending cand out s) := by
  induction k with
  | zero => exact fun _ _ _ _ hf => hf
  | succ k ih =>
    exact fun _ _ _ _ hf => faultedIfErred_andThen (faultedIfErred_feedBytes _ hf) fun _ _ h1 =>
      faultedIfErred_andThen (faultedIfErred_require _ h1) fun _ _ h2 => by
        dsimp only
        split
        · split <;> exact h2
        · split
          · exact ih _ _ _ h2
          · split
            · exact h2
            · exact ih _ _ _ h2

theorem faultedIfErred_compress (x : List Byte) {s : State} (hf : s.faulted = false) :
    FaultedIfErred (compress x s) :=
  faultedIfErred_andThen (faultedIfErred_requireAll _ hf) fun _ _ h1 =>
  faultedIfErred_andThen (faultedIfErred_readTable _ _ h1) fun _ _ h2 => by
    split
    · exact h2
    · exact faultedIfErred_andThen (faultedIfErred_require _ h2) fun _ _ h3 =>
        faultedIfErred_andThen (faultedIfErred_requireAll _ h3) fun _ _ h4 =>
        faultedIfErred_andThen (faultedIfErred_require _ h4) fun _ _ h5 => h5

theorem faultedIfErred_decompress (c : Container) {s : State} (hf : s.faulted = false) :
    FaultedIfErred (decompress c s) := by
  unfold decompress
  split
  · exact hf
  · exact faultedIfErred_andThen (faultedIfErred_require _ hf) fun _ _ h1 =>
      faultedIfErred_decodeLoop _ _ _ _ _ h1

/-- A procedure that starts on an unfaulted block leaves it faulted exactly if an `ERR` ended it. -/
theorem faultedIfErred_runProcedure (p : Procedure) {s : State} (hf : s.faulted = false) :
    FaultedIfErred (runProcedure p s) := by
  cases p with
  | compress x => exact faultedIfErred_andThen (faultedIfErred_compress x hf) fun _ _ h => h
  | decompress c => exact faultedIfErred_andThen (faultedIfErred_decompress c hf) fun _ _ h => h

/-- After an `ERR` the next procedure starts where SYS.RESET leaves the block. -/
theorem nextStart_erred {f : Failure} (he : f.erred = true) :
    nextStart (.error f) = f.block.resetBlock.respond (.ok 0) := by
  have h : issue .sysReset f.block = .ok ((Response.ok 0).word, f.block.resetBlock.respond (.ok 0)) :=
    issue_of_effect .sysReset rfl
  simp only [nextStart, he, h, if_true]

/-- A reported error is the failure's kind. -/
theorem report_error (f : Failure) : report (.error f) = .failed f.kind := rfl

/-- However a procedure on an unfaulted block ends, the next one starts on an unfaulted block. -/
theorem nextStart_unfaulted (p : Procedure) {s : State} (hf : s.faulted = false) :
    (nextStart (runProcedure p s)).faulted = false := by
  have h := faultedIfErred_runProcedure p hf
  revert h
  rcases runProcedure p s with f | ⟨a, t⟩ <;> intro h
  · cases he : f.erred with
    | true => rw [nextStart_erred he]; rfl
    | false => simp only [nextStart, he]; exact (show f.block.faulted = f.erred from h).trans he
  · exact h

/-! ### The bit sequence (R172) -/

/-- The sequence is the concatenation of the codes. -/
theorem encodeBits_eq {t : CodeTable} : ∀ {x : List Byte} {bits : List Bool}, encodeBits t x = some bits →
    bits = x.flatMap fun a => (codeOf t a).getD [] := by
  intro x
  induction x with
  | nil => intro bits h; cases h; rfl
  | cons a x ih =>
    intro bits h
    simp only [encodeBits] at h
    split at h
    next c rest hc hr => cases h; simp [hc, ih hr]
    · cases h

theorem encodeBits_total {t : CodeTable} : ∀ {x : List Byte}, (∀ a ∈ x, ∃ c, codeOf t a = some c) →
    ∃ bits, encodeBits t x = some bits := by
  intro x
  induction x with
  | nil => intro _; exact ⟨[], rfl⟩
  | cons a x ih =>
    intro h
    obtain ⟨c, hc⟩ := h a (by simp)
    obtain ⟨rest, hr⟩ := ih fun b hb => h b (by simp [hb])
    exact ⟨c ++ rest, by simp only [encodeBits, hc, hr]⟩

/-! ### Feeding (R178) -/

/-- Feeding until refused: a prefix of the bytes is taken, and what is left waits for room. -/
theorem feedBytes_spec {count d : Nat} : ∀ (pending : List Byte) (s : State) (fed : List Byte),
    Unpacking s fed count d →
    ∃ taken left t, feedBytes pending s = .ok (left, t) ∧ pending = taken ++ left
      ∧ Unpacking t (fed ++ taken) count d ∧ (left ≠ [] → t.buFifo ≠ []) := by
  intro pending
  induction pending with
  | nil => intro s fed h; exact ⟨[], [], s, rfl, rfl, by simpa using h, by simp⟩
  | cons b pending ih =>
    intro s fed h
    by_cases hq : FifoFull s
    · refine ⟨[], b :: pending, s.respond .refused, ?_, rfl, ?_, fun _ => ?_⟩
      · simp only [feedBytes, issue_of_effect (.fifoFull (b := b) h.unfaulted hq) rfl]
        rfl
      · rw [List.append_nil]
        exact ⟨h.unfaulted, h.le, h.rem, h.fetched, h.left_le, h.cur⟩
      · obtain ⟨k, _, hk⟩ := hq
        intro hc
        rw [respond_buFifo] at hc
        rw [hc] at hk
        simp at hk
    · obtain ⟨t, h1, h2, _, h4⟩ := h.feed b hq
      obtain ⟨taken, left, u, r1, r2, r3, r4⟩ := ih t (fed ++ [b]) h4
      refine ⟨b :: taken, left, u, ?_, by rw [r2]; rfl, by simpa using r3, r4⟩
      simp only [feedBytes, issue_of_effect h1 h2]
      exact r1

end Sys2Proof.Laws
end

