-- ==== Sys2Proof/Laws/RoundTrip.lean ====
section
/-! SUPPORT. The two procedures of 47_environment.md as wholes: what compress leaves of an input, and what
the decoding loop makes of a payload. -/

namespace Sys2Proof.Laws

open Sys2Proof Sys2Proof.Machine

/-- Counts that fit bound the length of the input. -/
theorem length_lt (x : List Byte) (h : ∀ a : Byte, x.count a < 2^32) : x.length ≤ 256 * (2^32 - 1) := by
  rw [length_eq_sum_count]
  have : ∀ l : List Byte, (l.map fun a => x.count a).sum ≤ l.length * (2^32-1) := by
    intro l
    induction l with
    | nil => simp
    | cons b l ih => simp only [List.map_cons, List.sum_cons, List.length_cons]; have := h b; omega
  have := this allSymbols
  rwa [length_allSymbols] at this

/-! ### Prefix-code tables -/

/-- What CA.ASSIGN leaves: non-empty codes of at most 255 bits, none a prefix of another symbol's (R32,
R137). -/
structure PrefixTable (t : CodeTable) : Prop where
  len : ∀ a c, codeOf t a = some c → 1 ≤ c.length ∧ c.length ≤ 255
  pre : ∀ a b c d, codeOf t a = some c → codeOf t b = some d → a ≠ b → ¬ c <+: d

theorem prefixTable_assign {node : List Node} {root : Ref} {t : CodeTable}
    (ht : assignCodes node root = some t) : PrefixTable t := by
  rcases assignCodes_spec ht with ⟨w, b, _, h⟩ | ⟨_, h⟩
  · refine ⟨fun a c hc => ?_, fun a a' c d hc hd hne => ?_⟩
    · rw [h] at hc; split at hc
      · cases hc; decide
      · cases hc
    · rw [h] at hc hd
      split at hc
      · split at hd
        · simp_all
        · cases hd
      · cases hc
  · have key : ∀ a c, codeOf t a = some c → LeadsTo node root c a ∧ 1 ≤ c.length
      ∧ c.length ≤ Config.codeMax := by
      intro a c hc
      rcases h a with ⟨q, h0, hq, h1, h2⟩ | ⟨_, hq⟩
      · rw [hc] at hq; cases hq; exact ⟨h0, h1, h2⟩
      · rw [hc] at hq; cases hq
    refine ⟨fun a c hc => (key a c hc).2, fun a b c d hc hd hne hpre => ?_⟩
    exact hne (leadsTo_prefix (key a c hc).1 (key b d hd).1 hpre).2

/-- A text is at most 255 bits a byte. -/
theorem flat_len (t : CodeTable) (hg : PrefixTable t) (x : List Byte) :
    (x.flatMap fun a => (codeOf t a).getD []).length ≤ 255 * x.length := by
  induction x with
  | nil => simp
  | cons a x ih =>
    simp only [List.flatMap_cons, List.length_append, List.length_cons]
    have : ((codeOf t a).getD []).length ≤ 255 := by
      cases h : codeOf t a with
      | none => simp
      | some c => exact (hg.len a c h).2
    omega

theorem map_putBit (bits : List Bool) : bits.map putBit = (bits.map BitVec.ofBool).map .bpPut := by
  rw [List.map_map]; rfl

/-! ### Compress -/

/-- Compress (R173) of a non-empty input whose counts fit: it succeeds; the table is a prefix code with a
code for every byte of the input, the payload is the packed codes in order, the count is their bits; an
input of one symbol has the code `0`. -/
theorem compress_spec (x : List Byte) (s : State) (hf : s.faulted = false) (hx : x ≠ [])
    (hc : ∀ a : Byte, x.count a < 2^32) :
    ∃ (t : CodeTable) (bits : List Bool) (tot : BitCount) (u : State),
      compress x s = .ok (⟨t, tot, payloadOf (bits.map BitVec.ofBool)⟩, u)
      ∧ PrefixTable t ∧ tot.toNat = bits.length ∧ bits = (x.flatMap fun a => (codeOf t a).getD [])
      ∧ (∀ a ∈ x, ∃ c, codeOf t a = some c)
      ∧ (∀ b, (∀ a ∈ x, a = b) → codeOf t b = some [false]) := by
  have e1 := Effect.fcClr hf
  have hz : ∀ a, ({ s with freq := Vector.replicate 256 0 }.respond (.ok 0)).freqAt a = 0 := fun a => by
    rw [respond_freqAt, freqAt_replicate]
  obtain ⟨rs, s2, r1, r2, r4⟩ := fcPuts_run x ({ s with freq := Vector.replicate 256 0 }.respond (.ok 0)) hf
    fun a => by rw [hz]; simpa using hc a
  have r3 : ∀ a, (s2.freqAt a).toNat = x.count a := fun a => by
    rw [fcPuts_counts r1 hf r2 a, hz]; simp
  obtain ⟨a0, ha0⟩ := List.exists_mem_of_ne_nil x hx
  have hpres : ∀ a, s2.freqAt a ≠ 0 ↔ a ∈ x := by
    intro a
    rw [ne_eq, ← BitVec.toNat_inj, r3 a, ← List.count_pos_iff]
    show ¬ _ = 0 ↔ _
    omega
  obtain ⟨e, hq, hb⟩ := exec_tbBuild_next r2 ⟨a0, (hpres a0).2 ha0⟩
  have e3 := Effect.tbBuild r2 ⟨a0, (hpres a0).2 ha0⟩ hq
  obtain ⟨_, h2, h3, h4, _, _⟩ := exec_tbBuild_spec r2 hb r2
  obtain ⟨t, ht⟩ := assignCodes_total h3
  have hg := prefixTable_assign ht
  -- present codes
  have hleaf : ∀ a ∈ x, ∃ (k : Nat) (w : Weight),
      (buildTree s2.freqAt).node[k]? = some (Node.leaf w a) := by
    intro a ha
    have hm : a ∈ presentSymbols s2.freqAt := by rw [mem_presentSymbols, count_pos_iff]; exact (hpres a).2 ha
    obtain ⟨k, hk⟩ := List.getElem?_of_mem hm
    obtain ⟨hk1, _⟩ := List.getElem?_eq_some_iff.1 hk
    have h4' : (buildTree s2.freqAt).node.take _ = leavesFor s2.freqAt := h4
    refine ⟨k, (s2.freqAt a).setWidth 40, ?_⟩
    rw [← List.getElem?_take_of_lt hk1, h4', leavesFor, List.getElem?_map, hk]; rfl
  have hcodes : ∀ a ∈ x, ∃ c, codeOf t a = some c := by
    intro a ha
    obtain ⟨k, w, hk⟩ := hleaf a ha
    obtain ⟨c, hc⟩ := leadsTo_exists h3 hk
    rcases assignCodes_spec ht with ⟨w', b, hn, h⟩ | ⟨_, h⟩
    · obtain ⟨w'', hc⟩ := hc
      cases c with
      | nil => rw [follow_nil, hn] at hc; cases hc; exact ⟨[false], by rw [h]; simp⟩
      | cons q c => rw [follow_leaf _ _ hn] at hc; cases hc
    · rcases h a with ⟨q, _, hq, _⟩ | ⟨hno, _⟩
      · exact ⟨q, hq⟩
      · exact absurd hc (hno c)
  have hone : ∀ b, (∀ a ∈ x, a = b) → codeOf t b = some [false] := by
    intro b hb
    have hps : ∀ a, a ∈ presentSymbols s2.freqAt ↔ a = b := by
      intro a; rw [mem_presentSymbols, count_pos_iff, hpres]
      constructor
      · exact hb a
      · rintro rfl; have := hb a0 ha0; rwa [← this]
    have hn1 : (presentSymbols s2.freqAt).length = 1 := by
      have hnd : (presentSymbols s2.freqAt).Nodup := (presentSymbols_sorted _).imp fun {a b} h => by
        rintro rfl; exact absurd h (BitVec.lt_irrefl a)
      match hp : presentSymbols s2.freqAt with
      | [] => have := (hps b).2 rfl; rw [hp] at this; cases this
      | [_] => rfl
      | y :: z :: _ => 
        rw [hp] at hnd hps
        have hy := (hps y).1 (by simp)
        have hz := (hps z).1 (by simp)
        simp [hy, hz] at hnd
    have hroot := h3.root_last
    rw [hn1] at hroot h3
    obtain ⟨w, a, hx, _⟩ := h3.leaves 0 (by decide)
    rcases assignCodes_spec ht with ⟨w', b', hn, h⟩ | ⟨⟨w', l, r, hn⟩, h⟩
    · obtain ⟨c, hc⟩ := hcodes a0 ha0
      have hab := hb a0 ha0
      rw [h] at hc ⊢
      split at hc
      · next hh => rw [← hab, hh]; simp
      · cases hc
    · unfold nodeOf at hn; rw [hroot] at hn
      have hx' : (buildTree s2.freqAt).node[0]? = _ := hx
      have hn' : (buildTree s2.freqAt).node[0]? = _ := hn
      rw [hx'] at hn'; cases hn'
  generalize hs3 : ({ s2 with pq := [], node := (buildTree s2.freqAt).node, tbRoot := e.ref, tbValid := true }.respond
          (.ok (rootValue (BitVec.ofNat 10 (buildTree s2.freqAt).node.length) e.ref))) = s3 at e3 ht h3
  have hf3 : s3.faulted = false := by rw [← hs3]; exact r2
  have hv3 : s3.tbValid = true := by rw [← hs3]; rfl
  have e4 := Effect.caAssign hf3 hv3 ht
  have hr3 : s3.rsps = s2.rsps ++ [(Response.ok (rootValue
      (BitVec.ofNat 10 (buildTree s2.freqAt).node.length) e.ref)).word] := by rw [← hs3]; rfl
  generalize hs4 : ({ s3 with code := t }.respond (.ok ((BitVec.ofNat 8 (maxLen t)).setWidth 56))) = s4 at e4
  have hr4 : s4.rsps = s3.rsps ++ [(Response.ok ((BitVec.ofNat 8 (maxLen t)).setWidth 56)).word] := by rw [← hs4]; rfl
  have hf4 : s4.faulted = false := by rw [← hs4]; exact hf3
  have hc4 : s4.code = t := by rw [← hs4]; rfl
  have hrunA := Run.cons (r := .ok 0) e1 rfl (r1.append (.cons e3 hr3 (.one e4 hr4)))
  have hA := requireAll_of_run hrunA (by
    intro r hr
    simp only [List.mem_cons, List.mem_append, List.not_mem_nil, or_false] at hr
    rcases hr with rfl | hr | rfl | rfl
    · exact .inl rfl
    · exact .inl (by rw [r4 r hr]; rfl)
    · exact .inl rfl
    · exact .inl rfl)
  obtain ⟨s5, hT, hsame⟩ := readTable_all hf4 (fun a bits h => (hg.len a bits (by rw [← hc4]; exact h)).2)
  rw [hc4] at hT
  have hf5 : s5.faulted = false := hsame.faulted.trans hf4
  obtain ⟨bits, hbits⟩ := encodeBits_total hcodes
  have hbe := encodeBits_eq hbits
  have hlen : bits.length < 2^48 := by
    have h1 := flat_len t hg x
    rw [← hbe] at h1
    have h2 := length_lt x hc
    omega
  obtain ⟨s6, c1, c2, c3⟩ := packing_clr hf5
  obtain ⟨rs6, s7, d1, d2, d3, d4, d5⟩ := c3.flush (bits := bits.map BitVec.ofBool) (by simpa using hlen)
  rw [← map_putBit] at d1
  refine ⟨t, bits, s7.bpTotal, s7.respond (.ok (s7.bpTotal.setWidth 56)), ?_, hg, by rw [d3]; simp, hbe, hcodes, hone⟩
  have hA' : requireAll (.fcClr :: x.map .fcPut ++ [.tbBuild, .caAssign]) s = _ := hA
  simp only [compress, andThen_ok, hA', hT, hbits, require_of_effect c1 c2 (.inl rfl), requireAll_of_run d1 d4, d5,
    require_of_effect (.bpCount d2) rfl (.inl rfl), rspValue_word, Response.value]
  congr 3
  apply BitVec.eq_of_toNat_eq
  simp

/-! ### Decompress -/

/-- A code is found, and found for its symbol. -/
theorem lookup_some {t : CodeTable} (hg : PrefixTable t) {a : Byte} {c : Code} (h : codeOf t a = some c) :
    lookupCode t c = some a := by
  unfold lookupCode
  have : ∃ b, allSymbols.find? (fun a => codeOf t a == some c) = some b := by
    rw [← Option.isSome_iff_exists, List.find?_isSome]
    exact ⟨a, mem_allSymbols a, by simp [h]⟩
  obtain ⟨b, hb⟩ := this
  have hb' := List.find?_some hb
  simp at hb'
  by_cases hab : a = b
  · subst hab; exact hb
  · exact absurd (List.prefix_refl c) (hg.pre a b c c h hb' hab)

/-- A proper prefix of a code is no code. -/
theorem lookup_none {t : CodeTable} (hg : PrefixTable t) {a : Byte} {c d : Code}
    (h : codeOf t a = some c) (hd : d <+: c) (hne : d ≠ c) : lookupCode t d = none := by
  unfold lookupCode
  rw [List.find?_eq_none]
  intro b _ hb
  simp at hb
  by_cases hab : a = b
  · subst hab; rw [h] at hb; cases hb; exact hne rfl
  · exact hg.pre b a d c hb h (fun hh => hab hh.symm) hd

theorem tableMalformed_eq_false {t : CodeTable} (hg : PrefixTable t) (hex : ∃ a c, codeOf t a = some c) :
    tableMalformed t = false := by
  obtain ⟨a, c, h⟩ := hex
  unfold tableMalformed
  rw [Bool.or_eq_false_iff, Bool.or_eq_false_iff]
  refine ⟨⟨?_, ?_⟩, ?_⟩
  · rw [List.all_eq_false]; exact ⟨a, mem_allSymbols a, by simp [h]⟩
  · rw [List.any_eq_false]; intro b _ hb
    simp at hb
    have := (hg.len b [] hb).1; simp at this
  · rw [List.any_eq_false]; intro b _ hb
    rw [List.any_eq_true] at hb
    obtain ⟨d, _, hd⟩ := hb
    cases h1 : codeOf t b with
    | none => rw [h1] at hd; cases hd
    | some c1 =>
      cases h2 : codeOf t d with
      | none => rw [h1, h2] at hd; cases hd
      | some c2 =>
        rw [h1, h2] at hd
        simp at hd
        exact hg.pre b d c1 c2 h1 h2 hd.1 hd.2

/-- The loop of R178: a feed of the payload in order, the codes of `xs` still to come after the candidate,
gives `xs`. -/
theorem decodeLoop_spec (t : CodeTable) (hg : PrefixTable t) (payload : List Byte) (count : Nat)
    (bits : List Bool) (hlb : bits.length = count)
   (hbit : ∀ j (h : j < bits.length), payloadBit payload j = bits[j]) (hcl : count ≤ 8 * payload.length) :
   ∀ (k : Nat) (d : Nat) (fed pending : List Byte) (cand : Code) (out xs : List Byte) (s : State),
     k = count - d + 1 → Unpacking s fed count d → fed ++ pending = payload →
     (∀ a ∈ xs, ∃ c, codeOf t a = some c) →
     cand ++ bits.drop d = xs.flatMap (fun a => (codeOf t a).getD []) →
     (∀ a xs', xs = a :: xs' → cand.length < ((codeOf t a).getD []).length) → (xs = [] → cand = []) →
     ∃ u, decodeLoop k t pending cand out s = .ok (out ++ xs, u) := by
  intro k
  induction k with
  | zero => intro d _ _ _ _ _ _ hk; omega
  | succ k ih =>
    intro d fed pending cand out xs s hk hu hfp hxs hbd hlt hnil
    obtain ⟨taken, left, s1, f1, f2, f3, f4⟩ := feedBytes_spec pending s fed hu
    have hpl : payload = (fed ++ taken) ++ left := by rw [← hfp, f2]; simp
    simp only [decodeLoop, f1, andThen_ok]
    by_cases hd : d = count
    · subst hd
      obtain ⟨s2, g1, g2, g3⟩ := f3.done
      rw [require_of_effect g1 g2 (.inr rfl)]
      have hd0 : bits.drop d = [] := List.drop_eq_nil_of_le (by omega)
      have hxnil : xs = [] := by
        cases xs with
        | nil => rfl
        | cons a xs' =>
          have := hlt a xs' rfl
          have hb := congrArg List.length hbd
          rw [hd0] at hb
          simp at hb; omega
      subst hxnil
      rw [hnil rfl]
      exact ⟨s2, by simp [Response.status]⟩
    · have hdlt : d < count := by have := f3.le; omega
      have hb : s1.buLeft ≠ 0 ∨ s1.buFifo ≠ [] := by
        by_cases hl : s1.buLeft = 0
        · right
          by_cases hle : left = []
          · obtain ⟨f, q1, q2, q3⟩ := f3.fetched
            have hl0 : s1.buLeft.toNat = 0 := by rw [hl]; rfl
            rw [hle, List.append_nil] at hpl
            rw [q2]
            intro hc'
            rw [List.drop_eq_nil_iff, ← hpl] at hc'
            omega
          · exact f4 hle
        · exact .inl hl
      obtain ⟨s2, g1, g2, g3, g4⟩ := f3.next hdlt hb
      have hbb : payloadBit (fed ++ taken) d = bits[d] := by
        rw [← hbit d (by omega), hpl, payloadBit_append g3]
      rw [hbb] at g2
      rw [require_of_effect g1 g2 (.inl rfl)]
      have hval : (rspValue (Response.ok (bitValue bits[d])).word).getLsbD 0 = bits[d] := by
        rw [rspValue_word]; cases bits[d] <;> rfl
      have hst : ¬ rspStatus (Response.ok (bitValue bits[d])).word = 1 := by
        rw [rspStatus_word]; simp [Response.status]
      simp only [andThen_ok, hst, if_false, hval]
      have hdrop : bits.drop d = bits[d] :: bits.drop (d+1) := List.drop_eq_getElem_cons (by omega)
      cases xs with
      | nil => 
        rw [hdrop] at hbd; simp at hbd; omega
      | cons a xs' =>
        obtain ⟨c, hc⟩ := hxs a (by simp)
        have hlc := hlt a xs' rfl
        rw [hc] at hlc; simp at hlc
        rw [List.flatMap_cons, hc, hdrop] at hbd
        simp only [Option.getD_some] at hbd
        have hbd' : (cand ++ [bits[d]]) ++ bits.drop (d+1) 
            = c ++ xs'.flatMap (fun a => (codeOf t a).getD []) := by rw [← hbd]; simp
        have hpre : cand ++ [bits[d]] <+: c := by
          apply List.prefix_of_prefix_length_le (l₃ := c ++ xs'.flatMap (fun a => (codeOf t a).getD []))
          · rw [← hbd']; exact List.prefix_append _ _
          · exact List.prefix_append _ _
          · simp; omega
        have hxs' : ∀ a ∈ xs', ∃ c, codeOf t a = some c := fun b hb => hxs b (by simp [hb])
        by_cases heq : cand ++ [bits[d]] = c
        · rw [heq, lookup_some hg hc]
          rw [heq] at hbd'
          have := ih (d+1) (fed ++ taken) left [] (out ++ [a]) xs' s2 (by omega) g4 hpl.symm hxs' (by
            simpa using List.append_cancel_left hbd') (by
            intro b ys hb
            obtain ⟨c', hc'⟩ := hxs' b (by simp [hb])
            rw [hc']
            have := (hg.len b c' hc').1
            simp; exact this) (fun _ => rfl)
          obtain ⟨u, hu⟩ := this
          exact ⟨u, by simpa using hu⟩
        · rw [lookup_none hg hc hpre heq]
          have hlen : (cand ++ [bits[d]]).length < c.length := by
            rcases Nat.lt_or_ge (cand ++ [bits[d]]).length c.length with h | h
            · exact h
            · exact absurd (hpre.eq_of_length_le h) heq
          have hml := length_le_maxLen hc
          have : ¬ maxLen t ≤ (cand ++ [bits[d]]).length := by omega
          simp only [this, if_false]
          refine ih (d+1) (fed ++ taken) left (cand ++ [bits[d]]) out (a :: xs') s2 (by omega) g4 hpl.symm hxs (by
            rw [List.flatMap_cons, hc]; exact hbd') (by
            intro b ys hb; cases hb; rw [hc]; exact hlen) (by intro h; cases h)

end Sys2Proof.Laws
end

