-- ==== Sys2Proof/Tests/Slice0.lean ====
section
/-! SUPPORT. Tests of the model. Expected results come from the spec: the encodings and EN vectors of
30_encoding.md and 95_test_vectors.md, and the vectors named at each test. The last part shows, for each
statement with hypotheses, a state and operands that meet them. -/

namespace Sys2Proof.Tests

open Machine

set_option Elab.async false

/-! ### Helpers -/

/-- The state after a step that presents one word. -/
def after (w : Nat) (s : State) : Option State :=
  match step (s.withFetchWord 64 w) with
  | .next t => some t
  | .fault _ => none
  | .refused _ => none

/-- The response of that step. -/
def rsp (w : Nat) (s : State) : Option Word := (after w s).bind (·.rsps.getLast?)

/-- A view of the state after that step. -/
def view {α : Type} (f : State → α) (w : Nat) (s : State) : Option α := (after w s).map f

/-- The state after reset, with an unbounded FIFO, and these counts. -/
def counted (cs : List (Byte × Count)) : State :=
  cs.foldl (fun s p => s.setFreq p.1 p.2) { State.reset with buFifoCap := none }

/-- The next state, if there is one. -/
def nextOf : Result → Option State
  | .next t => some t
  | .fault _ => none
  | .refused _ => none

/-- The state a command leaves; the state before it where it gives none. -/
def run (i : Instr) (s : State) : State := (nextOf (exec i s)).getD s

theorem exec_of_nextOf {i : Instr} {s t : State} (h : nextOf (exec i s) = some t) :
    exec i s = .next t := by
  unfold nextOf at h
  split at h
  next u hu => cases h; exact hu
  · cases h
  · cases h

theorem exec_run {i : Instr} {s : State} (h : (nextOf (exec i s)).isSome = true) :
    exec i s = .next (run i s) := by
  obtain ⟨t, ht⟩ := Option.isSome_iff_exists.1 h
  rw [exec_of_nextOf ht, run, ht]
  rfl

/-- "ab", counted: vector TB-3. -/
def ab : State := counted [(0x61, 1), (0x62, 1)]

/-- "ab" with its tree. -/
def abTree : State :=
  { ab with
    node := [.leaf 1 0x61, .leaf 1 0x62, .internal 2 0 1], tbRoot := 2, tbValid := true, rsps := [0x30002] }

/-- "ab" with its code table. -/
def abCodes : State := run .caAssign abTree

/-- One symbol: vector TB-2. -/
def lone : State := counted [(0x00, 1)]

/-- One symbol with its tree. -/
def loneTree : State := { lone with node := [.leaf 1 0x00], tbValid := true, rsps := [0x10000] }

/-- "mississippi": vector TB-10. -/
def mis : State := counted [(0x69, 4), (0x6D, 1), (0x70, 2), (0x73, 4)]

/-- "mississippi" with its tree. -/
def misTree : State :=
  { mis with
    node := [.leaf 4 0x69, .leaf 1 0x6D, .leaf 2 0x70, .leaf 4 0x73,
      .internal 3 1 2, .internal 7 4 0, .internal 11 3 5]
    tbRoot := 6, tbValid := true, rsps := [0x70006] }

/-- "mississippi" with its code table: vector CA-4. -/
def misCodes : State := run .caAssign misTree

/-- A selector with the five entries of vector PQ-2, put in its order. -/
def fivePq : State :=
  { State.reset with pq := [⟨2, 4⟩, ⟨2, 7⟩, ⟨5, 1⟩, ⟨5, 3⟩, ⟨9, 0⟩] }

/-- A full selector: vector PQ-5. -/
def fullPq : State := { State.reset with pq := (List.range 256).map fun k => ⟨7, BitVec.ofNat 9 k⟩ }

/-- A faulted state: the end of vector BU-6. -/
def faultedState : State := { State.reset with latched := some ⟨.corrupt, 0⟩, buRem := 1 }

/-- A full FIFO of capacity 2: vector BU-2. -/
def fullFifo : State := { State.reset with buFifoCap := some 1, buFifo := [0xFF, 0x01] }

/-! ### Well-formedness: each check refuses an ill-formed line (R71, R72, R81) -/

theorem test_wf_too_few : AsmLine.arityOk ⟨.pqAdd, [5]⟩ = false := by decide
theorem test_wf_too_many : AsmLine.arityOk ⟨.sysNop, [0]⟩ = false := by decide
theorem test_wf_sym : AsmLine.rangesOk ⟨.fcPut, [256]⟩ = false := by decide
theorem test_wf_weight : AsmLine.rangesOk ⟨.pqAdd, [2 ^ 40, 3]⟩ = false := by decide
theorem test_wf_ref : AsmLine.rangesOk ⟨.pqAdd, [5, 512]⟩ = false := by decide
theorem test_wf_ref_tb : AsmLine.rangesOk ⟨.tbLink, [512]⟩ = false := by decide
theorem test_wf_idx : AsmLine.rangesOk ⟨.caBit, [0x62, 256]⟩ = false := by decide
theorem test_wf_bit : AsmLine.rangesOk ⟨.bpPut, [2]⟩ = false := by decide
theorem test_wf_count : AsmLine.rangesOk ⟨.buStart, [2 ^ 48]⟩ = false := by decide
theorem test_wf_refuses :
    AsmLine.wellFormed ⟨.fcGet, []⟩ = false ∧ AsmLine.wellFormed ⟨.buFeed, [256]⟩ = false
      ∧ AsmLine.wellFormed ⟨.caBit, [255, 255]⟩ = true := by decide

/-! ### Decoding: words written out from R70, R71 and R76 -/

/-- Opcode byte, then `arg`. -/
theorem test_decode_sys :
    decode (0x00#8 ++ 0#56) = .ok .sysNop ∧ decode (0x01#8 ++ 0#56) = .ok .sysReset
      ∧ decode (0x02#8 ++ 0#56) = .ok .sysStatus := by decide

theorem test_decode_fc :
    decode 0x1000000000000000#64 = .ok .fcClr
      ∧ decode 0x1100000000000061#64 = .ok (.fcPut 0x61)
      ∧ decode 0x12000000000000FF#64 = .ok (.fcGet 0xFF) := by decide

/-- PQ.ADD 5, 3: opcode 0x21, seven zero bits, `ref` = 000000011 in `arg[48:40]`, `w` in `arg[39:0]`. -/
theorem test_decode_pq_bits :
    decode (0b00100001#8 ++ 0b0000000#7 ++ 0b000000011#9 ++ 5#40) = .ok (.pqAdd 5 3) := by decide

theorem test_decode_pq :
    decode 0x2000000000000000#64 = .ok .pqClr
      ∧ decode 0x2101FFFFFFFFFFFF#64 = .ok (.pqAdd 0xFFFFFFFFFF 0x1FF)
      ∧ decode 0x2200000000000000#64 = .ok .pqRem
      ∧ decode 0x2300000000000000#64 = .ok .pqLen := by decide

theorem test_decode_tb :
    decode 0x3000000000000000#64 = .ok .tbBuild ∧ decode 0x3100000000000000#64 = .ok .tbRoot
      ∧ decode 0x32000000000001FF#64 = .ok (.tbWeight 511)
      ∧ decode 0x3300000000000002#64 = .ok (.tbLink 2) := by decide

/-- CA.BIT 'b', 1: `idx` in `arg[15:8]`, `sym` in `arg[7:0]`. -/
theorem test_decode_ca :
    decode 0x4000000000000000#64 = .ok .caAssign
      ∧ decode 0x410000000000006D#64 = .ok (.caLen 0x6D)
      ∧ decode 0x4200000000000162#64 = .ok (.caBit 0x62 1) := by decide

theorem test_decode_bp :
    decode 0x5000000000000000#64 = .ok .bpClr ∧ decode 0x5100000000000001#64 = .ok (.bpPut 1)
      ∧ decode 0x5200000000000000#64 = .ok .bpFlush ∧ decode 0x5300000000000000#64 = .ok .bpCount := by
  decide

theorem test_decode_bu :
    decode 0x6000FFFFFFFFFFFF#64 = .ok (.buStart 0xFFFFFFFFFFFF)
      ∧ decode 0x61000000000000A5#64 = .ok (.buFeed 0xA5)
      ∧ decode 0x6200000000000000#64 = .ok .buNext ∧ decode 0x6300000000000000#64 = .ok .buRem := by
  decide

/-- The encoder writes the words of vectors EN-1, PQ-2, CA-4 and BU-4. -/
theorem test_encode :
    encode (.fcPut 0xFF) = 0x11000000000000FF#64 ∧ encode (.pqAdd 5 3) = 0x2100030000000005#64
      ∧ encode (.tbWeight 511) = 0x32000000000001FF#64 ∧ encode (.caBit 0x70 2) = 0x4200000000000270#64
      ∧ encode (.bpPut 1) = 0x5100000000000001#64 ∧ encode (.buStart 10) = 0x600000000000000A#64 := by
  decide

/-- Vector EN-2, must-be-zero bits. -/
theorem test_illegal_mustBeZero :
    decode 0x0000000000000001#64 = .error .mustBeZero
      ∧ decode 0x0100000000000001#64 = .error .mustBeZero
      ∧ decode 0x0200000000000001#64 = .error .mustBeZero
      ∧ decode 0x1100000000000100#64 = .error .mustBeZero
      ∧ decode 0x2102000000000000#64 = .error .mustBeZero
      ∧ decode 0x3200000000000200#64 = .error .mustBeZero
      ∧ decode 0x4200000000010000#64 = .error .mustBeZero
      ∧ decode 0x5100000000000002#64 = .error .mustBeZero
      ∧ decode 0x6001000000000000#64 = .error .mustBeZero := by decide

/-- Vector EN-2, undefined `fn` and reserved units. -/
theorem test_illegal_opcode :
    decode 0x0300000000000000#64 = .error .undefinedFn ∧ decode 0x1300000000000000#64 = .error .undefinedFn
      ∧ decode 0x6400000000000000#64 = .error .undefinedFn
      ∧ decode 0x7000000000000000#64 = .error .reservedUnit
      ∧ decode 0xFF00000000000000#64 = .error .reservedUnit := by decide

/-- The host's numbering of bits is the word's own. -/
theorem test_decodeTableWord :
    decodeTableWord 64 0x2100030000000005 = some (.pqAdd 5 3)
      ∧ decodeTableWord 64 0x7000000000000000 = none := by decide

/-- R81, R82: lines of text. -/
theorem test_assembler :
    assembleText "CA.BIT 'b', 1 ; a comment".toList = some [.caBit 0x62 1]
      ∧ assembleText "PQ.ADD 5, 0x1FF".toList = some [.pqAdd 5 0x1FF]
      ∧ assembleText "BP.PUT 2".toList = none := by decide +kernel

/-- R81: any ASCII character in single quotes stands for its code (0x2C, 0x3B). Log 9: a comma or
semicolon there too, and a character without an ASCII code stands for nothing. -/
theorem test_quoted_characters :
    assembleText "CA.BIT ',', 1".toList = some [.caBit 0x2C 1]
      ∧ assembleText "FC.PUT ';' ; a comment".toList = some [.fcPut 0x3B]
      ∧ assembleText "FC.PUT 'é'".toList = none := by decide +kernel

theorem test_pseudo_instructions :
    assembleText "FC.PUTS \"ab\"".toList = some [.fcPut 0x61, .fcPut 0x62]
      ∧ assembleText "BP.PUTS \"10\"".toList = some [.bpPut 1, .bpPut 0]
      ∧ assembleText "BU.FEEDS 0xB2, 0x80".toList = some [.buFeed 0xB2, .buFeed 0x80] := by
  decide +kernel

/-! ### One step of each command -/

/-- SY-1. -/
theorem test_sysNop : rsp 0x0000000000000000 State.reset = some 0 := by decide +kernel

/-- EN-3, SY-3: SYS.RESET leaves the faulted state; an illegal SYS word does not. -/
theorem test_sysReset :
    rsp 0x0100000000000000 faultedState = some 0
      ∧ view State.faulted 0x0100000000000000 faultedState = some false
      ∧ rsp 0x0100000000000001 faultedState = some 0xC000000000000000
      ∧ view State.faulted 0x0100000000000001 faultedState = some true := by decide +kernel

/-- SY-2: TBV and BPF with a fault on 0x61. -/
theorem test_sysStatus :
    rsp 0x0200000000000000 { abTree with bpFinal := true, latched := some ⟨.emptyInput, 0⟩ }
        = some 0x107
      ∧ rsp 0x0200000000000000 { State.reset with latched := some ⟨.fcOverflow, 0x61⟩ }
        = some 0x610301 := by decide +kernel

/-- FC-3. -/
theorem test_fcClr :
    view (·.freqAt 0x61) 0x1000000000000000 (counted [(0x61, 4)]) = some 0 := by decide +kernel

/-- FC-2: counters are independent. -/
theorem test_fcPut :
    view (·.freqAt 0x61) 0x1100000000000061 (counted [(0x61, 3)]) = some 4
      ∧ view (·.freqAt 0x62) 0x1100000000000061 (counted [(0x61, 3)]) = some 0 := by decide +kernel

/-- FC-4: the greatest count is kept and the symbol recorded. -/
theorem test_fcPut_overflow :
    rsp 0x1100000000000061 (counted [(0x61, 0xFFFFFFFF)]) = some 0x8300000000000061
      ∧ view (·.freqAt 0x61) 0x1100000000000061 (counted [(0x61, 0xFFFFFFFF)])
        = some 0xFFFFFFFF := by decide +kernel

/-- FC-1, FC-4. -/
theorem test_fcGet :
    rsp 0x12000000000000FF State.reset = some 0
      ∧ rsp 0x1200000000000061 (counted [(0x61, 0xFFFFFFFF)]) = some 0xFFFFFFFF := by decide +kernel

/-- PQ-6. -/
theorem test_pqClr : view State.pq 0x2000000000000000 fivePq = some [] := by decide +kernel

/-- PQ-2: by weight, then by reference. -/
theorem test_pqAdd :
    view State.pq 0x2100040000000002 { State.reset with pq := [⟨2, 7⟩, ⟨5, 1⟩, ⟨5, 3⟩] }
      = some [⟨2, 4⟩, ⟨2, 7⟩, ⟨5, 1⟩, ⟨5, 3⟩] := by decide +kernel

/-- PQ-5. -/
theorem test_pqAdd_full :
    rsp 0x2100000000000001 fullPq = some 0xC000000000000000
      ∧ view (·.pq.length) 0x2100000000000001 fullPq = some 256 := by decide +kernel

/-- PQ-2: the lower reference of the two of weight 2. -/
theorem test_pqRem :
    rsp 0x2200000000000000 fivePq = some 0x0000040000000002
      ∧ view (·.pq.length) 0x2200000000000000 fivePq = some 4 := by decide +kernel

/-- PQ-1. -/
theorem test_pqRem_empty : rsp 0x2200000000000000 State.reset = some 0x4000000000000000 := by
  decide +kernel

/-- PQ-5. -/
theorem test_pqLen : rsp 0x2300000000000000 fullPq = some 0x100 := by decide +kernel

/-- TB-10: the arena, the root, the selector and the response, over an old entry in the selector. -/
theorem test_tbBuild :
    view (fun t => (t.node, t.pq, t.rsps)) 0x3000000000000000 { mis with pq := [⟨9, 9⟩] }
      = some (misTree.node, [], [0x70006]) := by decide +kernel

/-- TB-5, a leaf before an internal record of its weight; TB-11, the empty input. -/
theorem test_tbBuild_tie :
    view State.node 0x3000000000000000 (counted [(0x61, 1), (0x62, 1), (0x63, 2)])
        = some [.leaf 1 0x61, .leaf 1 0x62, .leaf 2 0x63, .internal 2 0 1, .internal 4 2 3]
      ∧ rsp 0x3000000000000000 State.reset = some 0x8100000000000000 := by decide +kernel

/-- TB-3, TB-1. -/
theorem test_tbRoot :
    rsp 0x3100000000000000 abTree = some 0x30002
      ∧ rsp 0x3100000000000000 State.reset = some 0x4000000000000000 := by decide +kernel

/-- TB-3, TB-2. -/
theorem test_tbWeight :
    rsp 0x3200000000000002 abTree = some 2
      ∧ rsp 0x32000000000001FF loneTree = some 0x4000000000000000 := by decide +kernel

/-- TB-10: right above left. -/
theorem test_tbLink :
    rsp 0x3300000000000006 misTree = some 0x40A03 ∧ rsp 0x3300000000000001 abTree = some 0x62 := by
  decide +kernel

/-- CA-4: the codes of "mississippi". -/
theorem test_caAssign :
    rsp 0x4000000000000000 misTree = some 3
      ∧ view (·.codeAt 0x6D) 0x4000000000000000 misTree = some (some [true, false, false])
      ∧ view (·.codeAt 0x69) 0x4000000000000000 misTree = some (some [true, true])
      ∧ view (·.codeAt 0x61) 0x4000000000000000 misTree = some none := by decide +kernel

/-- CA-2, the single leaf; CA-1, no tree. -/
theorem test_caAssign_lone :
    view (·.codeAt 0x00) 0x4000000000000000 loneTree = some (some [false])
      ∧ rsp 0x4000000000000000 State.reset = some 0xC000000000000000 := by decide +kernel

/-- CA-4, CA-1. -/
theorem test_caLen :
    rsp 0x410000000000006D misCodes = some 3
      ∧ rsp 0x4100000000000061 State.reset = some 0x4000000000000000 := by decide +kernel

/-- CA-4: `idx` 0 is the root's edge. -/
theorem test_caBit :
    rsp 0x420000000000006D misCodes = some 1 ∧ rsp 0x420000000000016D misCodes = some 0
      ∧ rsp 0x420000000000036D misCodes = some 0x4000000000000000 := by decide +kernel

/-- BP-5: BP.CLR leaves the finalised state. -/
theorem test_bpClr :
    view (·.bpFinal) 0x5000000000000000 { State.reset with bpFinal := true } = some false := by
  decide +kernel

/-- BP-1: the eighth bit of 10110010. -/
theorem test_bpPut :
    rsp 0x5100000000000000 { State.reset with bpAcc := 0b1011001, bpN := 7, bpTotal := 7 } = some 0xB2
      ∧ rsp 0x5100000000000001 State.reset = some 0x4000000000000000
      ∧ rsp 0x5100000000000001 { State.reset with bpFinal := true } = some 0xC000000000000000 := by
  decide +kernel

/-- BP-8: the greatest count. -/
theorem test_bpPut_overflow :
    rsp 0x5100000000000001 { State.reset with bpTotal := 0xFFFFFFFFFFFF, bpN := 7, bpAcc := 0x7F }
        = some 0x8400000000000000
      ∧ view (·.bpAcc) 0x5100000000000001
          { State.reset with bpTotal := 0xFFFFFFFFFFFF, bpN := 7, bpAcc := 0x7F } = some 0x7F := by
  decide +kernel

/-- BP-2, BP-5: the ninth bit, left-justified; nothing pending. -/
theorem test_bpFlush :
    rsp 0x5200000000000000 { State.reset with bpAcc := 1, bpN := 1, bpTotal := 9 } = some 0x80
      ∧ rsp 0x5200000000000000 State.reset = some 0x4000000000000000 := by decide +kernel

/-- BP-8. -/
theorem test_bpCount :
    rsp 0x5300000000000000 { State.reset with bpTotal := 0xFFFFFFFFFFFF, bpFinal := true }
      = some 0xFFFFFFFFFFFF := by decide +kernel

/-- BU-6, BU-8: the FIFO and the current byte are dropped. -/
theorem test_buStart :
    view (fun t => (t.buFifo, t.buCur, t.buLeft, t.buRem)) 0x6000000000000002
      { State.reset with buFifo := [0xFF], buCur := 0x10, buLeft := 7, buRem := 3 }
        = some ([], 0, 0, 2) := by decide +kernel

/-- BU-2: appended at the tail; refused when full. -/
theorem test_buFeed :
    view (·.buFifo) 0x6100000000000001 { fullFifo with buFifo := [0xFF] } = some [0xFF, 0x01]
      ∧ rsp 0x6100000000000002 fullFifo = some 0xC000000000000000 := by decide +kernel

/-- BU-3, BU-6: the first bit of 0xA5; a byte that is not there. -/
theorem test_buNext :
    rsp 0x6200000000000000 { State.reset with buFifo := [0xA5], buRem := 8 } = some 1
      ∧ view (fun t => (t.buFifo, t.buCur, t.buLeft, t.buRem)) 0x6200000000000000
          { State.reset with buFifo := [0xA5], buRem := 8 } = some ([], 0x4A, 7, 7)
      ∧ rsp 0x6200000000000000 { State.reset with buRem := 1 } = some 0x8200000000000000 := by
  decide +kernel

/-- BU-1, BU-2: at countdown 0 nothing is fetched. -/
theorem test_buNext_done :
    rsp 0x6200000000000000 fullFifo = some 0x4000000000000000
      ∧ view (·.buFifo) 0x6200000000000000 fullFifo = some [0xFF, 0x01] := by decide +kernel

/-- BU-5. -/
theorem test_buRem : rsp 0x6300000000000000 { State.reset with buRem := 3 } = some 3 := by
  decide +kernel

/-- EN-2, SY-3: an illegal word, and any other command while faulted. -/
theorem test_refusals :
    rsp 0x7000000000000000 State.reset = some 0xC000000000000000
      ∧ rsp 0x6300000000000000 faultedState = some 0xC000000000000000 := by decide +kernel

/-! ### Witnesses: states and operands that meet the hypotheses of each statement -/

/-- TB.BUILD, from what its two loops leave. -/
theorem exec_build {s : State} {node : List Node} {w : Weight} {r : Ref} {v : Value}
    (hf : s.faulted = false) (hp : ∃ a, s.freqAt a ≠ 0) (hb : buildTree s.freqAt = ⟨[⟨w, r⟩], node⟩)
    (hv : rootValue (BitVec.ofNat 10 node.length) r = v) :
    exec .tbBuild s = .next { s with
      pq := [], node := node, tbRoot := r, tbValid := true, rsps := s.rsps ++ [(Response.ok v).word] } := by
  rw [Laws.exec_of_effect (.tbBuild hf hp (e := ⟨w, r⟩) (by rw [hb])), hb, hv]
  rfl

theorem ab_built : exec .tbBuild ab = .next abTree :=
  exec_build rfl ⟨0x61, by decide +kernel⟩ (w := 2) (by decide +kernel) (v := 0x30002) (by decide)
theorem lone_built : exec .tbBuild lone = .next loneTree :=
  exec_build rfl ⟨0x00, by decide +kernel⟩ (w := 1) (by decide +kernel) (v := 0x10000) (by decide)

theorem ab_assigned : exec .caAssign abTree = .next abCodes := exec_run (by decide +kernel)
theorem lone_assigned : exec .caAssign loneTree = .next (run .caAssign loneTree) :=
  exec_run (by decide +kernel)

/-- A complete tree over two leaves. -/
theorem ab_arena : ArenaOk abTree.node abTree.tbRoot 2 := by
  have h := (Laws.exec_tbBuild_spec rfl ab_built rfl).2.2.1
  rwa [show (presentSymbols ab.freqAt).length = 2 by decide +kernel] at h

/-- A complete tree over one leaf. -/
theorem lone_arena : ArenaOk loneTree.node loneTree.tbRoot 1 := by
  have h := (Laws.exec_tbBuild_spec rfl lone_built rfl).2.2.1
  rwa [show (presentSymbols lone.freqAt).length = 1 by decide +kernel] at h

theorem witness_EncodeOfDecode :
    decode 0x2101FFFFFFFFFFFF#64 = .ok (.pqAdd 0xFFFFFFFFFF 0x1FF) := by decide

/-- A word its row admits and another row does not; a word no row admits. -/
theorem witness_LegalWordsMatchTheirRow :
    (decode 0x11000000000000FF#64 = .ok (.fcPut 0xFF)
      ∧ (∃ r ∈ opRows, r.admits 0x11000000000000FF#64 = true)
      ∧ ∃ r ∈ opRows, r.admits 0x11000000000000FF#64 = false)
    ∧ ∀ r ∈ opRows, r.admits 0x1100000000000100#64 = false := by decide +kernel

/-- Words at the edges of the three kinds. -/
theorem witness_IllegalWordsByKind :
    (7 ≤ (0x7000000000000000#64).toNat / 2 ^ 60 ∧ 7 ≤ (0xFFFFFFFFFFFFFFFF#64).toNat / 2 ^ 60)
      ∧ ((0x6FFFFFFFFFFFFFFF#64).toNat / 2 ^ 60 < 7
        ∧ ∀ r ∈ opRows, opField 0x6FFFFFFFFFFFFFFF#64 ≠ opField r.pattern)
      ∧ (∃ r ∈ opRows, opField 0x6300000000000001#64 = opField r.pattern)
      ∧ ∀ r ∈ opRows, r.admits 0x6300000000000001#64 = false := by decide +kernel

theorem witness_TableRowsDisjoint :
    ∃ r ∈ opRows, ∃ r' ∈ opRows, opField r.pattern = opField r'.pattern
      ∧ r.admits 0x6300000000000000#64 = true ∧ r'.admits 0x6300000000000000#64 = true := by
  decide +kernel

theorem witness_ResponseWordLayout : ∃ r r' : Response, r.word = r'.word := ⟨.none, .none, rfl⟩

/-- A line at the top of its ranges, and one just past them. -/
theorem witness_LinesAssembleToTheirCommand :
    AsmLine.wellFormed ⟨.pqAdd, [2 ^ 40 - 1, 511]⟩ = true
      ∧ AsmLine.wellFormed ⟨.pqAdd, [2 ^ 40, 511]⟩ = false := by decide

/-- A state to which these words are presented. -/
def presented (w : Word) (s : State) : State := { s with inputs := [.command w] }

theorem witness_StepRunsDecodedCommand :
    (presented 0x1100000000000061 State.reset).inputs = .command 0x1100000000000061 :: []
      ∧ decode 0x1100000000000061 = .ok (.fcPut 0x61) := by decide +kernel

/-- A word no row matches, and one that a row matches. -/
theorem witness_StepRefusesIllegalWord :
    (presented 0x7000000000000000 faultedState).inputs = .command 0x7000000000000000 :: []
      ∧ (∀ r ∈ opRows, r.admits 0x7000000000000000 = false)
      ∧ ∃ r ∈ opRows, r.admits 0x6300000000000000 = true := by decide +kernel

theorem witness_IdleStepHoldsTheState : State.reset.inputs = [] := rfl

theorem witness_EachCommandAnswersOnce :
    ∃ t, (presented 0 State.reset).inputs = .command 0 :: [] ∧ step (presented 0 State.reset) = .next t :=
  ⟨_, rfl, Laws.step_command rfl (by decide : decode 0 = .ok .sysNop)⟩

theorem witness_FaultedBlockRefuses :
    faultedState.faulted = true ∧ decode 0x6200000000000000 ≠ .ok .sysStatus
      ∧ decode 0x6200000000000000 ≠ .ok .sysReset
      ∧ decode 0x0200000000000001 ≠ .ok .sysStatus := by decide +kernel

theorem witness_FaultEntryWritesOnlyTheFault :
    ∃ t, State.reset.faulted = false ∧ exec .tbBuild State.reset = .next t ∧ t.faulted = true :=
  ⟨_, rfl, exec_run (by decide +kernel), by decide +kernel⟩

/-- No fault; each cause, at its condition. -/
theorem witness_FaultCausesAreTheTable :
    State.reset.faulted = false
      ∧ (run .tbBuild State.reset).latched = some ⟨.emptyInput, 0⟩
      ∧ (run .buNext { State.reset with buRem := 1 }).latched = some ⟨.corrupt, 0⟩
      ∧ (run (.fcPut 0xFF) (counted [(0xFF, 0xFFFFFFFF)])).latched = some ⟨.fcOverflow, 0xFF⟩
      ∧ (run (.bpPut 0) { State.reset with bpTotal := 0xFFFFFFFFFFFF }).latched = some ⟨.bpOverflow, 0⟩ := by
  decide +kernel

/-- Held by another command; left by SYS.RESET and by the reset input. -/
theorem witness_OnlyResetLeavesTheFaultedState :
    faultedState.faulted = true
      ∧ view State.faulted 0x6200000000000000 faultedState = some true
      ∧ view State.faulted 0x0100000000000000 faultedState = some false
      ∧ ∃ t, step { faultedState with inputs := [.hardReset] } = .next t ∧ t.faulted = false :=
  ⟨by decide, by decide +kernel, by decide +kernel, _, Laws.step_hardReset rfl, rfl⟩

/-- (a) to (f), and a command none of them names. -/
theorem witness_RefusalsAreTheListed :
    (faultedState.faulted = true ∧ decode 0x6200000000000000 = .ok .buNext)
      ∧ decode 0x7000000000000000 = .error .reservedUnit
      ∧ (decode 0x2100000000000001 = .ok (.pqAdd 1 0) ∧ 256 ≤ fullPq.pq.length)
      ∧ (decode 0x4000000000000000 = .ok .caAssign ∧ State.reset.tbValid = false)
      ∧ (decode 0x5200000000000000 = .ok .bpFlush ∧ (run .bpFlush State.reset).bpFinal = true)
      ∧ (decode 0x6100000000000002 = .ok (.buFeed 2) ∧ FifoFull fullFifo)
      ∧ rsp 0 State.reset ≠ some 0xC000000000000000 :=
  ⟨by decide +kernel, by decide, by decide +kernel, by decide, by decide +kernel,
    ⟨by decide, 1, rfl, by decide⟩, by decide +kernel⟩

theorem witness_ReadOutsAreIdempotent : readOut (.caBit 0xFF 0xFF) = true := rfl

theorem witness_UnitsWriteOnlyTheirOwnState : ∃ t, exec .tbBuild ab = .next t := ⟨_, ab_built⟩

/-- At the last count that takes one more, and at the greatest. -/
theorem witness_FcPutAddsOne :
    ((counted [(0x61, 0xFFFFFFFE)]).faulted = false
        ∧ ((counted [(0x61, 0xFFFFFFFE)]).freqAt 0x61).toNat ≠ 2 ^ 32 - 1)
      ∧ (counted [(0x61, 0xFFFFFFFF)]).faulted = false
      ∧ ((counted [(0x61, 0xFFFFFFFF)]).freqAt 0x61).toNat = 2 ^ 32 - 1 := by decide +kernel

theorem witness_FcClrClearsEveryCount : (counted [(0xFF, 1)]).faulted = false := by decide +kernel

theorem witness_FcGetReadsTheCount : State.reset.faulted = false := rfl

/-- One entry short of full, and full. -/
theorem witness_PqAddInsertsOneCopy :
    (State.reset.faulted = false ∧ { State.reset with pq := fullPq.pq.drop 1 : State }.pq.length = 255)
      ∧ fullPq.faulted = false ∧ 256 ≤ fullPq.pq.length := by decide +kernel

theorem fivePq_sorted : SortedEntries fivePq.pq := by
  unfold SortedEntries
  decide +kernel

theorem witness_PqRemReturnsTheLeast :
    (State.reset.faulted = false ∧ SortedEntries State.reset.pq ∧ State.reset.pq = [])
      ∧ fivePq.faulted = false ∧ SortedEntries fivePq.pq ∧ fivePq.pq ≠ [] :=
  ⟨⟨rfl, List.Pairwise.nil, rfl⟩, rfl, fivePq_sorted, by decide⟩

theorem witness_PqClrAndLen : fullPq.faulted = false ∧ fullPq.pq.length ≤ 256 := by decide +kernel

/-- Two adds with a removal between them. -/
theorem witness_RemovalsComeOutInOrder :
    ∃ t, fivePq.faulted = false ∧ SortedEntries fivePq.pq
      ∧ (∀ i ∈ [Instr.pqAdd 5 3, .pqRem, .pqAdd 2 7], (∃ w r, i = .pqAdd w r) ∨ i = .pqRem)
      ∧ execAll [.pqAdd 5 3, .pqRem, .pqAdd 2 7] fivePq = .next t :=
  ⟨_, rfl, fivePq_sorted, by simp, rfl⟩

theorem witness_BuildCompletes : ab.faulted = false ∧ ∃ a, ab.freqAt a ≠ 0 :=
  ⟨rfl, 0x61, by rw [show ab.freqAt 0x61 = 1 by decide +kernel]; decide⟩

/-- Two symbols, and one. -/
theorem witness_BuiltTreeHasItsShape :
    (ab.faulted = false ∧ exec .tbBuild ab = .next abTree ∧ abTree.faulted = false)
      ∧ lone.faulted = false ∧ exec .tbBuild lone = .next loneTree
        ∧ loneTree.faulted = false :=
  ⟨⟨rfl, ab_built, rfl⟩, rfl, lone_built, rfl⟩

theorem witness_RootWeightIsTheTotalCount :
    (ab.faulted = false ∧ exec .tbBuild ab = .next abTree ∧ abTree.faulted = false)
      ∧ ∃ t, execAll (.fcClr :: (fcPuts [0x61] ++ [.tbBuild])) State.reset = .next t
        ∧ t.faulted = false :=
  ⟨witness_BuiltTreeHasItsShape.1, run .tbBuild (run (.fcPut 0x61) (run .fcClr State.reset)), by
    simp only [fcPuts, List.map_cons, List.map_nil, List.cons_append, List.nil_append, execAll]
    rw [exec_run (i := .fcClr) (by decide +kernel)]
    simp only
    rw [exec_run (i := .fcPut 0x61) (by decide +kernel)]
    simp only
    rw [exec_run (i := .tbBuild) (by decide +kernel)], by decide +kernel⟩

/-- A record of each kind in the tree built. -/
theorem witness_LeavesAreThePresentSymbols :
    (ab.faulted = false ∧ exec .tbBuild ab = .next abTree ∧ abTree.faulted = false)
      ∧ abTree.node[1]? = some (Node.leaf 1 0x62) :=
  ⟨witness_BuiltTreeHasItsShape.1, rfl⟩

theorem witness_MergesTakeTheTwoLeast :
    (ab.faulted = false ∧ exec .tbBuild ab = .next abTree ∧ abTree.faulted = false)
      ∧ abTree.node[2]? = some (Node.internal 2 0 1) :=
  ⟨witness_BuiltTreeHasItsShape.1, rfl⟩

theorem witness_EachRecordHasOneParent :
    ab.faulted = false ∧ exec .tbBuild ab = .next abTree ∧ abTree.faulted = false :=
  witness_BuiltTreeHasItsShape.1

/-- "ab" counted, under another selector and another old tree. -/
def abOver : State := { ab with pq := [⟨9, 9⟩], node := [.leaf 5 0x01], tbValid := true }

theorem witness_TreeAndTableDependOnCountsAlone :
    ab.faulted = false ∧ abOver.faulted = false ∧ (∀ a, ab.freqAt a = abOver.freqAt a)
      ∧ exec .tbBuild ab = .next abTree ∧ exec .tbBuild abOver = .next (run .tbBuild abOver)
      ∧ abTree.faulted = false ∧ exec .caAssign abTree = .next abCodes
      ∧ ∃ u, exec .caAssign (run .tbBuild abOver) = .next u :=
  ⟨rfl, by decide +kernel, fun _ => rfl, ab_built, exec_run (by decide +kernel),
    rfl, ab_assigned, _, exec_run (by decide +kernel)⟩

/-- Without a tree; with one, at a leaf, at the root and just past it. -/
theorem witness_TreeReadOuts :
    (State.reset.faulted = false ∧ State.reset.node.length ≤ 511 ∧ State.reset.tbValid = false)
      ∧ abTree.faulted = false ∧ abTree.node.length ≤ 511 ∧ abTree.tbValid = true
      ∧ abTree.node[(0 : Ref).toNat]? = some (Node.leaf 1 0x61)
      ∧ abTree.node[(2 : Ref).toNat]? = some (Node.internal 2 0 1)
      ∧ abTree.node.length ≤ (3 : Ref).toNat := by decide +kernel

/-- Without a tree; with one of one leaf and of two. -/
theorem witness_AssignCompletes :
    (State.reset.faulted = false ∧ State.reset.tbValid = false)
      ∧ (loneTree.faulted = false ∧ loneTree.tbValid = true ∧ ArenaOk loneTree.node loneTree.tbRoot 1)
      ∧ abTree.faulted = false ∧ abTree.tbValid = true ∧ ArenaOk abTree.node abTree.tbRoot 2 :=
  ⟨⟨rfl, rfl⟩, ⟨rfl, rfl, lone_arena⟩, rfl, rfl, ab_arena⟩

theorem witness_CodesArePaths :
    (loneTree.faulted = false ∧ loneTree.tbValid = true ∧ ArenaOk loneTree.node loneTree.tbRoot 1
        ∧ exec .caAssign loneTree = .next (run .caAssign loneTree))
      ∧ abTree.faulted = false ∧ abTree.tbValid = true ∧ ArenaOk abTree.node abTree.tbRoot 2
        ∧ exec .caAssign abTree = .next abCodes :=
  ⟨⟨rfl, rfl, lone_arena, lone_assigned⟩, rfl, rfl, ab_arena,
    ab_assigned⟩

theorem witness_CodesCoverThePresentSymbols :
    ab.faulted = false ∧ exec .tbBuild ab = .next abTree ∧ abTree.faulted = false
      ∧ exec .caAssign abTree = .next abCodes :=
  ⟨rfl, ab_built, rfl, ab_assigned⟩

theorem witness_CodesArePrefixFree :
    (abTree.faulted = false ∧ abTree.tbValid = true ∧ ArenaOk abTree.node abTree.tbRoot 2
        ∧ exec .caAssign abTree = .next abCodes)
      ∧ abCodes.codeAt 0x61 = some [false] ∧ abCodes.codeAt 0x62 = some [true] :=
  ⟨witness_CodesArePaths.2, by decide +kernel, by decide +kernel⟩

/-- Another prefix code for "ab". -/
def otherCode (a : Byte) : Option Code :=
  if a = 0x61 then some [true] else if a = 0x62 then some [false, true] else none

theorem witness_HuffmanCodeIsOptimal :
    ab.faulted = false ∧ exec .tbBuild ab = .next abTree ∧ abTree.faulted = false
      ∧ exec .caAssign abTree = .next abCodes
      ∧ (∀ a, ab.freqAt a ≠ 0 → ∃ c, otherCode a = some c ∧ c ≠ [])
      ∧ ∀ a b c d, ab.freqAt a ≠ 0 → ab.freqAt b ≠ 0 → a ≠ b →
        otherCode a = some c → otherCode b = some d → ¬ c <+: d := by
  refine ⟨rfl, ab_built, rfl, ab_assigned, ?_, ?_⟩
  · have h : ∀ a : Byte, ab.freqAt a ≠ 0 → a = 0x61 ∨ a = 0x62 := by decide +kernel
    intro a ha
    rcases h a ha with rfl | rfl
    · exact ⟨[true], by decide, by decide⟩
    · exact ⟨[false, true], by decide, by decide⟩
  · have h : ∀ (a : Byte) c, otherCode a = some c →
        a = 0x61 ∧ c = [true] ∨ a = 0x62 ∧ c = [false, true] := by
      intro a c hc
      unfold otherCode at hc
      split at hc
      · next ha => cases hc; exact .inl ⟨ha, rfl⟩
      · split at hc
        · next ha => cases hc; exact .inr ⟨ha, rfl⟩
        · cases hc
    intro a b c d _ _ hab hc hd
    rcases h a c hc with ⟨rfl, rfl⟩ | ⟨rfl, rfl⟩ <;> rcases h b d hd with ⟨rfl, rfl⟩ | ⟨rfl, rfl⟩
    · exact absurd rfl hab
    · decide
    · decide
    · exact absurd rfl hab

/-- Absent; present, at its last bit and just past it. -/
theorem witness_CodeReadOuts :
    (State.reset.faulted = false ∧ State.reset.codeAt 0xFF = none)
      ∧ misCodes.faulted = false ∧ misCodes.codeAt 0x6D = some [true, false, false]
      ∧ [true, false, false][(2 : Byte).toNat]? = some false
      ∧ [true, false, false].length ≤ (3 : Byte).toNat := by decide +kernel

/-- Finalised; at the greatest bit count; empty; one bit short of a byte at the last count that takes one
more. -/
theorem witness_BpPutShiftsTheBitIn :
    (∃ s : State, s.faulted = false ∧ s.bpFinal = true)
      ∧ (∃ s : State, s.faulted = false ∧ s.bpFinal = false ∧ s.bpTotal.toNat = 2 ^ 48 - 1)
      ∧ (State.reset.faulted = false ∧ State.reset.bpFinal = false ∧ State.reset.bpTotal.toNat ≠ 2 ^ 48 - 1
        ∧ State.reset.bpAcc.toNat < 2 ^ State.reset.bpN.toNat ∧ State.reset.bpN ≠ 7)
      ∧ ∃ s : State, s.faulted = false ∧ s.bpFinal = false ∧ s.bpTotal.toNat ≠ 2 ^ 48 - 1
        ∧ s.bpAcc.toNat < 2 ^ s.bpN.toNat ∧ s.bpN = 7 :=
  ⟨⟨{ State.reset with bpFinal := true }, by decide⟩,
    ⟨{ State.reset with bpTotal := 0xFFFFFFFFFFFF }, by decide⟩, by decide,
    { State.reset with bpAcc := 0x7F, bpN := 7, bpTotal := 0xFFFFFFFFFFFE }, by decide⟩

/-- Finalised; nothing pending; seven bits pending. -/
theorem witness_BpFlushPadsWithZeros :
    (∃ s : State, s.faulted = false ∧ s.bpFinal = true)
      ∧ (State.reset.faulted = false ∧ State.reset.bpFinal = false
        ∧ State.reset.bpAcc.toNat < 2 ^ State.reset.bpN.toNat ∧ State.reset.bpN = 0)
      ∧ ∃ s : State, s.faulted = false ∧ s.bpFinal = false ∧ s.bpAcc.toNat < 2 ^ s.bpN.toNat
        ∧ s.bpN ≠ 0 :=
  ⟨⟨{ State.reset with bpFinal := true }, by decide⟩, by decide,
    { State.reset with bpAcc := 0x7F, bpN := 7, bpTotal := 7 }, by decide⟩

theorem witness_BpClrAndCount : { State.reset with bpFinal := true : State }.faulted = false := rfl

theorem witness_PackedPayloadIsTheBitSequence :
    State.reset.faulted = false ∧ ([1, 0, 1, 1, 0, 0, 1, 0, 1] : List (BitVec 1)).length < 2 ^ 48 := by
  decide

/-- Full and not full, at a capacity of two. -/
theorem witness_BuStartFeedAndRem :
    fullFifo.faulted = false ∧ FifoFull fullFifo
      ∧ { fullFifo with buFifo := [0xFF] : State }.faulted = false
      ∧ ¬ FifoFull { fullFifo with buFifo := [0xFF] } := by
  refine ⟨rfl, ⟨1, rfl, by decide⟩, rfl, ?_⟩
  rintro ⟨k, hk, hl⟩
  cases hk
  exact absurd hl (by decide)

/-- Countdown 0; no byte to fetch; the last bit of the current byte left; a byte to fetch. -/
theorem witness_BuNextReturnsTheNextBit :
    (State.reset.faulted = false ∧ State.reset.buRem = 0)
      ∧ (∃ s : State, s.faulted = false ∧ s.buRem ≠ 0 ∧ s.buLeft = 0 ∧ s.buFifo = [])
      ∧ (∃ s : State, s.faulted = false ∧ s.buRem ≠ 0 ∧ s.buLeft ≠ 0)
      ∧ ∃ s : State, s.faulted = false ∧ s.buRem ≠ 0 ∧ s.buLeft = 0 ∧ s.buFifo = 0xA5 :: [] :=
  ⟨by decide, ⟨{ State.reset with buRem := 1 }, by decide⟩,
    ⟨{ State.reset with buRem := 1, buLeft := 1, buCur := 0x80 }, by decide⟩,
    { State.reset with buRem := 1, buFifo := [0xA5] }, by decide⟩

/-- A byte fed, one bit taken of the one to take, one asked for past it. -/
theorem witness_UnpackedBitsAreTheFedBits :
    ∃ t, State.reset.faulted = false
      ∧ (∀ i ∈ [Instr.buFeed 0xA5, .buNext, .buNext], (∃ b, i = .buFeed b) ∨ i = .buNext)
      ∧ execAll (.buStart 1 :: [.buFeed 0xA5, .buNext, .buNext]) State.reset = .next t
      ∧ t.faulted = false ∧ Response.refused.word ∉ newResponses State.reset t :=
  ⟨_, rfl, by simp, rfl, by decide +kernel, by decide +kernel⟩

/-- An unbounded FIFO, and the smallest one with all it can hold. -/
theorem witness_UnpackerInvertsPacker :
    ∃ s s' : State, s.faulted = false ∧ s'.faulted = false
      ∧ (∀ k, s.buFifoCap = some k → (9 + 7) / 8 ≤ k + 1)
      ∧ s'.buFifoCap = some 0 ∧ ∀ k, s'.buFifoCap = some k → (8 + 7) / 8 ≤ k + 1 :=
  ⟨{ State.reset with buFifoCap := none }, { State.reset with buFifoCap := some 0 }, rfl, rfl,
    by simp, rfl, by simp⟩

theorem witness_NopAndStatus : State.reset.faulted = false ∧ faultedState.faulted = true := ⟨rfl, rfl⟩

theorem witness_HardwareResetIsSysReset :
    { abCodes with inputs := [.hardReset] : State }.inputs = .hardReset :: [] := rfl

theorem witness_ResetValues : ∃ t, exec .sysReset faultedState = .next t := ⟨_, rfl⟩

/-- A state that meets the invariant, with a command to run. -/
theorem presented_inv : (presented 0x1100000000000061 State.reset).Inv where
  pq := ⟨List.Pairwise.nil, by decide⟩
  tb := ⟨fun h => (by cases h), fun _ => ⟨rfl, rfl⟩⟩
  ca := ⟨fun a c h => by simp [presented, State.codeAt, codeOf, State.reset] at h,
    fun a b c d h => by simp [presented, State.codeAt, codeOf, State.reset] at h⟩
  bp := ⟨by decide, fun h => (by cases h), fun _ => by decide⟩
  bu := ⟨fun k _ => Nat.zero_le _, by decide, by decide⟩
  sys := fun l h => (by cases h)

theorem witness_StepKeepsTheInvariant :
    ∃ t, (presented 0x1100000000000061 State.reset).Inv
      ∧ step (presented 0x1100000000000061 State.reset) = .next t :=
  ⟨_, presented_inv, (Laws.step_command rfl (by decide : decode 0x1100000000000061 = .ok (.fcPut 0x61))).trans
    (exec_run (by decide +kernel))⟩

theorem witness_InvariantStateAlwaysSteps : (presented 0x1100000000000061 State.reset).Inv := presented_inv

theorem witness_CompressRoundTrip :
    State.reset.faulted = false ∧ { State.reset with buFifoCap := some 0 : State }.faulted = false
      ∧ (∃ a ∈ ([0x61, 0x62] : List Byte), ∃ b ∈ ([0x61, 0x62] : List Byte), a ≠ b)
      ∧ ∀ a : Byte, ([0x61, 0x62] : List Byte).count a < 2 ^ 32 :=
  ⟨rfl, rfl, by decide, fun _ => Nat.lt_of_le_of_lt List.count_le_length (by decide)⟩

/-- One byte, and the greatest number a counter holds. -/
theorem witness_SingleSymbolRoundTrip :
    State.reset.faulted = false ∧ (0 < 1 ∧ 1 < 2 ^ 32) ∧ 0 < 2 ^ 32 - 1 ∧ 2 ^ 32 - 1 < 2 ^ 32 := by
  decide

theorem witness_BitCountInvariant :
    ∃ c t, State.reset.faulted = false ∧ compress [0x61, 0x62] State.reset = .ok (c, t) := by
  obtain ⟨t, bits, tot, u, h, _⟩ := Laws.compress_spec [0x61, 0x62] State.reset rfl (by decide)
    fun _ => Nat.lt_of_le_of_lt List.count_le_length (by decide)
  exact ⟨_, _, rfl, h⟩

/-- Whether an `ERR` ended a procedure, and whether another failure did. -/
def endOf (r : HostRun Report) : Option Bool :=
  match r with
  | .error f => some f.erred
  | .ok _ => none

theorem eq_error_of_endOf {r : HostRun Report} {b : Bool} (h : endOf r = some b) :
    ∃ f, r = .error f ∧ f.erred = b := by
  rcases r with f | x
  · exact ⟨f, rfl, Option.some.inj h⟩
  · cases h

/-- A procedure that an `ERR` ends, and one that the host ends: a container without a code. -/
theorem witness_EmptyInputFails :
    State.reset.faulted = false
      ∧ (∃ f, runProcedure (.compress []) State.reset = .error f ∧ f.erred = true)
      ∧ ∃ f, runProcedure (.decompress ⟨noCodes, 1, [0]⟩) State.reset = .error f ∧ f.erred = false :=
  ⟨rfl, eq_error_of_endOf (by decide +kernel), eq_error_of_endOf (by decide +kernel)⟩

/-- R181: the procedure after one that an `ERR` ended succeeds, and what was reported before is the kind. -/
theorem test_procedure_after_err :
    ∃ c, performAll [.compress [], .compress [0x61]] State.reset = [.failed .emptyInput, .container c] := by
  have h : report (runProcedure (.compress []) State.reset) = .failed .emptyInput := by decide +kernel
  have key : ∀ s : State, s.faulted = false →
      ∃ c, report (runProcedure (.compress [0x61]) s) = .container c := by
    intro s hf
    obtain ⟨t, bits, tot, u, hc, _⟩ := Laws.compress_spec [0x61] s hf (by decide)
      fun _ => Nat.lt_of_le_of_lt List.count_le_length (by decide)
    exact ⟨_, by rw [runProcedure, hc, Laws.andThen_ok, report]⟩
  obtain ⟨c, hc⟩ := key _ (Laws.nextStart_unfaulted (.compress []) (s := State.reset) rfl)
  exact ⟨c, by rw [performAll, performAll, performAll, h, hc]⟩

end Sys2Proof.Tests
end

section
/-! The reset values of R44, proved of `State.resetBlock`, which the reset state, SYS.RESET and the reset
input all go through. -/

namespace Sys2Proof.Proofs

open Sys2Proof.Machine Sys2Proof.Laws

/-- R44: a block reset gives every element its reset value. -/
theorem blockReset_resetBlock (s : State) : BlockReset s.resetBlock := by
  have hfreq : ∀ a, s.resetBlock.freqAt a = 0 := fun a => by simp [State.freqAt]
  have hcode : ∀ a, s.resetBlock.codeAt a = none := codeOf_noCodes
  exact ⟨hfreq, rfl, rfl, rfl, rfl, rfl, hcode, rfl, rfl, rfl, rfl, rfl, rfl, rfl, rfl, rfl, rfl, rfl⟩

/-- The ports are no elements of R44. -/
@[simp] theorem blockReset_respond {s : State} {r : Response} :
    BlockReset (s.respond r) ↔ BlockReset s := Iff.rfl

/-- R40: every field of STATUS is a view of an element that R44 sets to 0. -/
theorem statusReg_of_blockReset {t : State} (h : BlockReset t) : t.statusReg = 0 := by
  obtain ⟨-, -, -, -, -, hvalid, -, -, -, -, hfinal, -, -, -, -, hfaulted, hcause, hinfo⟩ := h
  rw [State.statusReg, hinfo, hcause, hfinal, hvalid, hfaulted]
  decide

theorem blockReset_reset : BlockReset State.reset := blockReset_resetBlock State.reset

theorem blockReset_of_exec_sysReset {s t : State} (h : exec .sysReset s = .next t) : BlockReset t := by
  rw [← next_inj ((exec_sysReset s).symm.trans h), blockReset_respond]
  exact blockReset_resetBlock s

/-- Settles O53: both are a block reset, and STATUS is a view of reset elements. -/
theorem resetValues : Obligations.ResetValues :=
  ⟨⟨blockReset_reset, statusReg_of_blockReset blockReset_reset⟩, fun _ _ h =>
    ⟨blockReset_of_exec_sysReset h, statusReg_of_blockReset (blockReset_of_exec_sysReset h)⟩⟩

end Sys2Proof.Proofs
end

section
/-! The command and response words of 30_encoding.md: a row of R76 is its opcode byte over an operand field
whose must-be-zero bits begin at the width of the row's operands, and the decoder reads exactly the words
that match a row. -/

namespace Sys2Proof.Proofs

open Sys2Proof.Machine Sys2Proof.Laws

/-! ### What the decoder accepts -/

/-- The bits of `arg` that the operands of an operation take, from bit 0 on (R71). -/
def operandBits (o : Op) : Nat := o.format.widths.sum

/-- The must-be-zero bits above the lowest `k` are 0 exactly when the operand field is below `2 ^ k`. -/
theorem slice_eq_zero_iff (arg : Arg) {k m : Nat} (h : 56 = k + m) :
    arg.extractLsb' k m = 0 ↔ arg.toNat < 2 ^ k := by
  have hlt : arg.toNat / 2 ^ k < 2 ^ m := by
    rw [Nat.div_lt_iff_lt_mul (Nat.two_pow_pos k), ← Nat.pow_add, Nat.add_comm, ← h]
    exact arg.isLt
  have hzero : arg.extractLsb' k m = 0 ↔ arg.toNat / 2 ^ k = 0 := by
    rw [← BitVec.toNat_inj, toNat_slice, Nat.mod_eq_of_lt hlt]
    rfl
  rw [hzero, Nat.div_eq_zero_iff_lt (Nat.two_pow_pos k)]

/-- A read guarded by a must-be-zero test accepts exactly when the test does. -/
theorem exists_ite_eq_ok {p : Prop} [Decidable p] {e : Illegal} {j : Instr} :
    (∃ i, (if p then .ok j else .error e : Except Illegal Instr) = .ok i) ↔ p := by
  split
  · next hp => exact iff_of_true ⟨j, rfl⟩ hp
  · next hp => exact iff_of_false (by rintro ⟨_, h⟩; cases h) hp

/-- R71: an operand field is read exactly when every bit its format does not list is 0. -/
theorem exists_readArg_eq_ok {o : Op} {arg : Arg} :
    (∃ i, readArg o arg = .ok i) ↔ arg.toNat < 2 ^ operandBits o := by
  cases o with
  | fcPut | fcGet | caLen | buFeed => exact exists_ite_eq_ok.trans (slice_eq_zero_iff arg (k := 8) rfl)
  | pqAdd => exact exists_ite_eq_ok.trans (slice_eq_zero_iff arg (k := 49) rfl)
  | tbWeight | tbLink => exact exists_ite_eq_ok.trans (slice_eq_zero_iff arg (k := 9) rfl)
  | caBit => exact exists_ite_eq_ok.trans (slice_eq_zero_iff arg (k := 16) rfl)
  | bpPut => exact exists_ite_eq_ok.trans (slice_eq_zero_iff arg (k := 1) rfl)
  | buStart => exact exists_ite_eq_ok.trans (slice_eq_zero_iff arg (k := 48) rfl)
  | _ =>
    refine exists_ite_eq_ok.trans ?_
    rw [← BitVec.toNat_inj]
    exact Nat.lt_one_iff.symm

/-- The words that decode to a command of an operation. -/
theorem exists_decode_op_iff {c : Word} {o : Op} :
    (∃ i, decode c = .ok i ∧ i.op = o)
      ↔ opField c = o.code ∧ (argField c).toNat < 2 ^ operandBits o := by
  rw [← exists_readArg_eq_ok]
  constructor
  · rintro ⟨i, hd, rfl⟩
    have hop := (decode_eq_ok.1 hd).1
    exact ⟨hop, i, by rw [← decode_listed hop, hd]⟩
  · rintro ⟨hop, i, hr⟩
    exact ⟨i, by rw [decode_listed hop, hr], (readArg_eq_ok.1 hr).1⟩

/-! ### What a row admits -/

/-- R76, R79: `match` holds the opcode byte and no operand bit; `mask` covers the opcode byte and the bits
above the operands. -/
theorem opRows_layout : ∀ r ∈ opRows,
    r.pattern = r.op.code ++ 0#56
      ∧ r.mask = 0xFF#8 ++ (BitVec.allOnes 56 <<< operandBits r.op) := by decide

/-- Every operation has a row. -/
theorem exists_row (o : Op) : ∃ r ∈ opRows, r.op = o := by
  cases o <;> decide

/-- The mask of the bits from `k` up leaves nothing exactly of the fields below `2 ^ k`. -/
theorem and_highBits_eq_zero_iff (arg : Arg) (k : Nat) :
    arg &&& (BitVec.allOnes 56 <<< k) = 0#56 ↔ arg.toNat < 2 ^ k := by
  have hlt : arg.toNat / 2 ^ k * 2 ^ k < 2 ^ 56 :=
    Nat.lt_of_le_of_lt (Nat.div_mul_le_self _ _) arg.isLt
  have htoNat : (arg >>> k <<< k).toNat = arg.toNat / 2 ^ k * 2 ^ k := by
    rw [BitVec.toNat_shiftLeft, BitVec.toNat_ushiftRight, Nat.shiftRight_eq_div_pow, Nat.shiftLeft_eq,
      Nat.mod_eq_of_lt hlt]
  rw [← BitVec.shiftLeft_ushiftRight, ← BitVec.toNat_inj, htoNat, BitVec.toNat_ofNat, Nat.zero_mod,
    mul_eq_zero_iff_right (Nat.two_pow_pos k).ne', Nat.div_eq_zero_iff_lt (Nat.two_pow_pos k)]

theorem append_eq_append_iff {m n : Nat} {a a' : BitVec m} {b b' : BitVec n} :
    a ++ b = a' ++ b' ↔ a = a' ∧ b = b' := by
  constructor
  · intro h
    constructor
    · simpa only [BitVec.extractLsb'_append_eq_left] using congrArg (BitVec.extractLsb' n m) h
    · simpa only [BitVec.extractLsb'_append_eq_right] using congrArg (BitVec.extractLsb' 0 n) h
  · rintro ⟨rfl, rfl⟩
    rfl

/-- R76: the test `C & mask == match`, field by field. -/
theorem admits_iff_fields {r : OpRow} (hr : r ∈ opRows) {c : Word} :
    r.admits c = true ↔ opField c = r.op.code ∧ (argField c).toNat < 2 ^ operandBits r.op := by
  obtain ⟨hpattern, hmask⟩ := opRows_layout r hr
  have hand : c &&& r.mask
      = opField c ++ (argField c &&& (BitVec.allOnes 56 <<< operandBits r.op)) := by
    rw [hmask]
    conv_lhs => rw [← word_eq_fields c]
    exact BitVec.and_append.trans (congrArg (· ++ _) BitVec.and_allOnes)
  rw [OpRow.admits, beq_iff_eq, hand, hpattern, append_eq_append_iff, and_highBits_eq_zero_iff]

/-- R76: a row admits exactly the words of its operation's commands. -/
theorem admits_iff_decode {r : OpRow} (hr : r ∈ opRows) {c : Word} :
    r.admits c = true ↔ ∃ i, decode c = .ok i ∧ i.op = r.op :=
  (admits_iff_fields hr).trans exists_decode_op_iff.symm

theorem exists_decode_iff_admitted (c : Word) :
    (∃ i, decode c = .ok i) ↔ ∃ r ∈ opRows, r.admits c = true := by
  constructor
  · rintro ⟨i, hd⟩
    obtain ⟨r, hr, hop⟩ := exists_row i.op
    exact ⟨r, hr, (admits_iff_decode hr).2 ⟨i, hd, hop.symm⟩⟩
  · rintro ⟨r, hr, ha⟩
    obtain ⟨i, hd, -⟩ := (admits_iff_decode hr).1 ha
    exact ⟨i, hd⟩

/-- Settles O3: a row admits exactly the words that decode to a command of its operation. -/
theorem legalWordsMatchTheirRow : Obligations.LegalWordsMatchTheirRow := by
  intro c
  refine ⟨exists_decode_iff_admitted c, fun i r hd hr => ?_⟩
  rw [admits_iff_decode hr]
  constructor
  · rintro ⟨j, hj, hop⟩
    rw [hd] at hj
    cases hj
    exact hop.symm
  · exact fun hop => ⟨i, hd, hop.symm⟩

theorem exists_decode_error_iff_not_admitted (c : Word) :
    (∃ e, decode c = .error e) ↔ ∀ r ∈ opRows, r.admits c = false := by
  have hnot : (∃ e, decode c = .error e) ↔ ¬ ∃ i, decode c = .ok i := by
    cases decode c <;> simp
  rw [hnot, exists_decode_iff_admitted]
  simp only [not_exists, not_and, Bool.not_eq_true]

/-- Settles O11: a word no row admits decodes to an error, which a step answers with `REFUSED`. -/
theorem stepRefusesIllegalWord : Obligations.StepRefusesIllegalWord := by
  intro s c rest hi
  refine ⟨exists_decode_error_iff_not_admitted c, fun hr => ?_⟩
  obtain ⟨e, hd⟩ := (exists_decode_error_iff_not_admitted c).2 hr
  rw [step_illegal hi hd, State.respond, refused_word]

/-! ### Words as numbers -/

theorem toNat_zeros_append {m n : Nat} (a : BitVec n) : (0#m ++ a).toNat = a.toNat := by
  rw [toNat_append_eq, BitVec.toNat_ofNat, Nat.zero_mod, Nat.zero_mul, Nat.zero_add]

theorem toNat_zeros_append_append {k m n : Nat} (a : BitVec m) (b : BitVec n) :
    (0#k ++ a ++ b).toNat = a.toNat * 2 ^ n + b.toNat := by
  rw [toNat_append_eq, toNat_zeros_append]

theorem encode_toNat_of_arg {i : Instr} {n : Nat} (h : i.arg.toNat = n) :
    (encode i).toNat = i.op.code.toNat * 2 ^ 56 + n := by
  rw [encode_toNat, h]

theorem encode_toNat_of_args {i : Instr} {m n : Nat} (h : i.arg.toNat = m + n) :
    (encode i).toNat = i.op.code.toNat * 2 ^ 56 + m + n := by
  rw [encode_toNat, h, Nat.add_assoc]

/-- Settles O7: the operand field of each command is its operands as its format places them. -/
theorem operandsStandInTheirFields : Obligations.OperandsStandInTheirFields :=
  ⟨rfl, rfl, rfl, rfl,
    fun a => encode_toNat_of_arg (toNat_zeros_append a),
    fun a => encode_toNat_of_arg (toNat_zeros_append a), rfl,
    fun w r => encode_toNat_of_args (toNat_zeros_append_append r w), rfl, rfl, rfl, rfl,
    fun r => encode_toNat_of_arg (toNat_zeros_append r),
    fun r => encode_toNat_of_arg (toNat_zeros_append r), rfl,
    fun a => encode_toNat_of_arg (toNat_zeros_append a),
    fun a k => encode_toNat_of_args (toNat_zeros_append_append k a), rfl,
    fun b => encode_toNat_of_arg (toNat_zeros_append b), rfl, rfl,
    fun n => encode_toNat_of_arg (toNat_zeros_append n),
    fun a => encode_toNat_of_arg (toNat_zeros_append a), rfl, rfl⟩

/-- R73: the response word as a number. -/
theorem word_toNat (r : Response) :
    r.word.toNat = r.status.toNat * 2 ^ 62 + r.causeField.toNat * 2 ^ 56 + r.value.toNat := by
  rw [Response.word, toNat_append_eq, toNat_append_eq]
  omega

theorem causeCode_injective {c c' : Cause} (h : c.code = c'.code) : c = c' := by
  revert h
  cases c <;> cases c' <;> decide

/-- `zext_56(info)` loses no bit of `info`. -/
theorem setWidth_info_injective {k k' : Byte} (h : k.setWidth 56 = k'.setWidth 56) : k = k' := by
  simpa using congrArg (BitVec.setWidth 8) h

/-- R73, R74: a response is told by the three fields of its word. -/
theorem response_ext {r r' : Response} (hs : r.status = r'.status) (hc : r.causeField = r'.causeField)
    (hv : r.value = r'.value) : r = r' := by
  cases r with
  | ok v =>
    cases r' with
    | ok v' => exact congrArg Response.ok hv
    | _ => cases hs
  | none =>
    cases r' with
    | none => rfl
    | _ => cases hs
  | err c k =>
    cases r' with
    | err c' k' => rw [causeCode_injective hc, setWidth_info_injective hv]
    | _ => cases hs
  | refused =>
    cases r' with
    | refused => rfl
    | _ => cases hs

theorem word_injective {r r' : Response} (h : r.word = r'.word) : r = r' := by
  refine response_ext ?_ ?_ ?_
  · simpa only [rspStatus_word] using congrArg rspStatus h
  · simpa only [rspCause_word] using congrArg rspCause h
  · simpa only [rspValue_word] using congrArg rspValue h

/-- Settles O8: each clause is the word's three fields as a number, and they tell the response. -/
theorem responseWordLayout : Obligations.ResponseWordLayout := by
  refine ⟨fun v => ?ok, rfl, fun c k => ?err, rfl, fun _ _ => word_injective⟩
  case ok => simp [word_toNat, Response.status, Response.causeField, Response.value]
  case err =>
    have hinfo : (k.setWidth 56).toNat = k.toNat := BitVec.toNat_setWidth_of_le (by decide)
    rw [word_toNat, Response.value, hinfo]
    rfl

end Sys2Proof.Proofs
end

section
/-! The commands of the frequency counter (40_frequency_counter.md), and the frames of a response, of a
write to one unit and of a fault, which the statements on single commands are made of. -/

namespace Sys2Proof.Proofs

open Sys2Proof.Machine Sys2Proof.Laws

/-! ### Frames -/

@[simp] theorem samePart_self (s : State) (p : Part) : samePart s s p := by
  cases p <;> simp [samePart]

/-- The responses the host has taken are in no unit's share of the state. -/
@[simp] theorem samePart_respond {s t : State} {r : Response} {p : Part} :
    samePart s (t.respond r) p ↔ samePart s t p := by
  cases p <;> rfl

@[simp] theorem onlyParts_self (ps : List Part) (s : State) : OnlyParts ps s s :=
  ⟨fun p _ => samePart_self s p, rfl, rfl⟩

@[simp] theorem onlyParts_respond {ps : List Part} {s t : State} {r : Response} :
    OnlyParts ps s (t.respond r) ↔ OnlyParts ps s t := by
  simp [OnlyParts]

theorem onlyParts_freq (s : State) (f : FreqTable) : OnlyParts [.fc] s { s with freq := f } := by
  refine ⟨fun p hp => ?_, rfl, rfl⟩
  cases p with
  | fc => exact absurd (List.mem_singleton_self _) hp
  | _ => simp [samePart]

theorem onlyParts_setFreq (s : State) (a : Byte) (n : Count) : OnlyParts [.fc] s (s.setFreq a n) :=
  onlyParts_freq s _

/-- R205: fault entry writes `FAULTED`, `CAUSE`, `INFO` and no other element. -/
theorem onlyParts_raise (s : State) (c : Cause) (k : Byte) : OnlyParts [.sys] s (s.raise c k) := by
  refine ⟨fun p hp => ?_, rfl, rfl⟩
  cases p with
  | sys => exact absurd (List.mem_singleton_self _) hp
  | _ => simp [samePart]

/-! ### Answers -/

/-- A command whose writes leave the response port alone and that then responds answers that response. -/
theorem answers_of_exec {i : Instr} {s t : State} {r : Response} (h : exec i s = .next (t.respond r))
    (hr : t.rsps = s.rsps) : Answers i s r (t.respond r) :=
  ⟨h, by rw [respond_rsps, hr]⟩

/-- A command that ends in fault entry takes the fault. -/
theorem takesFault_of_exec {i : Instr} {s : State} {c : Cause} {k : Byte}
    (h : exec i s = .next (s.raise c k)) : TakesFault i s c k (s.raise c k) :=
  ⟨⟨h, raise_rsps s c k⟩, onlyParts_raise s c k, raise_latched s c k⟩

/-! ### The frequency counter -/

/-- The greatest count, as the word FC.PUT tests for and as a number. -/
theorem eq_maxCount_iff {n : Count} : n = 0xFFFFFFFF ↔ n.toNat = 2 ^ 32 - 1 :=
  BitVec.toNat_inj.symm

/-- Below the greatest count, adding one does not wrap. -/
theorem toNat_add_one {n : Count} (h : n.toNat ≠ 2 ^ 32 - 1) : (n + 1).toNat = n.toNat + 1 := by
  have hlt : n.toNat < 2 ^ 32 := n.isLt
  exact BitVec.toNat_add_of_lt (y := 1#32) (by rw [BitVec.toNat_ofNat]; omega)

/-- Settles O21: the two paths of FC.PUT, told apart by its test for the greatest count. -/
theorem fcPutAddsOne : Obligations.FcPutAddsOne := by
  intro a s hf
  constructor
  · intro hne
    have hexec := exec_of_effect (.fcPut hf (mt eq_maxCount_iff.1 hne))
    refine ⟨_, answers_of_exec hexec (setFreq_rsps s a _),
      onlyParts_respond.2 (onlyParts_setFreq s a _), ?_, fun b hb => ?_⟩
    · rw [respond_freqAt, setFreq_freqAt, if_pos rfl, toNat_add_one hne]
    · rw [respond_freqAt, setFreq_freqAt, if_neg hb]
  · intro hmax
    exact ⟨_, takesFault_of_exec (exec_of_effect (.fcOverflow hf (eq_maxCount_iff.2 hmax)))⟩

/-- Settles O22: FC.CLR replaces the table by the clear one and writes nothing else. -/
theorem fcClrClearsEveryCount : Obligations.FcClrClearsEveryCount := fun s hf =>
  ⟨_, answers_of_exec (exec_fcClr hf) rfl, onlyParts_respond.2 (onlyParts_freq s _),
    freqAt_replicate s⟩

/-- Settles O23: the answer is the count, which 56 bits hold. -/
theorem fcGetReadsTheCount : Obligations.FcGetReadsTheCount := fun a s hf =>
  ⟨_, _, answers_of_exec (exec_fcGet hf a) rfl, onlyParts_respond.2 (onlyParts_self [] s),
    BitVec.toNat_setWidth_of_le (by decide)⟩

end Sys2Proof.Proofs
end

section
/-! The commands of the selector (41_priority_queue.md). -/

namespace Sys2Proof.Proofs

open Sys2Proof.Machine Sys2Proof.Laws

theorem onlyParts_pq (s : State) (q : List Entry) : OnlyParts [.pq] s { s with pq := q } := by
  refine ⟨fun p hp => ?_, rfl, rfl⟩
  cases p with
  | pq => exact absurd (List.mem_singleton_self _) hp
  | _ => simp [samePart]

/-- R113: at 256 entries or fewer, the 9-bit `pq_len` is the number of entries. -/
theorem pqLen_toNat {s : State} (h : s.pq.length ≤ 256) : s.pqLen.toNat = s.pq.length :=
  (BitVec.toNat_ofNat _ _).trans (Nat.mod_eq_of_lt (Nat.lt_of_le_of_lt h (by decide)))

/-- Settles O26: PQ.CLR writes the empty arrangement and nothing else; PQ.LEN writes nothing, and its answer
widens `pq_len`, which holds the length without loss. -/
theorem pqClrAndLen : Obligations.PqClrAndLen := by
  intro s hf
  refine ⟨?clr, fun hlen => ?len⟩
  case clr =>
    exact ⟨_, answers_of_exec (exec_pqClr hf) rfl, onlyParts_respond.2 (onlyParts_pq s []), rfl⟩
  case len =>
    have hvalue : (s.pqLen.setWidth 56).toNat = s.pq.length := by
      rw [BitVec.toNat_setWidth_of_le (by decide), pqLen_toNat hlen]
    exact ⟨_, _, answers_of_exec (exec_pqLen hf) rfl, onlyParts_respond.2 (onlyParts_self [] s), hvalue⟩

end Sys2Proof.Proofs
end

section
/-! The tree that TB.BUILD leaves and the commands that read it out (42_tree_builder.md). The leaves stand
first in the arena and are the present symbols in order, so a fact about the leaves is one about that list. -/

namespace Sys2Proof.Proofs

open Sys2Proof.Machine Sys2Proof.Laws

/-! ### The leaves of a built tree -/

/-- Where the arena has a complete tree, its leaves are its first `n` records (R29). -/
theorem lt_of_leaf {node : List Node} {root : Ref} {n k : Nat} {w : Weight} {a : Byte}
    (hok : ArenaOk node root n) (hk : node[k]? = some (.leaf w a)) : k < n := by
  by_contra hge
  have hlt : k < 2 * n - 1 := hok.count ▸ lt_length_of_getElem? hk
  obtain ⟨w', l, r, hinternal, -, -⟩ := hok.internals k (Nat.le_of_not_lt hge) hlt
  rw [hk] at hinternal
  cases hinternal

theorem getElem?_leavesFor {freq : Byte → Count} {k : Nat} {w : Weight} {a : Byte} :
    (leavesFor freq)[k]? = some (.leaf w a)
      ↔ (presentSymbols freq)[k]? = some a ∧ w = (freq a).setWidth 40 := by
  rw [leavesFor, List.getElem?_map, Option.map_eq_some_iff]
  constructor
  · rintro ⟨b, hb, heq⟩
    cases heq
    exact ⟨hb, rfl⟩
  · rintro ⟨ha, rfl⟩
    exact ⟨a, ha, rfl⟩

/-- After a TB.BUILD that takes no fault, leaf `k` is the `k`-th present symbol and weighs its count. -/
theorem leaf_iff_of_tbBuild {s t : State} (hf : s.faulted = false) (h : exec .tbBuild s = .next t)
    (ht : t.faulted = false) {k : Nat} {w : Weight} {a : Byte} :
    t.node[k]? = some (.leaf w a)
      ↔ (presentSymbols s.freqAt)[k]? = some a ∧ w = (s.freqAt a).setWidth 40 := by
  obtain ⟨-, -, hok, htake, -, -⟩ := exec_tbBuild_spec hf h ht
  have hleaves : ∀ {j}, j < (presentSymbols s.freqAt).length →
      t.node[j]? = (leavesFor s.freqAt)[j]? := fun hj => by
    rw [← htake, List.getElem?_take_of_lt hj]
  rw [← getElem?_leavesFor]
  constructor
  · intro hk
    rw [← hleaves (lt_of_leaf hok hk), hk]
  · intro hk
    have hlt := lt_length_of_getElem? hk
    rw [leavesFor_length] at hlt
    rw [hleaves hlt, hk]

theorem exists_getElem?_presentSymbols_iff {s : State} {a : Byte} :
    (∃ k : Nat, (presentSymbols s.freqAt)[k]? = some a) ↔ s.freqAt a ≠ 0 := by
  rw [← List.mem_iff_getElem?, mem_presentSymbols, count_pos_iff]

theorem nodup_presentSymbols (freq : Byte → Count) : (presentSymbols freq).Nodup :=
  nodup_allSymbols.filter _

/-- Settles O31: each clause is one about the list of present symbols, which has no repetition. -/
theorem leavesAreThePresentSymbols : Obligations.LeavesAreThePresentSymbols := by
  intro s t hf h ht
  refine ⟨fun a => ?present, fun j k w w' a hj hk => ?once, fun k w a hk => ?weight⟩
  case present =>
    rw [← exists_getElem?_presentSymbols_iff]
    constructor
    · rintro ⟨k, w, hk⟩
      exact ⟨k, ((leaf_iff_of_tbBuild hf h ht).1 hk).1⟩
    · rintro ⟨k, hk⟩
      exact ⟨k, _, (leaf_iff_of_tbBuild hf h ht).2 ⟨hk, rfl⟩⟩
  case once =>
    obtain ⟨hj, -⟩ := (leaf_iff_of_tbBuild hf h ht).1 hj
    obtain ⟨hk, -⟩ := (leaf_iff_of_tbBuild hf h ht).1 hk
    obtain ⟨hlt, -⟩ := List.getElem?_eq_some_iff.1 hj
    exact (List.getElem?_inj hlt (nodup_presentSymbols s.freqAt)).1 (hj.trans hk.symm)
  case weight =>
    obtain ⟨-, rfl⟩ := (leaf_iff_of_tbBuild hf h ht).1 hk
    exact BitVec.toNat_setWidth_of_le (by decide)

/-! ### The weight of the root -/

/-- R126, its first part. -/
theorem rootWeight_of_tbBuild {s t : State} (hf : s.faulted = false) (h : exec .tbBuild s = .next t)
    (ht : t.faulted = false) :
    ∃ x, t.nodeAt t.tbRoot = some x ∧ x.weight.toNat = totalCount s.freqAt := by
  obtain ⟨-, -, hok, -, ⟨x, hx, hweight⟩, -⟩ := exec_tbBuild_spec hf h ht
  refine ⟨x, ?_, hweight⟩
  rw [State.nodeAt, nodeOf, hok.root_last, hx]

/-- A run that ends without a fault and holds no SYS.RESET began without one. -/
theorem unfaulted_before {is : List Instr} {s t : State} {rs : List Response} (h : Run is s rs t)
    (ht : t.faulted = false) (hr : Instr.sysReset ∉ is) : s.faulted = false := by
  by_contra hs
  have := h.faulted_stays (by simpa using hs) hr
  rw [ht] at this
  cases this

/-- R101, R102: a clear and then FC.PUT commands without a fault leave each symbol's occurrences. -/
theorem counts_of_fcClr_fcPuts {text : List Byte} {s u : State} {rs : List Response}
    (h : Run (.fcClr :: fcPuts text) s rs u) (hf : s.faulted = false) (hu : u.faulted = false) (a : Byte) :
    (u.freqAt a).toNat = text.count a := by
  cases h with
  | cons hclr _ hputs =>
    cases hclr with
    | faulted hs => rw [hf] at hs; cases hs
    | fcClr _ =>
      have hcount := fcPuts_counts hputs hf hu a
      rw [respond_freqAt, freqAt_replicate] at hcount
      simpa using hcount

/-- Counts that are the occurrences in a text add up to its length. -/
theorem totalCount_of_occurrences {freq : Byte → Count} {text : List Byte}
    (h : ∀ a, (freq a).toNat = text.count a) : totalCount freq = text.length := by
  rw [length_eq_sum_count, totalCount]
  simp only [h]

/-- Settles O30: the root holds all the weight the seeding put into the selector; after a clear and the
bytes of a text that is the number of bytes. -/
theorem rootWeightIsTheTotalCount : Obligations.RootWeightIsTheTotalCount := by
  refine ⟨fun _ _ => rootWeight_of_tbBuild, fun text s t hf h ht => ?_⟩
  obtain ⟨rs, hrun⟩ := run_of_execAll h
  obtain ⟨u, _, _, -, hputs, hbuild⟩ := Run.split (is := .fcClr :: fcPuts text) (js := [.tbBuild]) hrun
  have hu : u.faulted = false := unfaulted_before hbuild ht (by simp)
  rw [← totalCount_of_occurrences (counts_of_fcClr_fcPuts hputs hf hu)]
  cases hbuild with
  | cons heffect _ hnil =>
    cases hnil
    exact rootWeight_of_tbBuild hu (exec_of_effect heffect) ht

/-! ### The read-outs -/

/-- A command whose effect is its response answers it and writes nothing. -/
theorem readsOut_of_effect {i : Instr} {s : State} {r : Response} (h : Effect i s (s.respond r)) :
    Answers i s r (s.respond r) ∧ OnlyParts [] s (s.respond r) :=
  ⟨answers_of_exec (exec_of_effect h) rfl, onlyParts_respond.2 (onlyParts_self [] s)⟩

/-- R123, R124: there is nothing to read without a tree, or at a reference of `node_count` or above. -/
theorem treeNode_eq_none_iff {s : State} {r : Ref} :
    s.treeNode r = none ↔ s.tbValid = false ∨ s.node.length ≤ r.toNat := by
  cases hv : s.tbValid <;> simp [State.treeNode, State.nodeAt, nodeOf, hv]

theorem treeNode_of_tbValid {s : State} (hv : s.tbValid = true) (r : Ref) :
    s.treeNode r = s.node[r.toNat]? := if_pos hv

/-- R75: `tb_root` in the low bits, `node_count` from bit 16. -/
theorem rootValue_toNat (count : BitVec 10) (root : Ref) :
    (rootValue count root).toNat = count.toNat * 2 ^ 16 + root.toNat := by
  rw [rootValue, BitVec.toNat_setWidth_of_le (by decide), toNat_append_eq, toNat_append_eq]
  simp only [BitVec.toNat_ofNat]
  omega

/-- R30: `node_count` is the number of records, which its 10 bits hold. -/
theorem nodeCount_toNat {s : State} (h : s.node.length ≤ 511) : s.nodeCount.toNat = s.node.length :=
  (BitVec.toNat_ofNat _ _).trans (Nat.mod_eq_of_lt (Nat.lt_of_le_of_lt h (by decide)))

theorem linkValue_leaf_toNat (w : Weight) (a : Byte) : (Node.leaf w a).linkValue.toNat = a.toNat :=
  BitVec.toNat_setWidth_of_le (by decide)

/-- R75: bit 18 tells an internal record; the right child stands above the left one. -/
theorem linkValue_internal_toNat (w : Weight) (l r : Ref) :
    (Node.internal w l r).linkValue.toNat = 2 ^ 18 + r.toNat * 2 ^ 9 + l.toNat := by
  rw [Node.linkValue, BitVec.toNat_setWidth_of_le (by decide), toNat_append_eq, toNat_append_eq]
  simp only [BitVec.toNat_ofNat]
  omega

/-- Settles O35: each command reads the record of R122 to R124 and answers one of R75's layouts. -/
theorem treeReadOuts : Obligations.TreeReadOuts := by
  intro s hf hlen
  refine ⟨fun hv => ⟨_, readsOut_of_effect (.noRoot hf hv)⟩, fun hv => ?root,
    fun r => ⟨fun habsent => ?absent, fun x hv hx => ?inUse⟩⟩
  case root =>
    obtain ⟨hanswer, honly⟩ := readsOut_of_effect (.tbRoot hf hv)
    exact ⟨_, _, hanswer, honly, by rw [rootValue_toNat, nodeCount_toNat hlen]⟩
  case absent =>
    have hnone := treeNode_eq_none_iff.2 habsent
    exact ⟨⟨_, readsOut_of_effect (.noWeight hf hnone)⟩, ⟨_, readsOut_of_effect (.noLink hf hnone)⟩⟩
  case inUse =>
    have hsome : s.treeNode r = some x := (treeNode_of_tbValid hv r).trans hx
    constructor
    · obtain ⟨hanswer, honly⟩ := readsOut_of_effect (.tbWeight hf hsome)
      exact ⟨_, _, hanswer, honly, BitVec.toNat_setWidth_of_le (by decide)⟩
    · obtain ⟨hanswer, honly⟩ := readsOut_of_effect (.tbLink hf hsome)
      refine ⟨_, _, hanswer, honly, ?_, ?_⟩
      · rintro w a rfl
        exact linkValue_leaf_toNat w a
      · rintro w l rr rfl
        exact linkValue_internal_toNat w l rr

end Sys2Proof.Proofs
end

section
/-! The table that CA.ASSIGN leaves and the commands that read it out (43_code_assigner.md). A code is the path
to a leaf, so a fact about the codes is one about the paths of a complete tree; only the single leaf, whose path
is empty, stands apart (R132). -/

namespace Sys2Proof.Proofs

open Sys2Proof.Machine Sys2Proof.Laws

/-! ### The table -/

/-- R133: where there is a tree, the table left is the one of `assignCodes`. -/
theorem assignCodes_of_exec_caAssign {s t : State} (hf : s.faulted = false) (hv : s.tbValid = true)
    (h : exec .caAssign s = .next t) : assignCodes s.node s.tbRoot = some t.code := by
  cases exec_effect h with
  | faulted hfault => rw [hf] at hfault; cases hfault
  | noTree _ hnone => rw [hv] at hnone; cases hnone
  | caAssign _ _ ht => exact ht

/-- Settles O39: codes are paths to leaves, and a path that ends at a leaf goes no further. -/
theorem codesArePrefixFree : Obligations.CodesArePrefixFree := fun _ _ _ hf hv _ h =>
  (prefixTable_assign (assignCodes_of_exec_caAssign hf hv h)).pre

/-- A tree of one leaf is that leaf. -/
theorem root_leaf_of_one {node : List Node} {root : Ref} (hok : ArenaOk node root 1) :
    ∃ w b, nodeOf node root = some (.leaf w b) := by
  obtain ⟨w, b, hleaf, -⟩ := hok.leaves 0 Nat.zero_lt_one
  exact ⟨w, b, by rw [nodeOf, hok.root_last, hleaf]⟩

/-- The root of a tree of two or more leaves is internal. -/
theorem root_internal_of_two_le {node : List Node} {root : Ref} {n : Nat} (hok : ArenaOk node root n)
    (hn : 2 ≤ n) : ∃ w l r, nodeOf node root = some (.internal w l r) := by
  obtain ⟨w, l, r, hinternal, -, -⟩ := hok.internals (2 * n - 2) (by omega) (by omega)
  exact ⟨w, l, r, by rw [nodeOf, hok.root_last, hinternal]⟩

/-- R132: the table of a single leaf holds the one-bit code `0` and nothing else. -/
theorem codeOf_assigned_leaf {node : List Node} {root : Ref} {t : CodeTable} {w : Weight} {b : Byte}
    (ht : assignCodes node root = some t) (hroot : nodeOf node root = some (.leaf w b)) (a : Byte) :
    codeOf t a = if a = b then some [false] else none := by
  rw [assignCodes_leaf hroot] at ht
  cases ht
  rw [codeOf_setCode, codeOf_noCodes]

/-- R131: the table of a larger tree holds for each symbol the path to its leaf, there being only one. -/
theorem codeOf_assigned_iff {node : List Node} {root : Ref} {n : Nat} {t : CodeTable}
    (hok : ArenaOk node root n) (hn : 2 ≤ n) (ht : assignCodes node root = some t) (a : Byte) (c : Code) :
    codeOf t a = some c ↔ LeadsTo node root c a := by
  obtain ⟨w, l, r, hroot⟩ := root_internal_of_two_le hok hn
  rcases assignCodes_spec ht with ⟨w', b, hleaf, -⟩ | ⟨-, hpath⟩
  · rw [hroot] at hleaf
    cases hleaf
  · rcases hpath a with ⟨q, hq, hcode, -, -⟩ | ⟨hno, hcode⟩ <;> rw [hcode]
    · constructor
      · rintro ⟨⟩
        exact hq
      · exact fun hc => congrArg some (leadsTo_unique hok hq hc)
    · exact ⟨nofun, fun hc => absurd hc (hno c)⟩

/-- Settles O37: the root of a complete tree is a leaf or an internal record as the number of leaves says, and
CA.ASSIGN treats the two apart. -/
theorem codesArePaths : Obligations.CodesArePaths := by
  intro s t n hf hv hok h
  have ht := assignCodes_of_exec_caAssign hf hv h
  constructor
  · rintro rfl
    obtain ⟨w, b, hroot⟩ := root_leaf_of_one hok
    exact ⟨w, b, hroot, codeOf_assigned_leaf ht hroot⟩
  · exact fun hn => codeOf_assigned_iff hok hn ht

/-! ### The symbols with a code -/

/-- A symbol has a code exactly when some path leads to it; for the single leaf that is the empty path. -/
theorem exists_code_iff_leadsTo {node : List Node} {root : Ref} {t : CodeTable}
    (ht : assignCodes node root = some t) (a : Byte) :
    (∃ c, codeOf t a = some c) ↔ ∃ c, LeadsTo node root c a := by
  rcases assignCodes_spec ht with ⟨w, b, hroot, hcode⟩ | ⟨-, hpath⟩
  · rw [hcode a]
    constructor
    · rintro ⟨c, hc⟩
      obtain ⟨rfl, -⟩ := Option.ite_none_right_eq_some.1 hc
      exact ⟨[], w, hroot⟩
    · rintro ⟨c, w', hc⟩
      cases c with
      | nil =>
        rw [follow_nil, hroot] at hc
        cases hc
        exact ⟨[false], if_pos rfl⟩
      | cons x c =>
        rw [follow_leaf x c hroot] at hc
        cases hc
  · rcases hpath a with ⟨q, hq, hcode, -, -⟩ | ⟨hno, hcode⟩
    · exact ⟨fun _ => ⟨q, hq⟩, fun _ => ⟨q, hcode⟩⟩
    · rw [hcode]
      exact ⟨nofun, fun ⟨c, hc⟩ => absurd hc (hno c)⟩

/-- In a complete tree the paths from the root lead to all the leaves and to no other record. -/
theorem exists_leadsTo_iff_leaf {node : List Node} {root : Ref} {n : Nat} (hok : ArenaOk node root n)
    (a : Byte) : (∃ c, LeadsTo node root c a) ↔ ∃ (k : Nat) (w : Weight), node[k]? = some (.leaf w a) := by
  constructor
  · rintro ⟨c, w, hc⟩
    rw [follow_eq_endRef] at hc
    obtain ⟨j, -, hj⟩ := Option.bind_eq_some_iff.1 hc
    exact ⟨j.toNat, w, hj⟩
  · rintro ⟨k, w, hk⟩
    exact leadsTo_exists hok hk

/-- Settles O38: the symbols with a code are those on the leaves, and those are the counted ones. -/
theorem codesCoverThePresentSymbols : Obligations.CodesCoverThePresentSymbols := by
  intro s t u hf hbuild ht hassign a
  obtain ⟨-, heq, hok, -⟩ := exec_tbBuild_spec hf hbuild ht
  have hv : t.tbValid = true := congrArg State.tbValid heq
  have hcode := exists_code_iff_leadsTo (assignCodes_of_exec_caAssign ht hv hassign) a
  have hleaf := hcode.trans (exists_leadsTo_iff_leaf hok a)
  obtain ⟨hpresent, -⟩ := leavesAreThePresentSymbols s t hf hbuild ht
  exact ⟨hleaf, hleaf.trans (hpresent a)⟩

/-! ### The read-outs -/

/-- R75: the 8 bits of CA.LEN's answer hold the length of a code of at most 255 bits. -/
theorem lenValue_toNat {c : Code} (h : c.length ≤ 255) : c.lenValue.toNat = c.length := by
  rw [Code.lenValue, BitVec.toNat_setWidth_of_le (by decide), BitVec.toNat_ofNat]
  exact Nat.mod_eq_of_lt (Nat.lt_succ_of_le h)

theorem bitValue_toNat (b : Bool) : (bitValue b).toNat = b.toNat := by
  rw [bitValue, BitVec.toNat_setWidth_of_le (by decide), BitVec.toNat_ofBool]

/-- Settles O41: each command reads the entry of R134 and R135 and answers one of R75's layouts. -/
theorem codeReadOuts : Obligations.CodeReadOuts := by
  intro a s hf
  refine ⟨fun habsent => ⟨⟨_, readsOut_of_effect (.noLen hf habsent)⟩, fun k => ?absentBit⟩,
    fun bits hc hlen => ⟨?len, fun k => ⟨fun hpast => ?pastEnd, fun b hb => ?bit⟩⟩⟩
  case absentBit =>
    exact ⟨_, readsOut_of_effect (.noBit hf (by rw [habsent, Option.bind_none]))⟩
  case len =>
    obtain ⟨hanswer, honly⟩ := readsOut_of_effect (.caLen hf hc)
    exact ⟨_, _, hanswer, honly, lenValue_toNat hlen⟩
  case pastEnd =>
    have hnone : ((s.codeAt a).bind fun bits => bits[k.toNat]?) = none := by
      rw [hc, Option.bind_some, List.getElem?_eq_none hpast]
    exact ⟨_, readsOut_of_effect (.noBit hf hnone)⟩
  case bit =>
    have hsome : ((s.codeAt a).bind fun bits => bits[k.toNat]?) = some b := by
      rw [hc, Option.bind_some, hb]
    obtain ⟨hanswer, honly⟩ := readsOut_of_effect (.caBit hf hsome)
    exact ⟨_, _, hanswer, honly, bitValue_toNat b⟩

end Sys2Proof.Proofs
end

section
/-! The commands of the bit packer (44_bit_packer.md). The bits held are right-justified under `bp_n` (R33), so
shifting one in and justifying them to the left are arithmetic that the accumulator's 8 bits hold. -/

namespace Sys2Proof.Proofs

open Sys2Proof.Machine Sys2Proof.Laws

theorem onlyParts_bp (s : State) (acc : Byte) (n : BitVec 3) (total : BitCount) (final : Bool) :
    OnlyParts [.bp] s { s with bpAcc := acc, bpN := n, bpTotal := total, bpFinal := final } := by
  refine ⟨fun p hp => ?_, rfl, rfl⟩
  cases p with
  | bp => exact absurd (List.mem_singleton_self _) hp
  | _ => simp [samePart]

/-! ### The packer's arithmetic -/

/-- The greatest bit count, as the word BP.PUT tests for and as a number. -/
theorem eq_maxBitCount_iff {n : BitCount} : n = 0xFFFFFFFFFFFF ↔ n.toNat = 2 ^ 48 - 1 :=
  BitVec.toNat_inj.symm

/-- Below the greatest bit count, counting one more bit does not wrap. -/
theorem bitCount_toNat_add_one {n : BitCount} (h : n.toNat ≠ 2 ^ 48 - 1) :
    (n + 1).toNat = n.toNat + 1 := by
  have hlt : n.toNat < 2 ^ 48 := n.isLt
  exact BitVec.toNat_add_of_lt (y := 1#48) (by rw [BitVec.toNat_ofNat]; omega)

/-- With fewer than seven bits held, holding one more does not wrap. -/
theorem bpN_toNat_add_one {n : BitVec 3} (h : n ≠ 7) : (n + 1).toNat = n.toNat + 1 := by
  have hlt : n.toNat < 8 := n.isLt
  have hne : n.toNat ≠ 7 := mt (BitVec.toNat_inj (y := 7#3)).1 h
  exact BitVec.toNat_add_of_lt (y := 1#3) (by rw [BitVec.toNat_ofNat]; omega)

/-- R142: at most seven bits are held, so no bit is shifted out. -/
theorem packBit_toNat_of_lt {acc : Byte} {n : BitVec 3} (h : acc.toNat < 2 ^ n.toNat) (b : BitVec 1) :
    (packBit acc b).toNat = 2 * acc.toNat + b.toNat := by
  have hpow : 2 ^ n.toNat ≤ 2 ^ 7 := Nat.pow_le_pow_right (by decide) (Nat.le_of_lt_succ n.isLt)
  have hbit : b.toNat < 2 := b.isLt
  rw [packBit_toNat, Nat.mod_eq_of_lt (by omega)]

/-- R143: the bits held and the zeros below them are eight, so no bit is shifted out. -/
theorem padByte_toNat_of_lt {acc : Byte} {n : BitVec 3} (h : acc.toNat < 2 ^ n.toNat) :
    (padByte acc n).toNat = acc.toNat * 2 ^ (8 - n.toNat) := by
  have hlt : acc.toNat * 2 ^ (8 - n.toNat) < 256 := by
    calc acc.toNat * 2 ^ (8 - n.toNat)
        < 2 ^ n.toNat * 2 ^ (8 - n.toNat) := Nat.mul_lt_mul_of_pos_right h (Nat.two_pow_pos _)
      _ = 2 ^ 8 := by rw [← Nat.pow_add, Nat.add_sub_cancel' (Nat.le_of_lt n.isLt)]
  rw [padByte_toNat, Nat.mod_eq_of_lt hlt]

/-! ### The commands -/

/-- Settles O42: the four paths of BP.PUT, told apart by the finalised state, the greatest bit count and the
eighth bit. -/
theorem bpPutShiftsTheBitIn : Obligations.BpPutShiftsTheBitIn := by
  intro b s hf
  refine ⟨fun hfinal => ⟨_, readsOut_of_effect (.putFinal hf hfinal)⟩,
    fun hopen hmax => ?overflow, fun hopen hne hacc => ?shift⟩
  case overflow =>
    exact ⟨_, takesFault_of_exec (exec_of_effect (.bpOverflow hf hopen (eq_maxBitCount_iff.2 hmax)))⟩
  case shift =>
    have htotal := mt eq_maxBitCount_iff.1 hne
    have hcount := bitCount_toNat_add_one hne
    have hpack := packBit_toNat_of_lt hacc b
    by_cases hn : s.bpN = 7
    · have hexec := exec_of_effect (.bpEmit (b := b) hf hopen htotal hn)
      have hvalue : ((packBit s.bpAcc b).setWidth 56).toNat = 2 * s.bpAcc.toNat + b.toNat := by
        rw [BitVec.toNat_setWidth_of_le (by decide), hpack]
      exact ⟨_, _, answers_of_exec hexec rfl, onlyParts_respond.2 (onlyParts_bp s _ _ _ _), hcount, hopen,
        fun _ => ⟨rfl, rfl, _, rfl, hvalue⟩, fun hlt => absurd hn hlt⟩
    · have hexec := exec_of_effect (.bpHold (b := b) hf hopen htotal hn)
      exact ⟨_, _, answers_of_exec hexec rfl, onlyParts_respond.2 (onlyParts_bp s _ _ _ _), hcount, hopen,
        fun heq => absurd heq hn, fun _ => ⟨rfl, bpN_toNat_add_one hn, hpack⟩⟩

/-- Settles O43: the three paths of BP.FLUSH, told apart by the finalised state and the bits pending. -/
theorem bpFlushPadsWithZeros : Obligations.BpFlushPadsWithZeros := by
  intro s hf
  refine ⟨fun hfinal => ⟨_, readsOut_of_effect (.flushFinal hf hfinal)⟩, fun hopen hacc => ?_⟩
  by_cases hn : s.bpN = 0
  · have hexec := exec_of_effect (.flushEmpty hf hopen hn)
    exact ⟨_, _, answers_of_exec hexec rfl, onlyParts_respond.2 (onlyParts_bp s _ _ _ _), rfl, rfl,
      fun _ => ⟨rfl, rfl, hn⟩, fun hne => absurd hn hne⟩
  · have hexec := exec_of_effect (.flushEmit hf hopen hn)
    have hvalue : ((padByte s.bpAcc s.bpN).setWidth 56).toNat = s.bpAcc.toNat * 2 ^ (8 - s.bpN.toNat) := by
      rw [BitVec.toNat_setWidth_of_le (by decide), padByte_toNat_of_lt hacc]
    exact ⟨_, _, answers_of_exec hexec rfl, onlyParts_respond.2 (onlyParts_bp s _ _ _ _), rfl, rfl,
      fun heq => absurd heq hn, fun _ => ⟨rfl, rfl, _, rfl, hvalue⟩⟩

/-- Settles O44: BP.CLR writes its four zeros and nothing else; BP.COUNT writes nothing, and 56 bits hold its
answer. -/
theorem bpClrAndCount : Obligations.BpClrAndCount := by
  intro s hf
  refine ⟨?clr, ?count⟩
  case clr =>
    exact ⟨_, answers_of_exec (exec_bpClr hf) rfl, onlyParts_respond.2 (onlyParts_bp s 0 0 0 false),
      rfl, rfl, rfl, rfl⟩
  case count =>
    obtain ⟨hanswer, honly⟩ := readsOut_of_effect (.bpCount hf)
    exact ⟨_, _, hanswer, honly, BitVec.toNat_setWidth_of_le (by decide)⟩

end Sys2Proof.Proofs
end

section
/-! The commands of the bit unpacker (45_bit_unpacker.md). BU.NEXT returns the top bit of a byte, the one held or
the one fetched, and shifts it out: a quotient and a remainder by powers of two. -/

namespace Sys2Proof.Proofs

open Sys2Proof.Machine Sys2Proof.Laws

theorem onlyParts_bu (s : State) (fifo : List Byte) (cur : Byte) (left : BitVec 4) (rem : BitCount) :
    OnlyParts [.bu] s { s with buFifo := fifo, buCur := cur, buLeft := left, buRem := rem } := by
  refine ⟨fun p hp => ?_, rfl, rfl⟩
  cases p with
  | bu => exact absurd (List.mem_singleton_self _) hp
  | _ => simp [samePart]

/-! ### The unpacker's arithmetic -/

/-- R153: the value answered is the top bit of the byte. -/
theorem bitValue_msb_toNat (b : Byte) : (bitValue b.msb).toNat = b.toNat / 2 ^ 7 := by
  have hlt : b.toNat / 2 ^ 7 < 2 := Nat.div_lt_of_lt_mul b.isLt
  rw [bitValue_toNat, BitVec.msb_eq_getLsbD_last, BitVec.getLsbD, Nat.toNat_testBit, Nat.mod_eq_of_lt hlt]

/-- R153: shifting the top bit out doubles the rest of the byte. -/
theorem shiftLeft_one_toNat (b : Byte) : (b <<< 1).toNat = 2 * b.toNat % 2 ^ 8 := by
  rw [BitVec.toNat_shiftLeft, Nat.shiftLeft_eq, pow_one, Nat.mul_comm]

/-- A counter that is not 0 counts down without a wrap. -/
theorem toNat_sub_one_of_ne_zero {w : Nat} {n : BitVec w} (h : n ≠ 0#w) : (n - 1#w).toNat = n.toNat - 1 := by
  have hpos : 0 < n.toNat := Nat.pos_of_ne_zero (BitVec.toNat_ne_iff_ne.2 h)
  have hone : (1#w).toNat = 1 := 
    (BitVec.toNat_ofNat 1 w).trans (Nat.mod_eq_of_lt (Nat.lt_of_le_of_lt hpos n.isLt))
  rw [BitVec.toNat_sub_of_le (BitVec.le_def.2 (hone.trans_le hpos)), hone]

/-! ### The commands -/

/-- Settles O46: BU.FEED's two paths are told apart by the full FIFO; BU.REM writes nothing, and 56 bits hold its
answer. -/
theorem buStartFeedAndRem : Obligations.BuStartFeedAndRem := by
  intro s hf
  refine ⟨fun n => ?start, fun b => ⟨fun hroom => ?feed, fun hfull => ?full⟩, ?rem⟩
  case start =>
    exact ⟨_, answers_of_exec (exec_buStart hf n) rfl, onlyParts_respond.2 (onlyParts_bu s [] 0 0 n),
      rfl, rfl, rfl, rfl⟩
  case feed =>
    exact ⟨_, answers_of_exec (exec_of_effect (.buFeed hf hroom)) rfl,
      onlyParts_respond.2 (onlyParts_bu s _ _ _ _), rfl, rfl, rfl, rfl⟩
  case full =>
    exact ⟨_, readsOut_of_effect (.fifoFull hf hfull)⟩
  case rem =>
    obtain ⟨hanswer, honly⟩ := readsOut_of_effect (.buRem hf)
    exact ⟨_, _, hanswer, honly, BitVec.toNat_setWidth_of_le (by decide)⟩

/-- Settles O47: the four paths of BU.NEXT, told apart by the countdown, the bits left of the current byte and
the FIFO; the two that return a bit differ only in where the byte comes from. -/
theorem buNextReturnsTheNextBit : Obligations.BuNextReturnsTheNextBit := by
  intro s hf
  refine ⟨fun hzero => ⟨_, readsOut_of_effect (.nextDone hf hzero)⟩, fun hrem hleft hnil => ?corrupt,
    fun hrem hleft => ?held, fun b rest hrem hleft hfifo => ?fetched⟩
  case corrupt =>
    exact ⟨_, takesFault_of_exec (exec_of_effect (.corrupt hf hrem hleft hnil))⟩
  case held =>
    exact ⟨_, _, answers_of_exec (exec_of_effect (.nextHeld hf hrem hleft)) rfl,
      onlyParts_respond.2 (onlyParts_bu s _ _ _ _), bitValue_msb_toNat s.buCur, shiftLeft_one_toNat s.buCur,
      toNat_sub_one_of_ne_zero hleft, toNat_sub_one_of_ne_zero hrem, rfl⟩
  case fetched =>
    exact ⟨_, _, answers_of_exec (exec_of_effect (.nextFetch hf hrem hleft hfifo)) rfl,
      onlyParts_respond.2 (onlyParts_bu s _ _ _ _), bitValue_msb_toNat b, shiftLeft_one_toNat b,
      rfl, toNat_sub_one_of_ne_zero hrem, rfl⟩

end Sys2Proof.Proofs
end

section
/-! The system commands (46_system.md): SYS.NOP and SYS.STATUS write nothing, and STATUS as a number is its
fields at the bit positions of R40; SYS.RESET is a block reset followed by its response. -/

namespace Sys2Proof.Proofs

open Sys2Proof.Machine Sys2Proof.Laws

/-- R40: STATUS as a number; the reserved bits add nothing. -/
theorem statusReg_toNat (s : State) :
    s.statusReg.toNat = s.infoBits.toNat * 2 ^ 16 + s.causeBits.toNat * 2 ^ 8 + s.bpFinal.toNat * 2 ^ 2
      + s.tbValid.toNat * 2 + s.faulted.toNat := by
  simp only [State.statusReg, toNat_append_eq, BitVec.toNat_ofBool, BitVec.toNat_ofNat]
  omega

/-- Settles O50: SYS.NOP passes through the check for a taken fault and SYS.STATUS does not; 56 bits hold the
status register. -/
theorem nopAndStatus : Obligations.NopAndStatus := by
  intro s
  refine ⟨fun hf => ⟨_, readsOut_of_effect (.sysNop hf)⟩,
    fun hf => ⟨_, readsOut_of_effect (.faulted hf nofun nofun)⟩, ?status⟩
  case status =>
    obtain ⟨hanswer, honly⟩ := readsOut_of_effect (.sysStatus (s := s))
    exact ⟨_, _, hanswer, honly, (BitVec.toNat_setWidth_of_le (by decide)).trans (statusReg_toNat s)⟩

/-- Settles O51: the command is a block reset in any state, and its response is no element of R44. -/
theorem sysResetResetsTheBlock : Obligations.SysResetResetsTheBlock := fun s =>
  ⟨_, answers_of_exec (exec_sysReset s) (resetBlock_rsps s),
    blockReset_respond.2 (blockReset_resetBlock s), rfl, rfl⟩

end Sys2Proof.Proofs
end

section
/-! The host's procedures (47_environment.md): a compress that succeeds had an input that is not empty and
whose counts fit their counters, so what `compress_spec` says of those inputs is said of every success; an
`ERR` leaves the block faulted, and R181's SYS.RESET puts it back. -/

namespace Sys2Proof.Proofs

open Sys2Proof.Machine Sys2Proof.Laws

/-! ### A procedure that an `ERR` ends -/

/-- R181: a required command that takes a fault ends the procedure with the error kind of its cause. -/
theorem require_of_fault {i : Instr} {s : State} {c : Cause} {k : Byte} (h : Effect i s (s.raise c k)) :
    require i s = .error ⟨errorOf c.code, true, s.raise c k⟩ := by
  have herr : (Response.err c k).status = 2 := rfl
  rw [require, issue_of_effect h (raise_rsps s c k), if_pos herr, andThen_error]
  rfl

/-- R101: FC.CLR answers `OK(0)` and leaves an unfaulted block with nothing counted. -/
theorem require_fcClr {s : State} (hf : s.faulted = false) :
    ∃ t, require .fcClr s = .ok ((Response.ok 0).word, t) ∧ t.faulted = false ∧ ∀ a, t.freqAt a = 0 :=
  ⟨_, require_of_effect (.fcClr hf) rfl (.inl rfl), hf, freqAt_replicate s⟩

/-- R184: with nothing counted since FC.CLR, TB.BUILD takes `EmptyInput` and ends the procedure. -/
theorem compress_nil {s : State} (hf : s.faulted = false) :
    ∃ t, compress [] s = .error ⟨.emptyInput, true, t⟩ ∧ t.faulted = true := by
  obtain ⟨u, hclr, hu, hzero⟩ := require_fcClr hf
  have hbuild : require .tbBuild u = .error ⟨.emptyInput, true, u.raise .emptyInput 0⟩ :=
    require_of_fault (.emptyInput hu hzero)
  refine ⟨u.raise .emptyInput 0, ?_, raise_faulted u .emptyInput 0⟩
  simp only [compress, List.map_nil, List.cons_append, List.nil_append, requireAll, hclr, hbuild, andThen_ok,
    andThen_error]

/-- Settles O60: TB.BUILD faults on nothing counted; the block is faulted exactly after an `ERR`, and SYS.RESET
then gives every element its reset value. -/
theorem emptyInputFails : Obligations.EmptyInputFails := by
  refine ⟨fun s hf => compress_nil hf, fun p s hf => ⟨nextStart_unfaulted p hf, fun f hfail => ?_⟩⟩
  have hblock : f.block.faulted = f.erred := by
    have hends := faultedIfErred_runProcedure p hf
    rwa [hfail] at hends
  rw [hfail, hblock]
  refine ⟨report_error f, Iff.rfl, fun herred => ?_⟩
  rw [nextStart_erred herred, blockReset_respond]
  exact blockReset_resetBlock f.block

/-! ### A compress that succeeds -/

/-- R184: what has been compressed was not empty. -/
theorem ne_nil_of_compress {x : List Byte} {s t : State} {c : Container} (hf : s.faulted = false)
    (h : compress x s = .ok (c, t)) : x ≠ [] := by
  rintro rfl
  obtain ⟨u, hfail, -⟩ := compress_nil hf
  rw [hfail] at h
  cases h

/-- R102, R173: no FC.PUT of a compress that succeeds has faulted, so the counters hold the counts. -/
theorem count_lt_of_compress {x : List Byte} {s t : State} {c : Container} (hf : s.faulted = false)
    (h : compress x s = .ok (c, t)) (a : Byte) : x.count a < 2 ^ 32 := by
  obtain ⟨_, _, hcommands, -⟩ := andThen_eq_ok h
  obtain ⟨_, -, hrun, hgood⟩ := requireAll_eq_ok hcommands
  obtain ⟨u, qs, _, rfl, hputs, -⟩ :=
    Run.split (is := .fcClr :: fcPuts x) (js := [.tbBuild, .caAssign]) hrun
  have hu : u.faulted = false :=
    hputs.unfaulted hf fun r hr => good_ne_err (hgood r (List.mem_append_left _ hr))
  rw [← counts_of_fcClr_fcPuts hputs hf hu a]
  exact (u.freqAt a).isLt

/-- R145, R146: a bit sequence fills as many bytes as it begins. -/
theorem length_payloadOf (bits : List (BitVec 1)) : (payloadOf bits).length = (bits.length + 7) / 8 := by
  rw [payloadOf, List.length_map, List.length_range]

/-- Settles O59: the bit sequence is the codes of the bytes one after another, BP.COUNT answers its length and
the payload packs it. -/
theorem bitCountInvariant : Obligations.BitCountInvariant := by
  intro x s t c hf h
  obtain ⟨table, bits, total, u, hspec, -, htotal, hbits, -, -⟩ :=
    compress_spec x s hf (ne_nil_of_compress hf h) (count_lt_of_compress hf h)
  rw [h] at hspec
  cases hspec
  constructor
  · show total.toNat = _
    rw [htotal, hbits, List.length_flatMap]
  · show (payloadOf _).length = (total.toNat + 7) / 8
    rw [length_payloadOf, List.length_map, htotal]

end Sys2Proof.Proofs
end

section
/-! Faults (60_exceptions.md): what a command does to the fault state is said once, by its effects. Fault entry is
the one way in, taken by the four commands of R203, and a block reset is the one way out. -/

namespace Sys2Proof.Proofs

open Sys2Proof.Machine Sys2Proof.Laws

/-- What a refusal leaves, with the word it answers. -/
theorem respond_refused (s : State) :
    s.respond .refused = { s with rsps := s.rsps ++ [0xC000000000000000#64] } := by
  rw [State.respond, refused_word]

/-- Settles O14: a faulted block refuses an illegal word as it always does, and every command but the two
exempt ones by the check of R14. -/
theorem faultedBlockRefuses : Obligations.FaultedBlockRefuses := by
  intro s c rest hi hf hstatus hreset
  cases hd : decode c with
  | error e => rw [step_illegal hi hd, respond_refused]
  | ok i =>
    have hne_status : i ≠ .sysStatus := by rintro rfl; exact hstatus hd
    have hne_reset : i ≠ .sysReset := by rintro rfl; exact hreset hd
    have hexec := exec_faulted (s := { s with inputs := rest }) hf hne_reset hne_status
    rw [step_command hi hd, hexec, respond_refused]

/-- R205 to R207: a command enters a fault, or keeps the fault state as it was, or resets the block. -/
theorem faultState_of_effect {i : Instr} {s t : State} (h : Effect i s t) :
    (s.faulted = false ∧ ∃ c k, t = s.raise c k)
      ∨ t.latched = s.latched
      ∨ i = .sysReset ∧ t = s.resetBlock.respond (.ok 0) := by
  cases h with
  | fcOverflow hf _ | emptyInput hf _ | bpOverflow hf _ _ | corrupt hf _ _ _ =>
    exact .inl ⟨hf, _, _, rfl⟩
  | sysReset => exact .inr (.inr ⟨rfl, rfl⟩)
  | _ => exact .inr (.inl rfl)

/-- `FAULTED` is a view of the recorded fault. -/
theorem faulted_of_latched_eq {s t : State} (h : t.latched = s.latched) : t.faulted = s.faulted :=
  congrArg Option.isSome h

/-- R205: a command that leaves an unfaulted block faulted did so by fault entry. -/
theorem exists_raise_of_effect {i : Instr} {s t : State} (h : Effect i s t) (hs : s.faulted = false)
    (ht : t.faulted = true) : ∃ c k, t = s.raise c k := by
  obtain ⟨-, hraise⟩ | hkept | ⟨-, rfl⟩ := faultState_of_effect h
  · exact hraise
  · cases ht.symm.trans ((faulted_of_latched_eq hkept).trans hs)
  · cases ht

/-- Settles O15: fault entry is the only way for a command to leave an unfaulted block faulted. -/
theorem faultEntryWritesOnlyTheFault : Obligations.FaultEntryWritesOnlyTheFault := by
  intro i s t hs h ht
  obtain ⟨c, k, rfl⟩ := exists_raise_of_effect (exec_effect h) hs ht
  obtain ⟨-, -, herr, -⟩ := responseWordLayout
  exact ⟨c, k, (Response.err c k).word, rfl, rfl, rfl, herr c k⟩

/-- The rows of R203: the command, its condition, and the cause and the info it records. -/
def FaultRow (i : Instr) (s : State) (c : Cause) (k : Byte) : Prop :=
  (c = .emptyInput ∧ k = 0 ∧ i = .tbBuild ∧ ∀ a, s.freqAt a = 0)
    ∨ (c = .corrupt ∧ k = 0 ∧ i = .buNext ∧ s.buRem ≠ 0 ∧ s.buLeft = 0 ∧ s.buFifo = [])
    ∨ (c = .fcOverflow ∧ i = .fcPut k ∧ (s.freqAt k).toNat = 2 ^ 32 - 1)
    ∨ (c = .bpOverflow ∧ k = 0 ∧ (∃ b, i = .bpPut b) ∧ s.bpFinal = false ∧ s.bpTotal.toNat = 2 ^ 48 - 1)

/-- On an unfaulted block a recorded fault is a row of the table: no other effect writes `CAUSE` and `INFO`. -/
theorem faultRow_of_effect {i : Instr} {s t : State} {c : Cause} {k : Byte} (h : Effect i s t)
    (hs : s.faulted = false) (ht : t.latched = some ⟨c, k⟩) : FaultRow i s c k := by
  cases h with
  | emptyInput _ hzero => cases ht; exact .inl ⟨rfl, rfl, rfl, hzero⟩
  | corrupt _ hrem hleft hnil => cases ht; exact .inr (.inl ⟨rfl, rfl, rfl, hrem, hleft, hnil⟩)
  | fcOverflow _ hmax => cases ht; exact .inr (.inr (.inl ⟨rfl, rfl, eq_maxCount_iff.1 hmax⟩))
  | bpOverflow _ hopen hmax =>
    cases ht
    exact .inr (.inr (.inr ⟨rfl, rfl, ⟨_, rfl⟩, hopen, eq_maxBitCount_iff.1 hmax⟩))
  | sysReset => cases ht
  | _ => cases (faulted_eq_false.1 hs).symm.trans ht

/-- Each row of the table is a fault entry of an unfaulted block. -/
theorem effect_of_faultRow {i : Instr} {s : State} {c : Cause} {k : Byte} (hs : s.faulted = false)
    (h : FaultRow i s c k) : Effect i s (s.raise c k) := by
  obtain ⟨rfl, rfl, rfl, hzero⟩ | ⟨rfl, rfl, rfl, hrem, hleft, hnil⟩ | ⟨rfl, rfl, hmax⟩
    | ⟨rfl, rfl, ⟨b, rfl⟩, hopen, hmax⟩ := h
  · exact .emptyInput hs hzero
  · exact .corrupt hs hrem hleft hnil
  · exact .fcOverflow hs (eq_maxCount_iff.2 hmax)
  · exact .bpOverflow hs hopen (eq_maxBitCount_iff.2 hmax)

/-- R39: without a fault the code and the info are 0. -/
theorem causeBits_infoBits_of_unfaulted {s : State} (hs : s.faulted = false) :
    s.causeBits = 0 ∧ s.infoBits = 0 := by
  rw [State.causeBits, State.infoBits, faulted_eq_false.1 hs]
  exact ⟨rfl, rfl⟩

/-- Settles O16: the effects that write `CAUSE` and `INFO` are the rows of the table. -/
theorem faultCausesAreTheTable : Obligations.FaultCausesAreTheTable := by
  refine ⟨⟨rfl, rfl, rfl, rfl⟩, fun s => causeBits_infoBits_of_unfaulted, fun i s c k hs => ⟨?_, fun h => ?_⟩⟩
  · rintro ⟨t, h, ht⟩
    exact faultRow_of_effect (exec_effect h) hs ht
  · exact ⟨_, exec_of_effect (effect_of_faultRow hs h), raise_latched s c k⟩

/-- Settles O17: a faulted block cannot enter a fault, so a command keeps the fault it has or is SYS.RESET. -/
theorem onlyResetLeavesTheFaultedState : Obligations.OnlyResetLeavesTheFaultedState := by
  intro s t hs h
  have kept {u : State} (hu : u.latched = s.latched) : u.faulted = true ∧ u.latched = s.latched :=
    ⟨(faulted_of_latched_eq hu).trans hs, hu⟩
  obtain ⟨-, rfl⟩ | ⟨rest, hi, rfl⟩ | ⟨c, rest, e, -, -, rfl⟩ | ⟨c, rest, i, hi, hd, heffect⟩ :=
    step_effect h
  · exact .inl (kept rfl)
  · exact .inr ⟨blockReset_resetBlock _, .inl ⟨rest, hi⟩⟩
  · exact .inl (kept rfl)
  · obtain ⟨hunfaulted, -⟩ | hkept | ⟨rfl, rfl⟩ := faultState_of_effect heffect
    · cases hs.symm.trans hunfaulted
    · exact .inl (kept hkept)
    · exact .inr ⟨blockReset_respond.2 (blockReset_resetBlock _), .inr ⟨c, rest, hi, hd⟩⟩

end Sys2Proof.Proofs
end

section
/-! Refusals (60_exceptions.md R209): a command is refused exactly in the listed cases, and no other response
has the word of a refusal. -/

namespace Sys2Proof.Proofs

open Sys2Proof.Machine Sys2Proof.Laws

/-- R209 (a) and (c) to (f), the cases in which a command is refused; (b) is of words that are no command. -/
def RefusalCase (i : Instr) (s : State) : Prop :=
  (s.faulted = true ∧ i ≠ .sysStatus ∧ i ≠ .sysReset)
    ∨ ((∃ w r, i = .pqAdd w r) ∧ 256 ≤ s.pq.length)
    ∨ (i = .caAssign ∧ s.tbValid = false)
    ∨ (((∃ b, i = .bpPut b) ∨ i = .bpFlush) ∧ s.bpFinal = true)
    ∨ ((∃ b, i = .buFeed b) ∧ FifoFull s)

/-- Every effect is a refusal in one of the listed cases or answers another response. -/
theorem refused_or_answers_of_effect {i : Instr} {s t : State} (h : Effect i s t) :
    (t = s.respond .refused ∧ RefusalCase i s) ∨ ∃ r : Response, r ≠ .refused ∧ t.rsps = s.rsps ++ [r.word] := by
  cases h with
  | faulted hf hreset hstatus => exact .inl ⟨rfl, .inl ⟨hf, hstatus, hreset⟩⟩
  | pqFull _ hfull => exact .inl ⟨rfl, .inr (.inl ⟨⟨_, _, rfl⟩, hfull⟩)⟩
  | noTree _ hinvalid => exact .inl ⟨rfl, .inr (.inr (.inl ⟨rfl, hinvalid⟩))⟩
  | putFinal _ hfinal => exact .inl ⟨rfl, .inr (.inr (.inr (.inl ⟨.inl ⟨_, rfl⟩, hfinal⟩)))⟩
  | flushFinal _ hfinal => exact .inl ⟨rfl, .inr (.inr (.inr (.inl ⟨.inr rfl, hfinal⟩)))⟩
  | fifoFull _ hfull => exact .inl ⟨rfl, .inr (.inr (.inr (.inr ⟨⟨_, rfl⟩, hfull⟩)))⟩
  | _ =>
    refine .inr ⟨_, ?_, rfl⟩
    nofun

/-- A refusal of the unfaulted block is a refusal of the block, for a command that a fault does not exempt. -/
theorem effect_refused_of_unfaulted {i : Instr} {s : State} (hreset : i ≠ .sysReset)
    (hstatus : i ≠ .sysStatus) (h : s.faulted = false → Effect i s (s.respond .refused)) :
    Effect i s (s.respond .refused) := by
  cases hf : s.faulted with
  | true => exact .faulted hf hreset hstatus
  | false => exact h hf

/-- In each of the listed cases the command is refused. -/
theorem effect_refused_of_refusalCase {i : Instr} {s : State} (h : RefusalCase i s) :
    Effect i s (s.respond .refused) := by
  obtain ⟨hf, hstatus, hreset⟩ | ⟨⟨w, r, rfl⟩, hfull⟩ | ⟨rfl, hinvalid⟩ | ⟨⟨b, rfl⟩ | rfl, hfinal⟩
    | ⟨⟨b, rfl⟩, hfull⟩ := h
  · exact .faulted hf hreset hstatus
  · exact effect_refused_of_unfaulted nofun nofun (.pqFull · hfull)
  · exact effect_refused_of_unfaulted nofun nofun (.noTree · hinvalid)
  · exact effect_refused_of_unfaulted nofun nofun (.putFinal · hfinal)
  · exact effect_refused_of_unfaulted nofun nofun (.flushFinal · hfinal)
  · exact effect_refused_of_unfaulted nofun nofun (.fifoFull · hfull)

/-- A command that answers the word of a refusal was refused, in one of the listed cases. -/
theorem refused_of_effect {i : Instr} {s t : State} (h : Effect i s t)
    (hr : t.rsps = s.rsps ++ [0xC000000000000000#64]) : t = s.respond .refused ∧ RefusalCase i s := by
  obtain hrefused | ⟨r, hne, hrsps⟩ := refused_or_answers_of_effect h
  · exact hrefused
  · rw [hrsps, List.append_cancel_left_eq, List.cons.injEq, word_eq_refused_iff] at hr
    exact absurd hr.1 hne

/-- A command answers the word of a refusal exactly in the listed cases. -/
theorem rsps_eq_refused_iff {i : Instr} {s t : State} (h : Effect i s t) :
    t.rsps = s.rsps ++ [0xC000000000000000#64] ↔ RefusalCase i s := by
  refine ⟨fun hr => (refused_of_effect h hr).2, fun hcase => ?_⟩
  have hnext := (exec_of_effect h).symm.trans (exec_of_effect (effect_refused_of_refusalCase hcase))
  rw [next_inj hnext, respond_refused]

/-- Settles O18: an illegal word is case (b), and a command is refused in the other cases. -/
theorem refusalsAreTheListed : Obligations.RefusalsAreTheListed := by
  intro s c rest t hi h
  cases hd : decode c with
  | error e =>
    have ht : t = { s with inputs := rest, rsps := s.rsps ++ [0xC000000000000000#64] } := by
      rw [← next_inj ((step_illegal hi hd).symm.trans h), respond_refused]
    exact ⟨iff_of_true (by rw [ht]) (.inr (.inl ⟨e, rfl⟩)), fun _ => ht⟩
  | ok i =>
    have heffect : Effect i { s with inputs := rest } t := exec_effect ((step_command hi hd).symm.trans h)
    have hcases := rsps_eq_refused_iff heffect
    constructor
    · simp only [ne_eq, Except.ok.injEq, reduceCtorEq, exists_false, false_or]
      exact hcases
    · intro hr
      rw [(refused_of_effect heffect hr).1, respond_refused]

end Sys2Proof.Proofs
end

section
/-! The decoder against its own encoder and against the rows of R76 (30_encoding.md): a command word is an opcode
byte over an operand field, so a fact about words is one about the two fields. -/

namespace Sys2Proof.Proofs

open Sys2Proof.Machine Sys2Proof.Laws

/-! ### Decoding and encoding -/

/-- Settles O1: the encoder writes the two fields that the decoder reads. -/
theorem decodeOfEncode : Obligations.DecodeOfEncode := fun i =>
  decode_eq_ok.2 ⟨opField_encode i, argField_encode i⟩

/-- Settles O2: a word is its two fields, and those of a legal word are its command's. -/
theorem encodeOfDecode : Obligations.EncodeOfDecode := by
  intro c i h
  obtain ⟨hop, harg⟩ := decode_eq_ok.1 h
  rw [encode, ← hop, ← harg, word_eq_fields]

/-- Settles O6: each word has the opcode byte and the operand field of its command. -/
theorem writtenOutWordsDecode : Obligations.WrittenOutWordsDecode := by
  unfold Obligations.WrittenOutWordsDecode
  simp only [decode_eq_ok]
  decide

/-! ### Illegal words -/

/-- A word has a listed opcode byte exactly when some row has it. -/
theorem exists_op_iff_exists_row {c : Word} :
    (∃ o : Op, opField c = o.code) ↔ ∃ r ∈ opRows, opField c = opField r.pattern := by
  constructor
  · rintro ⟨o, ho⟩
    obtain ⟨r, hr, rfl⟩ := exists_row o
    exact ⟨r, hr, by rw [(opRows_layout r hr).1, opField_append, ho]⟩
  · rintro ⟨r, hr, hop⟩
    exact ⟨r.op, by rw [hop, (opRows_layout r hr).1, opField_append]⟩

theorem eq_mustBeZero_of_ite {p : Prop} [Decidable p] {j : Instr} {e : Illegal}
    (h : (if p then .ok j else .error .mustBeZero : Except Illegal Instr) = .error e) : e = .mustBeZero := by
  split at h
  · cases h
  · exact (Except.error.inj h).symm

/-- R78: with a listed opcode byte, only a must-be-zero bit can make a word illegal. -/
theorem eq_mustBeZero_of_listed {c : Word} {e : Illegal} (hc : ∃ o : Op, opField c = o.code)
    (h : decode c = .error e) : e = .mustBeZero := by
  obtain ⟨o, ho⟩ := hc
  rw [decode_listed ho] at h
  cases o <;> exact eq_mustBeZero_of_ite h

/-- R70: the unit is the word's top four bits, which are the opcode byte's. -/
theorem unitField_toNat (c : Word) : (unitField c).toNat = c.toNat / 2 ^ 60 := by
  have hlt : c.toNat < 2 ^ 64 := c.isLt
  rw [unitField, toNat_slice, Nat.mod_eq_of_lt (by omega)]

theorem opField_toNat_div (c : Word) : (opField c).toNat / 2 ^ 4 = c.toNat / 2 ^ 60 := by
  have hlt : c.toNat < 2 ^ 64 := c.isLt
  rw [opField, toNat_slice]
  omega

/-- R76: the listed opcode bytes belong to the units 0 to 6. -/
theorem unit_lt_of_listed {c : Word} (hc : ∃ o : Op, opField c = o.code) : c.toNat / 2 ^ 60 < 7 := by
  obtain ⟨o, ho⟩ := hc
  rw [← opField_toNat_div, ho]
  cases o <;> decide

/-- R78: without a listed opcode byte the unit alone tells why a word is illegal. -/
theorem decode_of_unlisted {c : Word} (hc : ¬ ∃ o : Op, opField c = o.code) :
    decode c = .error (if 7 ≤ c.toNat / 2 ^ 60 then .reservedUnit else .undefinedFn) := by
  rw [decode_unlisted fun o ho => hc ⟨o, ho⟩]
  simp only [BitVec.le_def, unitField_toNat]
  rfl

theorem decode_eq_reservedUnit_iff (c : Word) :
    decode c = .error .reservedUnit ↔ 7 ≤ c.toNat / 2 ^ 60 := by
  by_cases hc : ∃ o : Op, opField c = o.code
  · exact iff_of_false (fun h => nomatch eq_mustBeZero_of_listed hc h) (Nat.not_le.2 (unit_lt_of_listed hc))
  · rw [decode_of_unlisted hc]
    split
    · next hunit => exact iff_of_true rfl hunit
    · next hunit => exact iff_of_false nofun hunit

theorem decode_eq_undefinedFn_iff (c : Word) :
    decode c = .error .undefinedFn ↔ c.toNat / 2 ^ 60 < 7 ∧ ¬ ∃ o : Op, opField c = o.code := by
  by_cases hc : ∃ o : Op, opField c = o.code
  · exact iff_of_false (fun h => nomatch eq_mustBeZero_of_listed hc h) fun h => h.2 hc
  · rw [decode_of_unlisted hc]
    split
    · next hunit => exact iff_of_false nofun fun h => Nat.not_lt.2 hunit h.1
    · next hunit => exact iff_of_true rfl ⟨Nat.not_le.1 hunit, hc⟩

theorem decode_eq_mustBeZero_iff (c : Word) :
    decode c = .error .mustBeZero ↔ (∃ o : Op, opField c = o.code) ∧ ∃ e, decode c = .error e := by
  constructor
  · intro h
    refine ⟨?_, _, h⟩
    by_contra hc
    rw [decode_of_unlisted hc] at h
    split at h <;> cases h
  · rintro ⟨hc, e, h⟩
    rw [h, eq_mustBeZero_of_listed hc h]

/-- Settles O4: the listed opcode bytes are those of the rows, and an illegal word is one that no row admits. -/
theorem illegalWordsByKind : Obligations.IllegalWordsByKind := by
  intro c
  refine ⟨decode_eq_reservedUnit_iff c, ?_, ?_⟩
  · rw [decode_eq_undefinedFn_iff, exists_op_iff_exists_row]
    simp only [not_exists, not_and, ne_eq]
  · rw [decode_eq_mustBeZero_iff, exists_op_iff_exists_row, exists_decode_error_iff_not_admitted]

/-- Settles O5: the rows are finitely many; two rows that match a word share its opcode byte. -/
theorem tableRowsDisjoint : Obligations.TableRowsDisjoint := by
  have hop : ∀ r ∈ opRows, ∀ r' ∈ opRows, opField r.pattern = opField r'.pattern → r = r' := by decide
  refine ⟨hop, by decide, fun c r hr r' hr' h h' => ?_⟩
  obtain ⟨hcode, -⟩ := (admits_iff_fields hr).1 h
  obtain ⟨hcode', -⟩ := (admits_iff_fields hr').1 h'
  refine hop r hr r' hr' ?_
  rw [(opRows_layout r hr).1, (opRows_layout r' hr').1, opField_append, opField_append, ← hcode, hcode']

/-! ### Lines of assembler text -/

/-- Numbers, one for each of the widths and within it (R71, R72): what makes a line well formed. -/
def FitWidths (args widths : List Nat) : Prop := List.Forall₂ (fun a w => a < 2 ^ w) args widths

theorem wellFormed_iff (l : AsmLine) : l.wellFormed = true ↔ FitWidths l.args l.op.format.widths := by
  simp only [AsmLine.wellFormed, AsmLine.arityOk, AsmLine.rangesOk, Bool.and_eq_true, beq_iff_eq,
    List.all_eq_true, decide_eq_true_eq, FitWidths, List.forall₂_iff_zip, Prod.forall]

theorem fitWidths_nil {args : List Nat} (h : FitWidths args []) : args = [] :=
  List.forall₂_nil_right_iff.1 h

theorem fitWidths_one {args : List Nat} {n : Nat} (h : FitWidths args [n]) :
    ∃ a : BitVec n, args = [a.toNat] := by
  obtain ⟨a, rest, ha, hrest, rfl⟩ := List.forall₂_cons_right_iff.1 h
  rw [fitWidths_nil hrest]
  exact ⟨BitVec.ofNatLT a ha, rfl⟩

theorem fitWidths_two {args : List Nat} {m n : Nat} (h : FitWidths args [m, n]) :
    ∃ (a : BitVec m) (b : BitVec n), args = [a.toNat, b.toNat] := by
  obtain ⟨a, rest, ha, hrest, rfl⟩ := List.forall₂_cons_right_iff.1 h
  obtain ⟨b, rfl⟩ := fitWidths_one hrest
  exact ⟨BitVec.ofNatLT a ha, b, rfl⟩

/-- R81: every well-formed line is the line of a command. -/
theorem exists_line_of_wellFormed {l : AsmLine} (h : l.wellFormed = true) : ∃ i : Instr, i.line = l := by
  rw [wellFormed_iff] at h
  obtain ⟨op, args⟩ := l
  cases op with
  | fcPut => obtain ⟨a, rfl⟩ := fitWidths_one h; exact ⟨.fcPut a, rfl⟩
  | fcGet => obtain ⟨a, rfl⟩ := fitWidths_one h; exact ⟨.fcGet a, rfl⟩
  | caLen => obtain ⟨a, rfl⟩ := fitWidths_one h; exact ⟨.caLen a, rfl⟩
  | buFeed => obtain ⟨a, rfl⟩ := fitWidths_one h; exact ⟨.buFeed a, rfl⟩
  | tbWeight => obtain ⟨r, rfl⟩ := fitWidths_one h; exact ⟨.tbWeight r, rfl⟩
  | tbLink => obtain ⟨r, rfl⟩ := fitWidths_one h; exact ⟨.tbLink r, rfl⟩
  | bpPut => obtain ⟨b, rfl⟩ := fitWidths_one h; exact ⟨.bpPut b, rfl⟩
  | buStart => obtain ⟨n, rfl⟩ := fitWidths_one h; exact ⟨.buStart n, rfl⟩
  | pqAdd => obtain ⟨w, r, rfl⟩ := fitWidths_two h; exact ⟨.pqAdd w r, rfl⟩
  | caBit => obtain ⟨a, k, rfl⟩ := fitWidths_two h; exact ⟨.caBit a k, rfl⟩
  | sysNop => obtain rfl := fitWidths_nil h; exact ⟨.sysNop, rfl⟩
  | sysReset => obtain rfl := fitWidths_nil h; exact ⟨.sysReset, rfl⟩
  | sysStatus => obtain rfl := fitWidths_nil h; exact ⟨.sysStatus, rfl⟩
  | fcClr => obtain rfl := fitWidths_nil h; exact ⟨.fcClr, rfl⟩
  | pqClr => obtain rfl := fitWidths_nil h; exact ⟨.pqClr, rfl⟩
  | pqRem => obtain rfl := fitWidths_nil h; exact ⟨.pqRem, rfl⟩
  | pqLen => obtain rfl := fitWidths_nil h; exact ⟨.pqLen, rfl⟩
  | tbBuild => obtain rfl := fitWidths_nil h; exact ⟨.tbBuild, rfl⟩
  | tbRoot => obtain rfl := fitWidths_nil h; exact ⟨.tbRoot, rfl⟩
  | caAssign => obtain rfl := fitWidths_nil h; exact ⟨.caAssign, rfl⟩
  | bpClr => obtain rfl := fitWidths_nil h; exact ⟨.bpClr, rfl⟩
  | bpFlush => obtain rfl := fitWidths_nil h; exact ⟨.bpFlush, rfl⟩
  | bpCount => obtain rfl := fitWidths_nil h; exact ⟨.bpCount, rfl⟩
  | buNext => obtain rfl := fitWidths_nil h; exact ⟨.buNext, rfl⟩
  | buRem => obtain rfl := fitWidths_nil h; exact ⟨.buRem, rfl⟩

/-- R81: the numbers of a command's line are read back as its operands. -/
theorem assemble_line (i : Instr) : assemble i.line = some i := by
  rw [assemble, if_pos (Instr.line_wellFormed i)]
  cases i <;> simp only [Instr.line, Instr.op, BitVec.ofNat_toNat, BitVec.setWidth_eq]

/-- Settles O9: the well-formed lines are the lines of the commands. -/
theorem linesAssembleToTheirCommand : Obligations.LinesAssembleToTheirCommand := by
  refine ⟨fun i => ⟨Instr.line_wellFormed i, assemble_line i⟩, fun l => ⟨fun h => ?_, ?_⟩⟩
  · obtain ⟨i, rfl⟩ := exists_line_of_wellFormed h
    exact ⟨i, assemble_line i, rfl⟩
  · rintro ⟨i, h, -⟩
    by_contra hl
    rw [assemble, if_neg hl] at h
    cases h

end Sys2Proof.Proofs
end

section
/-! A step (00_scope.md R6 to R8) and the frame of each command (10_state.md, the "Written by" of R25 to R39): one
case per effect of a command, with the part that the effect writes. -/

namespace Sys2Proof.Proofs

open Sys2Proof.Machine Sys2Proof.Laws

/-! ### A step -/

/-- Settles O10: the arm of `step` for a legal word. -/
theorem stepRunsDecodedCommand : Obligations.StepRunsDecodedCommand :=
  fun _ _ _ _ hi hd => step_command hi hd

/-- Settles O12: the arm of `step` for an empty list of inputs. -/
theorem idleStepHoldsTheState : Obligations.IdleStepHoldsTheState := fun _ hi => step_idle hi

/-- Settles O13: an illegal word is refused, and every command answers once. -/
theorem eachCommandAnswersOnce : Obligations.EachCommandAnswersOnce := by
  intro s t c rest hi h
  cases hd : decode c with
  | error e =>
    rw [← next_inj ((step_illegal hi hd).symm.trans h)]
    exact ⟨rfl, ⟨_, rfl⟩, rfl⟩
  | ok i =>
    obtain ⟨r, hrsps, hinputs, hcap⟩ := exec_ports ((step_command hi hd).symm.trans h)
    exact ⟨hinputs, ⟨r.word, hrsps⟩, hcap⟩

/-- Settles O52: the reset input and SYS.RESET both reset the block, and only SYS.RESET responds. -/
theorem hardwareResetIsSysReset : Obligations.HardwareResetIsSysReset := fun _ _ hi =>
  ⟨_, step_hardReset hi, blockReset_resetBlock _, rfl, rfl, rfl, _, exec_sysReset _, rfl⟩

/-! ### The read-outs -/

/-- R56: a read-out command writes nothing, and its answer does not depend on the responses taken before. -/
theorem readOut_effect {i : Instr} {s t : State} (hread : readOut i = true) (h : Effect i s t) :
    ∃ r, t = s.respond r ∧ ∀ q : Response, Effect i (s.respond q) ((s.respond q).respond r) := by
  cases h with
  | faulted hf hreset hstatus => exact ⟨_, rfl, fun _ => .faulted hf hreset hstatus⟩
  | sysStatus => exact ⟨_, rfl, fun _ => .sysStatus⟩
  | fcGet hf => exact ⟨_, rfl, fun _ => .fcGet hf⟩
  | pqLen hf => exact ⟨_, rfl, fun _ => .pqLen hf⟩
  | noRoot hf hv => exact ⟨_, rfl, fun _ => .noRoot hf hv⟩
  | tbRoot hf hv => exact ⟨_, rfl, fun _ => .tbRoot hf hv⟩
  | noWeight hf hn => exact ⟨_, rfl, fun _ => .noWeight hf hn⟩
  | tbWeight hf hn => exact ⟨_, rfl, fun _ => .tbWeight hf hn⟩
  | noLink hf hn => exact ⟨_, rfl, fun _ => .noLink hf hn⟩
  | tbLink hf hn => exact ⟨_, rfl, fun _ => .tbLink hf hn⟩
  | noLen hf hc => exact ⟨_, rfl, fun _ => .noLen hf hc⟩
  | caLen hf hc => exact ⟨_, rfl, fun _ => .caLen hf hc⟩
  | noBit hf hc => exact ⟨_, rfl, fun _ => .noBit hf hc⟩
  | caBit hf hc => exact ⟨_, rfl, fun _ => .caBit hf hc⟩
  | bpCount hf => exact ⟨_, rfl, fun _ => .bpCount hf⟩
  | buRem hf => exact ⟨_, rfl, fun _ => .buRem hf⟩
  | _ => cases hread

/-- Settles O19: the second execution meets the same conditions as the first. -/
theorem readOutsAreIdempotent : Obligations.ReadOutsAreIdempotent := by
  intro i s hread
  obtain ⟨t, ht⟩ := exec_total (i := i) (s := s) fun hassign => by rw [hassign] at hread; cases hread
  obtain ⟨r, rfl, hagain⟩ := readOut_effect hread (exec_effect ht)
  exact ⟨r.word, ht, exec_of_effect (hagain r)⟩

/-! ### Frames -/

theorem onlyParts_mono {ps qs : List Part} {s t : State} (h : OnlyParts ps s t) (hsub : ps ⊆ qs) :
    OnlyParts qs s t :=
  ⟨fun p hp => h.1 p fun hmem => hp (hsub hmem), h.2⟩

theorem onlyParts_code (s : State) (t : CodeTable) : OnlyParts [.ca] s { s with code := t } := by
  refine ⟨fun p hp => ?_, rfl, rfl⟩
  cases p with
  | ca => exact absurd (List.mem_singleton_self _) hp
  | _ => simp [samePart]

theorem onlyParts_tree (s : State) (q : List Entry) (node : List Node) (root : Ref) (valid : Bool) :
    OnlyParts [.pq, .tb] s { s with pq := q, node := node, tbRoot := root, tbValid := valid } := by
  refine ⟨fun p hp => ?_, rfl, rfl⟩
  cases p with
  | pq | tb => exact absurd (by decide) hp
  | _ => simp [samePart]

theorem onlyParts_resetBlock (s : State) :
    OnlyParts [.fc, .pq, .tb, .ca, .bp, .bu, .sys] s s.resetBlock :=
  ⟨fun p hp => absurd (by cases p <;> decide) hp, rfl, rfl⟩

/-- R25 to R39: each effect writes a part that the "Written by" clauses allow its command. -/
theorem onlyParts_of_effect {i : Instr} {s t : State} (h : Effect i s t) : OnlyParts (mayWrite i) s t := by
  cases h with
  | sysReset => exact onlyParts_respond.2 (onlyParts_resetBlock s)
  | fcClr => exact onlyParts_respond.2 (onlyParts_freq s _)
  | fcPut => exact onlyParts_respond.2 (onlyParts_mono (onlyParts_setFreq s _ _) (by simp [mayWrite]))
  | pqClr | pqAdd | pqRem => exact onlyParts_respond.2 (onlyParts_pq s _)
  | tbBuild => exact onlyParts_respond.2 (onlyParts_mono (onlyParts_tree s _ _ _ _) (by simp [mayWrite]))
  | caAssign => exact onlyParts_respond.2 (onlyParts_code s _)
  | bpClr | flushEmpty | flushEmit => exact onlyParts_respond.2 (onlyParts_bp s _ _ _ _)
  | bpEmit | bpHold => exact onlyParts_respond.2 (onlyParts_mono (onlyParts_bp s _ _ _ _) (by simp [mayWrite]))
  | buStart | buFeed => exact onlyParts_respond.2 (onlyParts_bu s _ _ _ _)
  | nextHeld | nextFetch => exact onlyParts_respond.2 (onlyParts_mono (onlyParts_bu s _ _ _ _) (by simp [mayWrite]))
  | fcOverflow | emptyInput | bpOverflow | corrupt => exact onlyParts_mono (onlyParts_raise s _ _) (by simp [mayWrite])
  | _ => exact onlyParts_respond.2 (onlyParts_self _ s)

/-- Settles O20: the effects of a command, each with its frame. -/
theorem unitsWriteOnlyTheirOwnState : Obligations.UnitsWriteOnlyTheirOwnState :=
  fun _ _ _ h => onlyParts_of_effect (exec_effect h)

end Sys2Proof.Proofs
end

section
/-! The selector (41_priority_queue.md) as the sorted arrangement it is held in: adding is sorted insertion, and
removing takes the head, so `k` removals answer the first `k` entries of the arrangement. -/

namespace Sys2Proof.Proofs

open Sys2Proof.Machine Sys2Proof.Laws

/-! ### PQ.ADD and PQ.REM -/

/-- Settles O24: below the capacity the entry is inserted, and at the capacity the command is refused. -/
theorem pqAddInsertsOneCopy : Obligations.PqAddInsertsOneCopy := by
  intro w r s hf
  refine ⟨fun hroom => ?_, fun hfull => ⟨_, readsOut_of_effect (.pqFull hf hfull)⟩⟩
  exact ⟨_, answers_of_exec (exec_of_effect (.pqAdd hf hroom)) rfl, onlyParts_respond.2 (onlyParts_pq s _),
    pqAdd_perm _ _, pqAdd_sorted⟩

theorem sortedEntries_cons {e : Entry} {rest : List Entry} :
    SortedEntries (e :: rest) ↔ (∀ x ∈ rest, x.lt e = false) ∧ SortedEntries rest :=
  List.pairwise_cons

/-- R112: the first entry of a sorted arrangement is a least one. -/
theorem leastEntry_head {e : Entry} {rest : List Entry} (h : SortedEntries (e :: rest)) :
    LeastEntry e (e :: rest) := by
  refine ⟨List.mem_cons_self, fun x hx => ?_⟩
  rcases List.mem_cons.1 hx with rfl | hx
  · exact lt_irrefl x
  · exact (sortedEntries_cons.1 h).1 x hx

/-- R75: PQ.REM answers the reference above the weight. -/
theorem entryValue_toNat (e : Entry) : e.value.toNat = e.ref.toNat * 2 ^ 40 + e.w.toNat := by
  rw [Entry.value, BitVec.toNat_setWidth_of_le (by decide), toNat_append_eq]

/-- Settles O25: the head of the arrangement is removed, if there is one. -/
theorem pqRemReturnsTheLeast : Obligations.PqRemReturnsTheLeast := by
  intro s hf hsorted
  refine ⟨fun hempty => ⟨_, readsOut_of_effect (.pqEmpty hf hempty)⟩, fun hne => ?_⟩
  obtain ⟨e, rest, hq⟩ := List.exists_cons_of_ne_nil hne
  rw [hq] at hsorted ⊢
  exact ⟨e, e.value, _, answers_of_exec (exec_of_effect (.pqRem hf hq)) rfl,
    onlyParts_respond.2 (onlyParts_pq s rest), leastEntry_head hsorted, List.Perm.refl _,
    (sortedEntries_cons.1 hsorted).2, entryValue_toNat e⟩

/-! ### Runs of PQ.ADD and PQ.REM -/

/-- No command unsorts the arrangement: it is emptied, inserted into, or loses its head. -/
theorem sorted_of_effect {i : Instr} {s t : State} (h : Effect i s t) (hs : SortedEntries s.pq) :
    SortedEntries t.pq := by
  cases h with
  | sysReset | pqClr | tbBuild => exact List.Pairwise.nil
  | pqAdd => exact pqAdd_sorted hs
  | pqRem _ hq =>
    rw [hq] at hs
    exact (sortedEntries_cons.1 hs).2
  | _ => exact hs

theorem sorted_of_run {is : List Instr} {s t : State} {rs : List Response} (h : Run is s rs t)
    (hs : SortedEntries s.pq) : SortedEntries t.pq := by
  induction h with
  | nil => exact hs
  | cons hi _ _ ih => exact ih (sorted_of_effect hi hs)

/-- R20, R203: a run of commands that none of them may write the fault state leaves it as it was. -/
theorem latched_of_run {is : List Instr} {s t : State} {rs : List Response} (h : Run is s rs t)
    (hsys : ∀ i ∈ is, Part.sys ∉ mayWrite i) : t.latched = s.latched := by
  induction h with
  | nil => rfl
  | cons hi _ _ ih =>
    rw [List.forall_mem_cons] at hsys
    exact (ih hsys.2).trans ((onlyParts_of_effect hi).1 .sys hsys.1)

/-- R116: `k` removals answer the first `k` entries of the arrangement, and `NONE` once it is empty. -/
theorem run_pqRem_replicate (k : Nat) : ∀ s : State, s.faulted = false →
    ∃ u, Run (List.replicate k .pqRem) s ((s.pq.take k).map (fun e => Response.ok e.value)
        ++ List.replicate (k - (s.pq.take k).length) Response.none) u ∧ u.pq = s.pq.drop k := by
  induction k with
  | zero => exact fun s _ => ⟨s, .nil s, rfl⟩
  | succ k ih =>
    intro s hf
    cases hq : s.pq with
    | nil =>
      obtain ⟨u, hrun, hu⟩ := ih (s.respond .none) hf
      rw [respond_pq, hq] at hrun hu
      simp only [List.take_nil, List.drop_nil] at hrun hu
      exact ⟨u, .cons (.pqEmpty hf hq) rfl hrun, hu⟩
    | cons e rest =>
      obtain ⟨u, hrun, hu⟩ := ih ({ s with pq := rest }.respond (.ok e.value)) hf
      refine ⟨u, ?_, hu⟩
      rw [List.take_succ_cons, List.length_cons, Nat.add_sub_add_right]
      exact .cons (.pqRem hf hq) rfl hrun

/-- The entries of a sorted arrangement are in non-decreasing order of weight. -/
theorem sorted_weights {pq : List Entry} (h : SortedEntries pq) :
    pq.Pairwise fun a b => a.w.toNat ≤ b.w.toNat :=
  h.imp fun {a b} hab => by
    rcases (not_lt_iff b a).1 hab with hlt | ⟨heq, -⟩
    · exact hlt.le
    · exact heq.le

/-- Each entry of a sorted arrangement is a least one of those from it on. -/
theorem leastEntry_drop {pq : List Entry} (h : SortedEntries pq) {j : Nat} {e : Entry} (he : pq[j]? = some e) :
    LeastEntry e (pq.drop j) := by
  obtain ⟨hlt, rfl⟩ := List.getElem?_eq_some_iff.1 he
  have hsorted : SortedEntries (pq.drop j) := List.Pairwise.drop h
  rw [List.drop_eq_getElem_cons hlt] at hsorted ⊢
  exact leastEntry_head hsorted

/-- Settles O27: the arrangement stays sorted and unfaulted through the commands before, and the removals take
its entries from the front. -/
theorem removalsComeOutInOrder : Obligations.RemovalsComeOutInOrder := by
  intro is k s t hf hs his h
  obtain ⟨rs, hrun⟩ := run_of_execAll h
  have hsys : ∀ i ∈ is, Part.sys ∉ mayWrite i := fun i hi => by
    rcases his i hi with ⟨w, r, rfl⟩ | rfl <;> simp [mayWrite]
  have ht : t.faulted = false := (faulted_of_latched_eq (latched_of_run hrun hsys)).trans hf
  have hsorted : SortedEntries t.pq := sorted_of_run hrun hs
  obtain ⟨u, hrem, hu⟩ := run_pqRem_replicate k t ht
  refine ⟨t.pq.take k, u, hrem.execAll, ?_, ?_, fun hlt => ?_, ?_, fun j e he => ?_⟩
  · rw [hrem.newResponses, List.map_append, List.map_map, List.map_replicate]
    rfl
  · rw [hu, List.take_append_drop]
  · rw [hu, List.drop_eq_nil_iff]
    rw [List.length_take] at hlt
    omega
  · exact (sorted_weights hsorted).take
  · obtain ⟨hj, -⟩ := List.getElem?_eq_some_iff.1 he
    rw [hu, ← List.drop_append_of_le_length hj.le, List.take_append_drop]
    rw [List.getElem?_take_of_lt (by rw [List.length_take] at hj; omega)] at he
    exact leastEntry_drop hsorted he

end Sys2Proof.Proofs
end

section
/-! The tree that TB.BUILD leaves (42_tree_builder.md): it completes whenever a symbol is present, what it leaves
depends on the counts alone, and the shape is that of a complete tree. -/

namespace Sys2Proof.Proofs

open Sys2Proof.Machine Sys2Proof.Laws

/-! ### TB.BUILD completes -/

/-- R30: a complete tree has at most 511 records. -/
theorem length_le_of_arenaOk {node : List Node} {root : Ref} {n : Nat} (h : ArenaOk node root n) :
    node.length ≤ 511 := by
  have hcount := h.count
  have hbounds := h.bounds
  omega

/-- Settles O28: the one tree left is taken, and its arena holds a complete tree, so `node_count` does not wrap. -/
theorem buildCompletes : Obligations.BuildCompletes := by
  intro s hf hpos
  obtain ⟨e, -, hexec⟩ := exec_tbBuild_next hf hpos
  obtain ⟨-, -, hok, -⟩ := exec_tbBuild_spec hf hexec hf
  exact ⟨_, _, answers_of_exec hexec rfl, onlyParts_respond.2 (onlyParts_tree s [] _ _ _), rfl, rfl,
    rootValue_toNat _ _, nodeCount_toNat (length_le_of_arenaOk hok)⟩

/-! ### The counts determine the tree and the table -/

/-- R121: the arena, the root, the selector and the response of TB.BUILD are functions of the counts. -/
theorem tbBuild_congr {s s' t t' : State} (hf : s.faulted = false) (hf' : s'.faulted = false)
    (hfreq : s.freqAt = s'.freqAt) (h : exec .tbBuild s = .next t) (h' : exec .tbBuild s' = .next t')
    (ht : t.faulted = false) :
    t'.faulted = false ∧ t.node = t'.node ∧ t.tbRoot = t'.tbRoot ∧ t.tbValid = true ∧ t'.tbValid = true
      ∧ t.pq = t'.pq ∧ newResponses s t = newResponses s' t' := by
  obtain ⟨hpos, -⟩ := exec_tbBuild_spec hf h ht
  obtain ⟨e, hq, hexec⟩ := exec_tbBuild_next hf hpos
  obtain ⟨e', hq', hexec'⟩ := exec_tbBuild_next hf' (hfreq ▸ hpos)
  obtain rfl : e = e' := by
    rw [hfreq, hq'] at hq
    exact (List.cons.inj hq).1.symm
  rw [← next_inj (hexec.symm.trans h), ← next_inj (hexec'.symm.trans h'), hfreq]
  refine ⟨hf', rfl, rfl, rfl, rfl, rfl, ?_⟩
  simp only [newResponses, respond_rsps, List.drop_left]

/-- R139: the table and the response of CA.ASSIGN are functions of the arena and its root. -/
theorem caAssign_congr {t t' u u' : State} (hf : t.faulted = false) (hf' : t'.faulted = false)
    (hv : t.tbValid = true) (hv' : t'.tbValid = true) (hnode : t.node = t'.node) (hroot : t.tbRoot = t'.tbRoot)
    (h : exec .caAssign t = .next u) (h' : exec .caAssign t' = .next u') :
    u.code = u'.code ∧ newResponses t u = newResponses t' u' := by
  have hcode := assignCodes_of_exec_caAssign hf hv h
  have hcode' := assignCodes_of_exec_caAssign hf' hv' h'
  have heq : u.code = u'.code := by
    rw [hnode, hroot, hcode'] at hcode
    exact (Option.some.inj hcode).symm
  have hu := next_inj ((exec_of_effect (.caAssign hf hv hcode)).symm.trans h)
  have hu' := next_inj ((exec_of_effect (.caAssign hf' hv' hcode')).symm.trans h')
  refine ⟨heq, ?_⟩
  rw [← hu, ← hu', heq]
  simp only [newResponses, respond_rsps, List.drop_left]

/-- Settles O34: the tree depends on the counts, and the table on the tree. -/
theorem treeAndTableDependOnCountsAlone : Obligations.TreeAndTableDependOnCountsAlone := by
  intro s s' t t' hf hf' hcounts h h'
  have hbuilt := tbBuild_congr hf hf' (funext hcounts) h h'
  constructor
  · intro ht
    obtain ⟨-, hnode, hroot, hv, hv', hpq, hrsps⟩ := hbuilt ht
    exact ⟨hnode, hroot, hv.trans hv'.symm, hpq, hrsps⟩
  · intro u u' ht hassign hassign'
    obtain ⟨ht', hnode, hroot, hv, hv', -⟩ := hbuilt ht
    exact caAssign_congr ht ht' hv hv' hnode hroot hassign hassign'

/-! ### The shape of the tree -/

/-- Settles O29: the parts of R125 are those of a complete tree over the present symbols. -/
theorem builtTreeHasItsShape : Obligations.BuiltTreeHasItsShape := by
  intro s t hf h ht n
  obtain ⟨-, -, hok, -⟩ := exec_tbBuild_spec hf h ht
  obtain ⟨hn1, hn2⟩ := hok.bounds
  refine ⟨hn1, hn2, ?_, hok.count, hok.root_last, fun k hk => ?leaf, hok.ascending,
    fun k hnk hk => ?internal, fun j k x y hnj hjk hx hy => ?ordered⟩
  · rw [nodeCount_toNat (length_le_of_arenaOk hok), hok.count]
  case leaf =>
    obtain ⟨w, a, hleaf, -⟩ := hok.leaves k hk
    exact ⟨w, a, hleaf⟩
  case internal =>
    obtain ⟨w, l, r, hx, hl, hr⟩ := hok.internals k hnk hk
    exact ⟨w, l, r, hx, hl, hr, hok.sums k w l r hx⟩
  case ordered => exact BitVec.le_def.1 (hok.ordered j k x y hnj hjk hx hy)

/-- Settles O32: the merging loop takes the two first entries of the sorted selector, which holds the keys of the
trees pending. -/
theorem mergesTakeTheTwoLeast : Obligations.MergesTakeTheTwoLeast := by
  intro s t hf h ht k w l r hk
  obtain ⟨-, -, -, -, -, hmerges⟩ := exec_tbBuild_spec hf h ht
  have hmerge := hmerges k w l r hk
  exact ⟨hmerge.left_pending, hmerge.right_pending, hmerge.left_first, hmerge.others_later⟩

/-- Settles O33: the children are a permutation of the references below the root. -/
theorem eachRecordHasOneParent : Obligations.EachRecordHasOneParent := by
  intro s t hf h ht
  obtain ⟨-, -, hok, -⟩ := exec_tbBuild_spec hf h ht
  have hn := hok.bounds
  refine ⟨hok.parents.nodup_iff.2 List.nodup_range, fun j => ?_⟩
  rw [hok.parents.mem_iff, List.mem_range, hok.count, hok.root_last]
  omega

end Sys2Proof.Proofs
end

section
/-! The table that CA.ASSIGN leaves of a complete tree (43_code_assigner.md): it is there, its greatest code has 1
to 255 bits, and after TB.BUILD its cost is the weight of the internal records, which no code of
R137's kind undercuts. -/

namespace Sys2Proof.Proofs

open Sys2Proof.Machine Sys2Proof.Laws

/-! ### CA.ASSIGN completes -/

/-- A complete tree has a leaf, so its table has a code. -/
theorem exists_code_of_arenaOk {node : List Node} {root : Ref} {n : Nat} {t : CodeTable}
    (hok : ArenaOk node root n) (ht : assignCodes node root = some t) : ∃ a c, codeOf t a = some c := by
  obtain ⟨w, a, hleaf, -⟩ := hok.leaves 0 hok.bounds.1
  exact ⟨a, (exists_code_iff_leadsTo ht a).2 ((exists_leadsTo_iff_leaf hok a).2 ⟨0, w, hleaf⟩)⟩

/-- R32, R133: the greatest length is that of a code. -/
theorem exists_code_length_eq_maxLen {t : CodeTable} (hcodes : PrefixTable t) (hex : ∃ a c, codeOf t a = some c) :
    ∃ a c, codeOf t a = some c ∧ c.length = maxLen t := by
  rcases maxLen_attained t with hzero | ⟨a, c, hc, hlen⟩
  · obtain ⟨a, c, hc⟩ := hex
    have hle := length_le_maxLen hc
    have hpos := (hcodes.len a c hc).1
    omega
  · exact ⟨a, c, hc, hlen.symm⟩

/-- Settles O36: the walk of a complete tree ends, and the answer is the length of one of its codes. -/
theorem assignCompletes : Obligations.AssignCompletes := by
  intro s hf
  refine ⟨fun hv => ⟨_, readsOut_of_effect (.noTree hf hv)⟩, fun n hv hok => ?_⟩
  obtain ⟨t, ht⟩ := assignCodes_total hok
  have hcodes := prefixTable_assign ht
  obtain ⟨a, c, hc, hlen⟩ := exists_code_length_eq_maxLen hcodes (exists_code_of_arenaOk hok ht)
  obtain ⟨hpos, hle⟩ := hcodes.len a c hc
  have hvalue : ((BitVec.ofNat 8 (maxLen t)).setWidth 56).toNat = maxLen t := by
    rw [BitVec.toNat_setWidth_of_le (by decide), BitVec.toNat_ofNat, Nat.mod_eq_of_lt (by omega)]
  refine ⟨_, _, answers_of_exec (exec_of_effect (.caAssign hf hv ht)) rfl,
    onlyParts_respond.2 (onlyParts_code s t), ?_⟩
  rw [hvalue, ← hlen]
  exact ⟨hpos, hle, ⟨a, c, hc, rfl⟩, fun b d hd => hlen ▸ length_le_maxLen hd⟩

/-! ### The cost of the codes -/

/-- In a tree of two or more leaves, the code of a leaf's symbol has the length of the path to the leaf. -/
theorem code_length_eq_depth {node : List Node} {root : Ref} {n k : Nat} {t : CodeTable} {w : Weight} {a : Byte}
    (hok : ArenaOk node root n) (hn : 2 ≤ n) (ht : assignCodes node root = some t)
    (hleaf : node[k]? = some (.leaf w a)) : ((codeOf t a).getD []).length = depthOf node root k := by
  have hk : k < 2 * n - 1 := hok.count ▸ lt_length_of_getElem? hleaf
  have hbounds := hok.bounds
  have href : (BitVec.ofNat 9 k).toNat = k := toNat_ofNat_ref (by omega)
  obtain ⟨c, hc⟩ := endRef_exists hok (BitVec.ofNat 9 k) (href.symm ▸ hk)
  have hpath : LeadsTo node root c a := ⟨w, by rw [follow_eq_endRef, hc, Option.bind_some, nodeOf, href, hleaf]⟩
  have hdepth := depthOf_eq hok hc
  rw [href] at hdepth
  rw [(codeOf_assigned_iff hok hn ht a c).2 hpath, hdepth, Option.getD_some]

/-- With two or more symbols present, the codes cost what the internal records weigh. -/
theorem codeCost_eq_innerSum {s t u : State} (hf : s.faulted = false) (hbuild : exec .tbBuild s = .next t)
    (ht : t.faulted = false) (hassign : exec .caAssign t = .next u)
    (hn : 2 ≤ (presentSymbols s.freqAt).length) : codeCost s.freqAt u.codeAt = innerSum t.node := by
  obtain ⟨-, heq, hok, -⟩ := exec_tbBuild_spec hf hbuild ht
  have hv : t.tbValid = true := congrArg State.tbValid heq
  have hcode := assignCodes_of_exec_caAssign ht hv hassign
  rw [codeCost, ← sum_presentSymbols s.freqAt fun a => ((u.codeAt a).getD []).length, ← path_cost hok]
  congr 1
  apply List.ext_getElem
  · rw [List.length_map, List.length_map, List.length_range]
  · intro k hk _
    rw [List.length_map] at hk
    have hleaf := (leaf_iff_of_tbBuild hf hbuild ht).2 ⟨List.getElem?_eq_getElem hk, rfl⟩
    have hweight : ((s.freqAt (presentSymbols s.freqAt)[k]).setWidth 40).toNat
        = (s.freqAt (presentSymbols s.freqAt)[k]).toNat := BitVec.toNat_setWidth_of_le (by decide)
    rw [List.getElem_map, List.getElem_map, List.getElem_range, hleaf, State.codeAt,
      code_length_eq_depth hok hn hcode hleaf, Option.map_some, Option.getD_some, Node.weight, hweight]

/-- R132: with one symbol present, its code has one bit. -/
theorem code_length_eq_one {s t u : State} (hf : s.faulted = false) (hbuild : exec .tbBuild s = .next t)
    (ht : t.faulted = false) (hassign : exec .caAssign t = .next u)
    (hn : (presentSymbols s.freqAt).length = 1) (a : Byte) (hcount : s.freqAt a ≠ 0) :
    ((u.codeAt a).getD []).length = 1 := by
  obtain ⟨-, heq, hok, -⟩ := exec_tbBuild_spec hf hbuild ht
  have hv : t.tbValid = true := congrArg State.tbValid heq
  have hcode := assignCodes_of_exec_caAssign ht hv hassign
  obtain ⟨w, b, hroot⟩ := root_leaf_of_one (hn ▸ hok)
  obtain ⟨-, hpresent⟩ := codesCoverThePresentSymbols s t u hf hbuild ht hassign a
  obtain ⟨c, hc⟩ := hpresent.2 hcount
  rw [State.codeAt, codeOf_assigned_leaf hcode hroot] at hc ⊢
  rw [hc]
  obtain ⟨-, hc⟩ := Option.ite_none_right_eq_some.1 hc
  rw [← hc]
  rfl

/-- A code that is for each counted symbol at most as long costs at most as much. -/
theorem codeCost_le {freq : Byte → Count} {code other : Byte → Option Code}
    (h : ∀ a, freq a ≠ 0 → ((code a).getD []).length ≤ ((other a).getD []).length) :
    codeCost freq code ≤ codeCost freq other := by
  refine List.sum_le_sum fun a _ => ?_
  by_cases hzero : freq a = 0
  · rw [hzero]
    simp
  · exact Nat.mul_le_mul_left _ (h a hzero)

/-- Settles O40: with two or more symbols the codes cost what the merges add up to, which bounds every other
code from below; the one code of a single symbol has one bit, and no code has fewer. -/
theorem huffmanCodeIsOptimal : Obligations.HuffmanCodeIsOptimal := by
  intro s t u other hf hbuild ht hassign hex hfree
  obtain ⟨-, heq, hok, -⟩ := exec_tbBuild_spec hf hbuild ht
  rcases Nat.lt_or_ge 1 (presentSymbols s.freqAt).length with hn | hn
  · have hnode : t.node = (buildTree s.freqAt).node := congrArg State.node heq
    rw [codeCost_eq_innerSum hf hbuild ht hassign hn, hnode]
    refine buildTree_optimal s.freqAt (fun a => (other a).getD []) fun a b ha hb hab => ?_
    rw [count_pos_iff] at ha hb
    obtain ⟨c, hc, -⟩ := hex a ha
    obtain ⟨d, hd, -⟩ := hex b hb
    rw [hc, hd]
    exact hfree a b c d ha hb hab hc hd
  · have hone := Nat.le_antisymm hn hok.bounds.1
    refine codeCost_le fun a ha => ?_
    obtain ⟨c, hc, hne⟩ := hex a ha
    rw [code_length_eq_one hf hbuild ht hassign hone a ha, hc]
    exact List.length_pos_iff.2 hne

end Sys2Proof.Proofs
end

section
/-! The invariant of the machine (10_state.md, section 2): each of its six parts is about the elements of one unit,
so only the effects that write those elements have to be looked at. With it no step stops. -/

namespace Sys2Proof.Proofs

open Sys2Proof.Machine Sys2Proof.Laws

/-! ### After reset -/

/-- R44: every part of the invariant holds of the reset values. -/
theorem inv_resetBlock (s : State) : s.resetBlock.Inv where
  pq := ⟨List.Pairwise.nil, Nat.zero_le _⟩
  tb := ⟨nofun, fun _ => ⟨rfl, rfl⟩⟩
  ca := by
    have habsent : ∀ a c, s.resetBlock.codeAt a ≠ some c := fun a c hc => by
      rw [State.codeAt, resetBlock_code, codeOf_noCodes] at hc
      cases hc
    exact ⟨fun a c hc => absurd hc (habsent a c), fun a _ c _ hc => absurd hc (habsent a c)⟩
  bp := ⟨Nat.zero_lt_one, fun _ => rfl, fun _ => rfl⟩
  bu := ⟨fun _ _ => Nat.zero_le _, Nat.zero_le _, Nat.zero_mod _⟩
  sys := nofun

/-- Settles O54: the reset state is a block after a reset. -/
theorem resetMeetsTheInvariant : Obligations.ResetMeetsTheInvariant := inv_resetBlock State.reset

/-! ### Each part is kept -/

/-- R27: only PQ.ADD lengthens the selector, and only below its capacity. -/
theorem pqInv_of_effect {i : Instr} {s t : State} (h : Effect i s t) (hs : PqInv s) : PqInv t := by
  refine ⟨sorted_of_effect h hs.1, ?_⟩
  cases h with
  | sysReset | pqClr | tbBuild => exact Nat.zero_le _
  | pqAdd _ hroom => exact (pqAdd_length _ _).trans_le hroom
  | pqRem _ hq =>
    have hle := hs.2
    rw [hq] at hle
    exact Nat.le_of_succ_le hle
  | _ => exact hs.2

/-- R30: only TB.BUILD makes a tree valid, and it leaves a complete one. -/
theorem tbInv_of_effect {i : Instr} {s t : State} (h : Effect i s t) (hs : TbInv s) : TbInv t := by
  have hexec := exec_of_effect h
  cases h with
  | sysReset => exact (inv_resetBlock s).tb
  | tbBuild hf =>
    obtain ⟨-, -, hok, -⟩ := exec_tbBuild_spec hf hexec hf
    exact ⟨fun _ => ⟨_, hok⟩, nofun⟩
  | _ => exact hs

/-- R32, R137: only CA.ASSIGN writes codes, and they are paths of a tree, each to a leaf of its own. -/
theorem caInv_of_effect {i : Instr} {s t : State} (h : Effect i s t) (hs : CaInv s) : CaInv t := by
  cases h with
  | sysReset => exact (inv_resetBlock s).ca
  | caAssign _ _ ht =>
    have hcodes := prefixTable_assign ht
    exact ⟨hcodes.len, hcodes.pre⟩
  | _ => exact hs

/-- R33, R34: a bit shifted in is counted in `bp_n` and in `bp_total`, and an emitted byte leaves no bit. -/
theorem bpInv_of_effect {i : Instr} {s t : State} (h : Effect i s t) (hs : BpInv s) : BpInv t := by
  obtain ⟨hacc, hfinal, hcount⟩ := hs
  cases h with
  | sysReset => exact (inv_resetBlock s).bp
  | bpClr => exact ⟨Nat.zero_lt_one, nofun, fun _ => rfl⟩
  | bpEmit _ hopen htotal hn =>
    have hadd := bitCount_toNat_add_one (mt eq_maxBitCount_iff.2 htotal)
    have hseven : s.bpTotal.toNat % 8 = 7 := by rw [← hcount hopen, hn]; rfl
    refine ⟨Nat.zero_lt_one, fun _ => rfl, fun _ => ?_⟩
    show 0 = (s.bpTotal + 1).toNat % 8
    omega
  | bpHold _ hopen htotal hn =>
    have hadd := bitCount_toNat_add_one (mt eq_maxBitCount_iff.2 htotal)
    have hadd' := bpN_toNat_add_one hn
    refine ⟨?_, fun hclosed => absurd (hopen.symm.trans hclosed) nofun, fun _ => ?_⟩
    · show (packBit s.bpAcc _).toNat < 2 ^ (s.bpN + 1).toNat
      rw [packBit_toNat_of_lt hacc, hadd', Nat.pow_succ]
      omega
    · show (s.bpN + 1).toNat = (s.bpTotal + 1).toNat % 8
      have hlt := (s.bpN + 1).isLt
      have hmod := hcount hopen
      omega
  | flushEmpty _ _ hn => exact ⟨hacc, fun _ => hn, nofun⟩
  | flushEmit => exact ⟨Nat.zero_lt_one, fun _ => rfl, nofun⟩
  | _ => exact ⟨hacc, hfinal, hcount⟩

/-- R37: shifting out a bit of the current byte leaves one more zero below the bits left. -/
theorem shiftLeft_one_toNat_mod {b : Byte} {k : Nat} (hk : k < 8) (h : b.toNat % 2 ^ k = 0) :
    (b <<< 1).toNat % 2 ^ (k + 1) = 0 := by
  rw [shiftLeft_one_toNat, Nat.mod_mod_of_dvd _ (pow_dvd_pow 2 hk), Nat.pow_succ', Nat.mul_mod_mul_left, h]

/-- R36, R37: BU.FEED respects the capacity, and BU.NEXT shifts out the top bit of a byte whose low bits are 0. -/
theorem buInv_of_effect {i : Instr} {s t : State} (h : Effect i s t) (hs : BuInv s) : BuInv t := by
  obtain ⟨hcap, hleft, hcur⟩ := hs
  cases h with
  | sysReset => exact (inv_resetBlock s).bu
  | buStart => exact ⟨fun _ _ => Nat.zero_le _, Nat.zero_le _, Nat.zero_mod _⟩
  | buFeed _ hroom =>
    refine ⟨fun k hk => ?_, hleft, hcur⟩
    show (s.buFifo ++ [_]).length ≤ k + 1
    rw [List.length_append, List.length_singleton]
    exact Nat.succ_le_of_lt (Nat.lt_of_not_le fun hfull => hroom ⟨k, hk, hfull⟩)
  | nextHeld _ _ hne =>
    have hsub : (s.buLeft - 1).toNat = s.buLeft.toNat - 1 := toNat_sub_one_of_ne_zero hne
    have hpos : s.buLeft.toNat ≠ 0 := mt (BitVec.toNat_inj (y := 0#4)).1 hne
    refine ⟨hcap, ?_, ?_⟩
    · show (s.buLeft - 1).toNat ≤ 8
      omega
    · show (s.buCur <<< 1).toNat % 2 ^ (8 - (s.buLeft - 1).toNat) = 0
      rw [hsub, show 8 - (s.buLeft.toNat - 1) = (8 - s.buLeft.toNat) + 1 by omega]
      exact shiftLeft_one_toNat_mod (by omega) hcur
  | nextFetch _ _ _ hq =>
    refine ⟨fun k hk => ?_, Nat.le_succ 7, shiftLeft_one_toNat_mod (k := 0) (by decide) (Nat.mod_one _)⟩
    have hle := hcap k hk
    rw [hq] at hle
    exact Nat.le_of_succ_le hle
  | _ => exact ⟨hcap, hleft, hcur⟩

/-- R39, R203: only `FcOverflow` records a symbol. -/
theorem sysInv_of_effect {i : Instr} {s t : State} (h : Effect i s t) (hs : SysInv s) : SysInv t := by
  cases h with
  | sysReset => exact (inv_resetBlock s).sys
  | fcOverflow => rintro l ⟨⟩ hne; exact absurd rfl hne
  | emptyInput | bpOverflow | corrupt => rintro l ⟨⟩ _; rfl
  | _ => exact hs

theorem inv_of_effect {i : Instr} {s t : State} (h : Effect i s t) (hs : s.Inv) : t.Inv where
  pq := pqInv_of_effect h hs.pq
  tb := tbInv_of_effect h hs.tb
  ca := caInv_of_effect h hs.ca
  bp := bpInv_of_effect h hs.bp
  bu := buInv_of_effect h hs.bu
  sys := sysInv_of_effect h hs.sys

/-! ### A step -/

/-- The ports are no part of the invariant. -/
theorem inv_inputs {s : State} (h : s.Inv) (rest : List HostInput) : { s with inputs := rest }.Inv :=
  ⟨h.pq, h.tb, h.ca, h.bp, h.bu, h.sys⟩

theorem inv_respond {s : State} (h : s.Inv) (r : Response) : (s.respond r).Inv :=
  ⟨h.pq, h.tb, h.ca, h.bp, h.bu, h.sys⟩

/-- Settles O55: a step holds the state, resets it, refuses a word, or is the effect of a command. -/
theorem stepKeepsTheInvariant : Obligations.StepKeepsTheInvariant := by
  intro s t hs h
  rcases step_effect h with ⟨-, rfl⟩ | ⟨rest, -, rfl⟩ | ⟨_, rest, _, -, -, rfl⟩ | ⟨_, rest, _, -, -, heffect⟩
  · exact hs
  · exact inv_resetBlock _
  · exact inv_respond (inv_inputs hs rest) .refused
  · exact inv_of_effect heffect (inv_inputs hs rest)

/-- Settles O56: the one path that stops is a walk that meets no tree, and a valid arena holds a tree. -/
theorem invariantStateAlwaysSteps : Obligations.InvariantStateAlwaysSteps := by
  intro s hs
  have htable : s.tbValid = true → ∃ t, assignCodes s.node s.tbRoot = some t := fun hv => by
    obtain ⟨n, hok⟩ := hs.tb.1 hv
    exact assignCodes_total hok
  match hi : s.inputs with
  | [] => exact ⟨s, step_idle hi⟩
  | .hardReset :: rest => exact ⟨_, step_hardReset hi⟩
  | .command c :: rest =>
    cases hd : decode c with
    | error e => exact ⟨_, step_illegal hi hd⟩
    | ok i =>
      obtain ⟨t, ht⟩ := exec_total (i := i) (s := { s with inputs := rest }) fun _ => htable
      exact ⟨t, (step_command hi hd).trans ht⟩

end Sys2Proof.Proofs
end

section
/-! The packer's payload and the unpacker's stream (44_bit_packer.md and 45_bit_unpacker.md): a run through the packer
emits the bytes of the sequence, and a run through the unpacker returns the bits of the bytes fed. -/

namespace Sys2Proof.Proofs

open Sys2Proof.Machine Sys2Proof.Laws

/-! ### The packer's payload -/

/-- R145, R146: BP.CLR, the bits and BP.FLUSH complete, count the bits and emit the bytes of the sequence. -/
theorem execAll_packCommands {s : State} {bits : List (BitVec 1)} (hf : s.faulted = false)
    (hlen : bits.length < 2 ^ 48) :
    ∃ t, execAll (packCommands bits) s = .next t ∧ t.faulted = false ∧ t.buFifoCap = s.buFifoCap
      ∧ t.bpTotal.toNat = bits.length ∧ packedBytes s t = payloadOf bits := by
  obtain ⟨u, hclr, hrsps, hpacking⟩ := packing_clr hf
  obtain ⟨rs, t, hrun, ht, htotal, -, hbytes⟩ := hpacking.flush hlen
  have hall : Run (packCommands bits) s (.ok 0 :: rs) t := .cons hclr hrsps hrun
  refine ⟨t, hall.execAll, ht, hall.buFifoCap, htotal, ?_⟩
  rw [packedBytes, hall.newResponses, List.map_cons, List.drop_one, List.tail_cons, hbytes]

/-- Settles O45: byte `j` of the payload is the value of the sequence's eight bits from `8j` on. -/
theorem packedPayloadIsTheBitSequence : Obligations.PackedPayloadIsTheBitSequence := by
  intro s bits hf hlen
  obtain ⟨t, hexec, -, -, htotal, hbytes⟩ := execAll_packCommands hf hlen
  refine ⟨t, hexec, htotal, by rw [hbytes, length_payloadOf], fun j b hj => ?_⟩
  rw [hbytes, payloadOf, List.getElem?_map, Option.map_eq_some_iff] at hj
  obtain ⟨k, hk, rfl⟩ := hj
  obtain rfl : j = k := by
    obtain ⟨hlt, hget⟩ := List.getElem?_eq_some_iff.1 hk
    rwa [List.getElem_range] at hget
  exact byteOf_toNat bits j

/-! ### Any interleaving of BU.FEED and BU.NEXT -/

/-- What the BU.NEXT commands answer when bit `d` of the bytes fed is the next one, each of `n` in turn (R156). -/
def streamWords (fed : List Byte) (count d n : Nat) : List Word :=
  (List.range n).map fun j =>
    if d + j < count then (Response.ok (bitValue (payloadBit fed (d + j)))).word else Response.none.word

theorem streamWords_succ (fed : List Byte) (count d n : Nat) :
    streamWords fed count d (n + 1)
      = (if d < count then (Response.ok (bitValue (payloadBit fed d))).word else Response.none.word)
        :: streamWords fed count (d + 1) n := by
  rw [streamWords, List.range_succ_eq_map, List.map_cons, List.map_map, Nat.add_zero]
  congr 1
  refine List.map_congr_left fun j _ => ?_
  simp only [Function.comp_apply, Nat.succ_eq_add_one, show d + (j + 1) = d + 1 + j by omega]

/-- Past the count every answer is `NONE`. -/
theorem streamWords_of_le {fed : List Byte} {count d : Nat} (h : count ≤ d) (n : Nat) :
    streamWords fed count d n = List.replicate n Response.none.word := by
  rw [streamWords, List.map_congr_left fun j _ => if_neg (show ¬ d + j < count by omega), List.map_const',
    List.length_range]

/-- A command has one effect and one answer. -/
theorem effect_unique {i : Instr} {s t t' : State} {r r' : Response} (h : Effect i s t)
    (hr : t.rsps = s.rsps ++ [r.word]) (h' : Effect i s t') (hr' : t'.rsps = s.rsps ++ [r'.word]) :
    t = t' ∧ r = r' := by
  obtain rfl := next_inj ((exec_of_effect h).symm.trans (exec_of_effect h'))
  rw [hr, List.append_cancel_left_eq, List.cons.injEq] at hr'
  exact ⟨rfl, word_injective hr'.1⟩

/-- A BU.FEED that is not refused found room. -/
theorem not_fifoFull_of_answer {b : Byte} {s t : State} {r : Response} (hf : s.faulted = false)
    (h : Effect (.buFeed b) s t) (hr : t.rsps = s.rsps ++ [r.word]) (hne : r ≠ .refused) : ¬ FifoFull s := by
  intro hfull
  exact hne (effect_unique h hr (.fifoFull hf hfull) (respond_rsps s .refused)).2

/-- A BU.NEXT below the count that takes no fault found a bit to return. -/
theorem has_bit_of_unfaulted {s t : State} {fed : List Byte} {count d : Nat} (hu : Unpacking s fed count d)
    (hd : d < count) (h : Effect .buNext s t) (ht : t.faulted = false) : s.buLeft ≠ 0 ∨ s.buFifo ≠ [] := by
  by_contra hno
  rw [not_or, not_not, not_not] at hno
  have hrem : s.buRem ≠ 0 := fun hzero => by
    have hsum := hu.rem
    rw [hzero] at hsum
    exact hd.ne ((Nat.zero_add d).symm.trans hsum)
  obtain rfl := next_inj ((exec_of_effect h).symm.trans
    (exec_of_effect (.corrupt hu.unfaulted hrem hno.1 hno.2)))
  cases ht

/-- R156: from any point of the stream on. -/
theorem responsesTo_buNext {count : Nat} {is : List Instr} {s t : State} {rs : List Response}
    (h : Run is s rs t) (his : ∀ i ∈ is, (∃ b, i = .buFeed b) ∨ i = .buNext) (ht : t.faulted = false)
    (hrefused : Response.refused ∉ rs) {fed : List Byte} {d : Nat} (hu : Unpacking s fed count d) :
    responsesTo .buNext is (rs.map Response.word)
      = streamWords (fed ++ fedBytes is) count d (nextCount is) := by
  induction h generalizing fed d with
  | nil => rfl
  | @cons i is s u t r rs hi hr hrun ih =>
    rw [List.forall_mem_cons] at his
    rw [List.mem_cons, not_or] at hrefused
    have hnoReset : Instr.sysReset ∉ is := fun hmem => by
      rcases his.2 _ hmem with ⟨b, hb⟩ | hb <;> cases hb
    have hufault : u.faulted = false := unfaulted_before hrun ht hnoReset
    rcases his.1 with ⟨b, rfl⟩ | rfl
    · have hroom := not_fifoFull_of_answer hu.unfaulted hi hr (Ne.symm hrefused.1)
      obtain ⟨u', hi', hr', -, hu'⟩ := hu.feed b hroom
      obtain ⟨rfl, rfl⟩ := effect_unique hi hr hi' hr'
      have hrest := ih his.2 ht hrefused.2 hu'
      rw [List.append_assoc] at hrest
      exact hrest
    · have hcount : nextCount (.buNext :: is) = nextCount is + 1 := List.countP_cons_of_pos (decide_eq_true rfl)
      have hfirst : responsesTo .buNext (.buNext :: is) ((r :: rs).map Response.word)
          = r.word :: responsesTo .buNext is (rs.map Response.word) := rfl
      have hfed : fedBytes (.buNext :: is) = fedBytes is := rfl
      rw [hcount, hfirst, hfed, streamWords_succ]
      rcases Nat.lt_or_eq_of_le hu.le with hlt | rfl
      · obtain ⟨u', hi', hr', hd, hu'⟩ := hu.next hlt (has_bit_of_unfaulted hu hlt hi hufault)
        obtain ⟨rfl, rfl⟩ := effect_unique hi hr hi' hr'
        rw [if_pos hlt, payloadBit_append hd, ih his.2 ht hrefused.2 hu']
      · obtain ⟨u', hi', hr', hu'⟩ := hu.done
        obtain ⟨rfl, rfl⟩ := effect_unique hi hr hi' hr'
        rw [if_neg (Nat.lt_irrefl d), ih his.2 ht hrefused.2 hu', streamWords_of_le le_rfl,
          streamWords_of_le (Nat.le_succ d)]

/-- Settles O48: BU.START begins the stream at its first bit. -/
theorem unpackedBitsAreTheFedBits : Obligations.UnpackedBitsAreTheFedBits := by
  intro s t count is hf his h ht hrefused
  obtain ⟨rs, hrun⟩ := run_of_execAll h
  rw [hrun.newResponses] at hrefused ⊢
  cases hrun with
  | cons hi hr hrest =>
    obtain ⟨u, hi', hr', hu⟩ := unpacking_start hf count
    obtain ⟨rfl, rfl⟩ := effect_unique hi hr hi' hr'
    rw [List.map_cons, List.mem_cons, not_or] at hrefused
    rw [List.map_cons, List.drop_one, List.tail_cons,
      responsesTo_buNext hrest his ht (fun hmem => hrefused.2 (List.mem_map_of_mem hmem)) hu, streamWords]
    simp only [Nat.zero_add, List.nil_append]

/-! ### All of the payload first, then all of the bits -/

/-- R152: bytes that the FIFO has room for are all taken. -/
theorem run_buFeeds {count d : Nat} (bytes : List Byte) : ∀ {s : State} {fed : List Byte},
    Unpacking s fed count d → (∀ k, s.buFifoCap = some k → s.buFifo.length + bytes.length ≤ k + 1) →
    ∃ t, Run (buFeeds bytes) s (List.replicate bytes.length (.ok 0)) t ∧ Unpacking t (fed ++ bytes) count d := by
  induction bytes with
  | nil => exact fun {s fed} hu _ => ⟨s, .nil s, (List.append_nil fed).symm ▸ hu⟩
  | cons b bytes ih =>
    intro s fed hu hroom
    have hnotFull : ¬ FifoFull s := fun ⟨k, hk, hfull⟩ => by
      have hle := hroom k hk
      rw [List.length_cons] at hle
      omega
    obtain ⟨u, hi, hr, hfifo, hu'⟩ := hu.feed b hnotFull
    obtain ⟨-, -, -, hcap⟩ := exec_ports (exec_of_effect hi)
    obtain ⟨t, hrun, ht⟩ := ih hu' fun k hk => by
      have hle := hroom k (hcap.symm.trans hk)
      rw [hfifo, List.length_append, List.length_singleton]
      rw [List.length_cons] at hle
      omega
    exact ⟨t, .cons hi hr hrun, by rwa [List.append_assoc] at ht⟩

/-- Below the count, and with bytes enough fed, there is a bit to return. -/
theorem has_bit_of_fed {s : State} {fed : List Byte} {count d : Nat} (hu : Unpacking s fed count d)
    (hd : d < 8 * fed.length) : s.buLeft ≠ 0 ∨ s.buFifo ≠ [] := by
  obtain ⟨f, -, hfifo, hleft⟩ := hu.fetched
  by_contra hno
  rw [not_or, not_not, not_not] at hno
  have hzero : s.buLeft.toNat = 0 := congrArg BitVec.toNat hno.1
  rw [hno.2] at hfifo
  have hle := List.drop_eq_nil_iff.1 hfifo.symm
  omega

/-- R156: with the bytes all fed, the bits still counted come out in order. -/
theorem run_buNexts {count : Nat} {fed : List Byte} (hfed : count ≤ 8 * fed.length) (n : Nat) :
    ∀ {s : State} {d : Nat}, Unpacking s fed count d → d + n = count →
    ∃ t, Run (List.replicate n .buNext) s
        ((List.range' d n).map fun j => .ok (bitValue (payloadBit fed j))) t ∧ Unpacking t fed count count := by
  induction n with
  | zero =>
    rintro s d hu rfl
    exact ⟨s, .nil s, hu⟩
  | succ n ih =>
    intro s d hu hsum
    obtain ⟨u, hi, hr, -, hu'⟩ := hu.next (by omega) (has_bit_of_fed hu (by omega))
    obtain ⟨t, hrun, ht⟩ := ih hu' (by omega)
    exact ⟨t, .cons hi hr hrun, ht⟩

/-- R75: the answer of BU.NEXT is the bit. -/
theorem bitValue_getLsbD_zero (b : BitVec 1) : bitValue (b.getLsbD 0) = b.setWidth 56 := by
  rw [bitValue, ← BitVec.setWidth_one, BitVec.setWidth_eq]

/-- R155: the bits of a sequence's payload, in order, are the sequence. -/
theorem payloadBits_payloadOf (bits : List (BitVec 1)) :
    (List.range' 0 bits.length).map (fun j => Response.ok (bitValue (payloadBit (payloadOf bits) j)))
      = bits.map fun b => Response.ok (b.setWidth 56) := by
  apply List.ext_getElem
  · rw [List.length_map, List.length_map, List.length_range']
  · intro j _ hj
    rw [List.length_map] at hj
    rw [List.getElem_map, List.getElem_map, List.getElem_range', Nat.zero_add, Nat.one_mul,
      payloadBit_payloadOf hj, bitValue_getLsbD_zero]

/-- Settles O49: the payload fed in full, then a BU.NEXT for each bit, and one more. -/
theorem unpackerInvertsPacker : Obligations.UnpackerInvertsPacker := by
  intro s bits hf hlen hroom
  obtain ⟨t, hpack, ht, hcap, -, hbytes⟩ := execAll_packCommands hf hlen
  obtain ⟨u₀, hstart, hrsps, hu₀⟩ := unpacking_start ht (BitVec.ofNat 48 bits.length)
  rw [BitVec.toNat_ofNat, Nat.mod_eq_of_lt hlen] at hu₀
  have hpayload := length_payloadOf bits
  obtain ⟨u₁, hfeeds, hu₁⟩ := run_buFeeds (payloadOf bits) hu₀ fun k hk => by
    obtain ⟨-, -, -, hsame⟩ := exec_ports (exec_of_effect hstart)
    obtain ⟨f, -, hfifo, -⟩ := hu₀.fetched
    rw [hfifo, List.drop_nil, List.length_nil, Nat.zero_add, hpayload]
    exact hroom k (hcap.symm.trans (hsame.symm.trans hk))
  rw [List.nil_append] at hu₁
  obtain ⟨u₂, hnexts, hu₂⟩ := run_buNexts (by omega) bits.length hu₁ (Nat.zero_add _)
  obtain ⟨u, hlast, hlastRsps, -⟩ := hu₂.done
  have hrun := Run.cons hstart hrsps (hfeeds.append (hnexts.append (.one hlast hlastRsps)))
  rw [← List.replicate_succ'] at hrun
  refine ⟨t, u, hpack, hbytes ▸ hrun.execAll, ?_⟩
  rw [hrun.newResponses, hbytes, payloadBits_payloadOf, List.map_cons, Nat.add_comm 1, List.drop_succ_cons,
    List.map_append, List.map_replicate, List.drop_left' (List.length_replicate), List.map_append, List.map_map]
  rfl

end Sys2Proof.Proofs
end

section
/-! The round trip of the host's two procedures (47_environment.md R182, R183): compress leaves a table of codes and
the packed codes of the input, and decompress reads the codes back. -/

namespace Sys2Proof.Proofs

open Sys2Proof.Machine Sys2Proof.Laws

/-! ### Decompress -/

/-- R178: decompress makes of the packed codes of an input, with their number of bits, the input again. -/
theorem decompress_packedCodes {t : CodeTable} {total : BitCount} {bits : List Bool} {x : List Byte} {s : State}
    (hf : s.faulted = false) (hcodes : PrefixTable t) (htotal : total.toNat = bits.length)
    (hbits : bits = x.flatMap fun a => (codeOf t a).getD []) (hx : x ≠ [])
    (hcoded : ∀ a ∈ x, ∃ c, codeOf t a = some c) :
    ∃ u, decompress ⟨t, total, payloadOf (bits.map BitVec.ofBool)⟩ s = .ok (x, u) := by
  obtain ⟨a, ha⟩ := List.exists_mem_of_ne_nil x hx
  have hwellFormed := tableMalformed_eq_false hcodes ⟨a, hcoded a ha⟩
  obtain ⟨s₁, hstart, hrsps, hunpacking⟩ := unpacking_start hf total
  have hpayload : ∀ j (hj : j < bits.length), payloadBit (payloadOf (bits.map BitVec.ofBool)) j = bits[j] := by
    intro j hj
    rw [payloadBit_payloadOf (by rwa [List.length_map]), List.getElem_map, BitVec.getLsbD_ofBool]
    rfl
  have hlength := length_payloadOf (bits.map BitVec.ofBool)
  rw [List.length_map] at hlength
  have hnonempty : ∀ b rest, x = b :: rest → 0 < ((codeOf t b).getD []).length := by
    rintro b rest rfl
    obtain ⟨c, hc⟩ := hcoded b List.mem_cons_self
    rw [hc]
    exact (hcodes.len b c hc).1
  obtain ⟨u, hloop⟩ := decodeLoop_spec t hcodes _ total.toNat bits htotal.symm hpayload (by omega)
    _ 0 [] _ [] [] x s₁ rfl hunpacking rfl hcoded hbits hnonempty fun _ => rfl
  refine ⟨u, ?_⟩
  rw [decompress, if_neg (Bool.eq_false_iff.1 hwellFormed), require_of_effect hstart hrsps (.inl rfl), andThen_ok]
  exact hloop

/-! ### The round trips -/

/-- Settles O57: what compress leaves of the input is what decompress needs. -/
theorem compressRoundTrip : Obligations.CompressRoundTrip := by
  rintro x s s' hf hf' ⟨a, ha, -⟩ hcount
  have hx : x ≠ [] := List.ne_nil_of_mem ha
  obtain ⟨t, bits, total, u, hcompress, hcodes, htotal, hbits, hcoded, -⟩ := compress_spec x s hf hx hcount
  obtain ⟨u', hdecompress⟩ := decompress_packedCodes hf' hcodes htotal hbits hx hcoded
  exact ⟨_, u, u', hcompress, hdecompress⟩

/-- R132: the codes of a repeated symbol whose code is `0` are as many zeros. -/
theorem flatMap_replicate_singleton (t : CodeTable) (a : Byte) (h : codeOf t a = some [false]) (n : Nat) :
    (List.replicate n a).flatMap (fun b => (codeOf t b).getD []) = List.replicate n false := by
  induction n with
  | zero => rfl
  | succ n ih => rw [List.replicate_succ, List.flatMap_cons, ih, h]; rfl

/-- R145: the bytes of a sequence of zeros are zero. -/
theorem payloadOf_replicate_zero (n : Nat) :
    payloadOf (List.replicate n 0#1) = List.replicate ((n + 7) / 8) 0 := by
  have hbit : ∀ k, (List.replicate n 0#1).getD k 0 = 0 := fun k => by
    rw [List.getD_eq_getElem?_getD, List.getElem?_replicate]
    split <;> rfl
  have hchunk : ∀ j, chunkVal (List.replicate n 0#1) j 8 = 0 := fun j => by
    rw [chunkVal_congr (bits' := []) fun i _ => hbit _]
    rfl
  have hbyte : byteOf (List.replicate n 0#1) = fun _ => 0#8 := funext fun j => by rw [byteOf, hchunk]
  rw [payloadOf, hbyte, List.map_const', List.length_range, List.length_replicate]
  rfl

/-- Settles O58: an input of one symbol has the code `0`, so its bits are zeros. -/
theorem singleSymbolRoundTrip : Obligations.SingleSymbolRoundTrip := by
  intro a n s s' hf hf' hpos hlt
  have hx : List.replicate n a ≠ [] := by
    rw [ne_eq, List.replicate_eq_nil_iff]
    exact hpos.ne'
  have hcount : ∀ b : Byte, (List.replicate n a).count b < 2 ^ 32 := fun b =>
    (List.count_le_length.trans_eq List.length_replicate).trans_lt hlt
  obtain ⟨t, bits, total, u, hcompress, hcodes, htotal, hbits, hcoded, hone⟩ := compress_spec _ s hf hx hcount
  obtain ⟨u', hdecompress⟩ := decompress_packedCodes hf' hcodes htotal hbits hx hcoded
  have hzeros : bits = List.replicate n false :=
    hbits.trans (flatMap_replicate_singleton t a (hone a fun b hb => List.eq_of_mem_replicate hb) n)
  refine ⟨_, u, u', hcompress, hdecompress, ?_, ?_⟩
  · rw [htotal, hzeros, List.length_replicate]
  · rw [hzeros, List.map_replicate]
    exact payloadOf_replicate_zero n

end Sys2Proof.Proofs
end
